-- ==== Sys2Proof/Word.lean ====
section
/-! DEFINITION. The word types of the block: 64-bit registers and lanes (R9), bytes of host memory (R61),
and the 25-lane permutation state (R7, R11). -/

namespace Sys2Proof

/-- A register, a lane, a descriptor-table entry: 64 bits (R9). -/
abbrev Word := BitVec 64

/-- One byte of host memory or of a message (R61). -/
abbrev Byte := BitVec 8

/-- A permutation state: exactly 25 lanes of 64 bits (R7); lane `(x, y)` stands at index `x + 5*y` (R11). -/
abbrev Lanes := Vector Word 25

end Sys2Proof
end

