-- ==== Sys2Proof/Config.lean ====
section
/-! DEFINITION. What an implementation or its environment fixes and the spec leaves open: the parameters of R8 as a record, the
environment oracle's draw points and answers (R276), and the free values, each an opaque constant with no body, so that
nothing can be proved about a value of it (log entries 3, 5, 6, 7, 8). -/

namespace Sys2Proof

/-- A run of host byte addresses `base .. base + size - 1` that the platform admits. -/
structure Region where
  base : Nat
  size : Nat
  deriving DecidableEq, Repr, Inhabited

/-- The open parameters of R8. They are constant while the block runs: no step writes them.
`C`, `N`, `B` are held one too small, so that `C ≥ 1`, `N ≥ 1`, `B ≥ 1` hold by construction. -/
structure Platform where
  /-- `REG_BASE / 0x100` (REG_BASE is a multiple of 0x100, R8). -/
  regPage : BitVec 56
  /-- The addresses with `HostMemAdmits(a)`, as a list of regions (any predicate on 2^64 addresses has such a list). -/
  regions : List Region
  /-- `C - 1`, C the batch lane capacity. -/
  extraLanes : Nat
  /-- `N - 1`, N the ACC staging ring slots; no result depends on it (R8, R201). -/
  extraRingSlots : Nat
  /-- `B - 1`, B the blocks of an ACC device buffer; no result depends on it (R8, R201). -/
  extraBufferBlocks : Nat
  deriving DecidableEq, Repr, Inhabited

/-- `C`, the batch lane capacity, at least 1 (R8). -/
def Platform.laneCapacity (p : Platform) : Nat := p.extraLanes + 1

/-- The points at which the environment oracle `EnvFail` is asked (R276). -/
inductive DrawPoint where
  | accAlloc | accInit | accAdd | accDigest | batAlloc | batTransfer | batKernel | batReadback
  deriving DecidableEq, Repr, Inhabited

/-- What the oracle can answer at a draw point: no failure, or one of the three resource failures (R276). -/
inductive EnvAnswer where
  | noFailure | allocFailure | transferFailure | kernelFailure
  deriving DecidableEq, Repr, Inhabited

/-- The parameters of the one block that `State.reset` describes: open (R8), so uninterpreted. -/
opaque Config.platform : Platform

/-- The oracle's answer to draw number `n` at a point, where the state lists no answer for it (R276: "a free input under no law"). -/
opaque Config.envAnswer : Nat → DrawPoint → EnvAnswer

/-- The byte at an address of an output region that a failed or abandoned command leaves unspecified (R69, R273, R301). -/
opaque Config.freeByte : Nat → Nat → Byte

/-- Lanes whose contents the spec leaves unspecified after an event (R33, R175). -/
opaque Config.freeLanes : Nat → Lanes

/-- Buffer contents the spec leaves unspecified after an event (R175). -/
opaque Config.freeBuf : Nat → List Byte

/-- What a host load of the unwritten register ARGk returns (93_implementation_defined.md U1). -/
opaque Config.freeArg : Nat → Nat → Word

/-- Which of the values a raced byte may show is the one a read sees, or stays in memory: draw number, reader, address (R311). -/
opaque Config.raceChoice : Nat → Nat → Nat → Nat

end Sys2Proof
end

