-- ==== Sys2Proof/Syntax.lean ====
section
/-! DEFINITION. The commands of the block (one constructor per row of the opcode table, R83), the fields of a command word (R81), the
registers of the window, the host's operations on the block (R20, R22), and the assembler lines and pseudo-commands (R90, R91). -/

namespace Sys2Proof

/-- The 21 commands of R83. Operands are not in the command word: they are in ARG0-ARG4 (R81, R92). -/
inductive Instr where
  | kfPermute | kfLoad | kfStore
  | spInit | spAbsorb | spPad | spSqueeze
  | seqConstruct | seqInit | seqAdd | seqDigest | seqDestroy
  | accConstruct | accInit | accAdd | accDigest | accDestroy
  | batConstruct | batCalculate | batSize | batDestroy
  deriving DecidableEq, Repr

/-- The fields of a command word (R81). -/
structure CmdFields where
  rsvd : BitVec 56
  unit : BitVec 4
  func : BitVec 4
  deriving DecidableEq, Repr

/-- The four digest widths (R3, R86). -/
inductive Width where
  | w224 | w256 | w384 | w512
  deriving DecidableEq, Repr

/-- The registers of the window (10_state.md, section 2). -/
inductive Reg where
  | cmd
  | arg (k : Fin 5)
  | status | result | seqWidth | accWidth | batWidth | rawWidth
  deriving DecidableEq, Repr

/-- What the outside world does to the block, one operation a step. Host accesses carry their bytes, first byte at the lowest address. -/
inductive HostOp where
  /-- A store to the register window, at an offset from REG_BASE. A 64-bit store to offset 0 issues a command (R22). -/
  | regStore (offset : Nat) (data : List Byte)
  /-- A load of `n` bytes from the register window. -/
  | regLoad (offset : Nat) (n : Nat)
  /-- A store at a host physical address: to the window where it falls there, else to host memory (R60, R70). -/
  | store (addr : Word) (data : List Byte)
  /-- A load of `n` bytes at a host physical address. -/
  | load (addr : Word) (n : Nat)
  /-- A command store during which another agent makes these writes to host memory (R73, R311). -/
  | issueRaced (cmd : Word) (writes : List (Word × Byte))
  /-- A command store during which reset is asserted (R301). -/
  | issueReset (cmd : Word)
  /-- Reset between two commands (R300). -/
  | reset
  deriving DecidableEq, Repr

/-- One line of the assembler of R90. -/
inductive AsmLine where
  /-- `MNEMONIC ARGk=value, …`: the ARG stores in the order written, then the command store. -/
  | command (i : Instr) (args : List (Fin 5 × Word))
  /-- A raw store of a value to CMD (95_test_vectors.md P5). -/
  | rawCmd (w : Word)
  /-- `LD reg -> name`. -/
  | ld (r : Reg)
  /-- `.data label @ address: bytes`: start contents of host memory, not a host operation. -/
  | data (addr : Word) (bytes : List Byte)
  deriving DecidableEq, Repr

/-- The pseudo-commands of R91. -/
inductive Pseudo where
  | kfApply (src dst : Word)
  | spFinal (src n blk dst : Word)
  | seqHash (src len dst : Word)
  | accHash (src len dst : Word)
  | batRun (ptrs lens n dst : Word)
  deriving DecidableEq, Repr

end Sys2Proof
end

