-- ==== Sys2Proof/WellFormed.lean ====
section
/-! DEFINITION. Well-formed terms: the fields of a command word (R81-R83) and the host's accesses (addresses are 64-bit, R61). -/

namespace Sys2Proof

/-- RSVD must be zero (R81). -/
def CmdFields.rsvdZero (f : CmdFields) : Bool := f.rsvd == 0

/-- UNIT values 0x5-0xF select no unit (R82). -/
def CmdFields.unitKnown (f : CmdFields) : Bool := decide (f.unit.toNat ≤ 4)

/-- The FUNC values that the opcode map gives each unit (R83). -/
def CmdFields.funcKnown (f : CmdFields) : Bool :=
  match f.unit.toNat with
  | 0 => [1, 2, 3].contains f.func.toNat
  | 1 => [0, 1, 2, 3].contains f.func.toNat
  | 2 => [0, 1, 2, 3, 15].contains f.func.toNat
  | 3 => [0, 1, 2, 3, 15].contains f.func.toNat
  | 4 => [0, 1, 2, 15].contains f.func.toNat
  | _ => false

/-- A legal command word's fields (R83, R84). -/
def CmdFields.wf (f : CmdFields) : Bool := f.rsvdZero && f.unitKnown && f.funcKnown

/-- A command has no operand in its word (R81), so every term of `Instr` is well-formed. -/
def Instr.wf (_ : Instr) : Bool := true

/-- A host access to physical addresses lies in the 64-bit address space (R61); window accesses are judged by the block itself (R32). -/
def HostOp.wf : HostOp → Bool
  | .store a data => decide (a.toNat + data.length ≤ 2 ^ 64)
  | .load a n => decide (a.toNat + n ≤ 2 ^ 64)
  | .regStore _ _ => true
  | .regLoad _ _ => true
  | .issueRaced _ _ => true
  | .issueReset _ => true
  | .reset => true

end Sys2Proof
end

