-- ==== Sys2Proof/Decode.lean ====
section
/-! DEFINITION. Byte order of register values (R11, R65), decoding of a command word (R80-R85), the encoder written from the same opcode map
(R83), the register offsets (10_state.md, section 2), and the encoding of assembler lines and pseudo-commands (R90, R91). -/

namespace Sys2Proof

/-- `LE64(b)`: the value of a byte sequence, byte 0 least significant (R11). -/
def leWord : List Byte → Word
  | [] => 0
  | b :: bs => BitVec.setWidth 64 b ||| (leWord bs <<< 8)

/-- `bytes64(v)`: eight bytes, least significant first (R11). -/
def bytes64 (v : Word) : List Byte :=
  (List.range 8).map fun i => BitVec.extractLsb' (8 * i) 8 v

/-- Why a word is no command: each is the block's ILLEGAL_COMMAND (R84). -/
inductive DecodeError where
  /-- Bits [63:8] are not zero. -/
  | reservedNotZero
  /-- UNIT selects no unit (R82). -/
  | noSuchUnit
  /-- The unit has no such function (R83). -/
  | noSuchFunction
  /-- Fewer than eight bytes: no command word at all. -/
  | shortWord
  deriving DecidableEq, Repr

/-- The fields of a word (R81). -/
def fieldsOf (w : Word) : CmdFields where
  rsvd := BitVec.extractLsb' 8 56 w
  unit := BitVec.extractLsb' 4 4 w
  func := BitVec.extractLsb' 0 4 w

/-- The word of given fields (R81): `OPC = UNIT*16 + FUNC` below RSVD. -/
def CmdFields.pack (f : CmdFields) : Word := (f.rsvd ++ f.unit) ++ f.func

/-- The opcode map read from the fields (R83, R84). -/
def decodeFields (f : CmdFields) : Except DecodeError Instr :=
  if f.rsvd ≠ 0 then .error .reservedNotZero
  else
    match f.unit.toNat, f.func.toNat with
    | 0, 1 => .ok .kfPermute
    | 0, 2 => .ok .kfLoad
    | 0, 3 => .ok .kfStore
    | 1, 0 => .ok .spInit
    | 1, 1 => .ok .spAbsorb
    | 1, 2 => .ok .spPad
    | 1, 3 => .ok .spSqueeze
    | 2, 0 => .ok .seqConstruct
    | 2, 1 => .ok .seqInit
    | 2, 2 => .ok .seqAdd
    | 2, 3 => .ok .seqDigest
    | 2, 15 => .ok .seqDestroy
    | 3, 0 => .ok .accConstruct
    | 3, 1 => .ok .accInit
    | 3, 2 => .ok .accAdd
    | 3, 3 => .ok .accDigest
    | 3, 15 => .ok .accDestroy
    | 4, 0 => .ok .batConstruct
    | 4, 1 => .ok .batCalculate
    | 4, 2 => .ok .batSize
    | 4, 15 => .ok .batDestroy
    | u, _ => if u ≤ 4 then .error .noSuchFunction else .error .noSuchUnit

/-- Decode the 64-bit value stored to CMD (R80, R84). -/
def decode (w : Word) : Except DecodeError Instr := decodeFields (fieldsOf w)

/-- Decode from bytes, little-endian (R65): eight bytes make one command word, and there is one length (R80). -/
def decodeBytes (bs : List Byte) : Except DecodeError (Instr × List Byte) :=
  if bs.length < 8 then .error .shortWord
  else
    match decode (leWord (bs.take 8)) with
    | .ok i => .ok (i, bs.drop 8)
    | .error e => .error e

/-- The UNIT of a command (R83). -/
def Instr.unit : Instr → BitVec 4
  | .kfPermute | .kfLoad | .kfStore => 0
  | .spInit | .spAbsorb | .spPad | .spSqueeze => 1
  | .seqConstruct | .seqInit | .seqAdd | .seqDigest | .seqDestroy => 2
  | .accConstruct | .accInit | .accAdd | .accDigest | .accDestroy => 3
  | .batConstruct | .batCalculate | .batSize | .batDestroy => 4

/-- The FUNC of a command (R83). -/
def Instr.func : Instr → BitVec 4
  | .kfPermute => 1
  | .kfLoad => 2
  | .kfStore => 3
  | .spInit => 0
  | .spAbsorb => 1
  | .spPad => 2
  | .spSqueeze => 3
  | .seqConstruct => 0
  | .seqInit => 1
  | .seqAdd => 2
  | .seqDigest => 3
  | .seqDestroy => 15
  | .accConstruct => 0
  | .accInit => 1
  | .accAdd => 2
  | .accDigest => 3
  | .accDestroy => 15
  | .batConstruct => 0
  | .batCalculate => 1
  | .batSize => 2
  | .batDestroy => 15

/-- The fields of a command (R81, R83). -/
def Instr.fields (i : Instr) : CmdFields := ⟨0, i.unit, i.func⟩

/-- The command word of a command (R83). -/
def encode (i : Instr) : Word := i.fields.pack

/-- The command word as the bytes of the host's store (R65). -/
def encodeBytes (i : Instr) : List Byte := bytes64 (encode i)

/-- What this decoder reads from a row's word, laid out as the hardware stores it: one little-endian 64-bit word (R80, R65). -/
def decodeTableWord (nbits w : Nat) : Option Instr :=
  match decodeBytes (bytes64 (BitVec.ofNat 64 (w % 2 ^ nbits))) with
  | .ok (i, _) => some i
  | .error _ => none

/-- The offset of a register in the window (10_state.md, section 2). -/
def Reg.offset : Reg → Nat
  | .cmd => 0x00
  | .arg k => 0x08 + 8 * k.val
  | .status => 0x30
  | .result => 0x38
  | .seqWidth => 0x40
  | .accWidth => 0x48
  | .batWidth => 0x50
  | .rawWidth => 0x58

/-- The register at an offset; none for the reserved offsets and for an offset that is not 8-byte aligned (R32). -/
def Reg.ofOffset : Nat → Option Reg
  | 0x00 => some .cmd
  | 0x08 => some (.arg 0)
  | 0x10 => some (.arg 1)
  | 0x18 => some (.arg 2)
  | 0x20 => some (.arg 3)
  | 0x28 => some (.arg 4)
  | 0x30 => some .status
  | 0x38 => some .result
  | 0x40 => some .seqWidth
  | 0x48 => some .accWidth
  | 0x50 => some .batWidth
  | 0x58 => some .rawWidth
  | _ => none

/-- REG_BASE, a multiple of 0x100 (R8). -/
def Platform.regBase (p : Platform) : Nat := p.regPage.toNat * 0x100

/-- A host store of a register value. -/
def regStoreOp (r : Reg) (v : Word) : HostOp := .regStore r.offset (bytes64 v)

/-- The host operations of an assembler line: ARG stores first, in the order written, then the CMD store (R90). -/
def AsmLine.ops : AsmLine → List HostOp
  | .command i args => args.map (fun kv => regStoreOp (.arg kv.1) kv.2) ++ [regStoreOp .cmd (encode i)]
  | .rawCmd w => [regStoreOp .cmd w]
  | .ld r => [.regLoad r.offset 8]
  | .data _ _ => []

/-- R90's encoding of a line: the list of its register stores as `(REG_BASE + offset, value)` pairs; a load stores nothing. -/
def AsmLine.stores (p : Platform) : AsmLine → List (Nat × Word)
  | .command i args =>
    args.map (fun kv => (p.regBase + (Reg.arg kv.1).offset, kv.2)) ++ [(p.regBase + Reg.cmd.offset, encode i)]
  | .rawCmd w => [(p.regBase + Reg.cmd.offset, w)]
  | .ld _ => []
  | .data _ _ => []

/-- The expansions of the pseudo-commands (R91). -/
def Pseudo.expand : Pseudo → List AsmLine
  | .kfApply src dst => [.command .kfLoad [(0, src)], .command .kfPermute [], .command .kfStore [(0, dst)]]
  | .spFinal src n blk dst =>
    [.command .spPad [(0, src), (1, n), (2, blk)], .command .spAbsorb [(0, blk)], .command .spSqueeze [(0, dst)]]
  | .seqHash src len dst =>
    [.command .seqInit [], .command .seqAdd [(0, src), (1, len)], .command .seqDigest [(0, dst)]]
  | .accHash src len dst =>
    [.command .accInit [], .command .accAdd [(0, src), (1, len)], .command .accDigest [(0, dst)]]
  | .batRun ptrs lens n dst => [.command .batCalculate [(0, ptrs), (1, n), (2, lens), (3, n), (4, dst)]]

/-- A program of assembler lines as the host's operations, in program order (R90). -/
def program (lines : List AsmLine) : List HostOp := lines.flatMap AsmLine.ops

end Sys2Proof
end

