-- ==== Sys2Proof/Machine/State.lean ====
section
/-! DEFINITION. The state of the block as plain data (10_state.md), the two stop types of the host's interface, and the state right after reset
(R300). Every field's rule is named at the field; INVENTORY.md lists them with their reset values. -/

namespace Sys2Proof.Machine

/-- The error codes of R271. The three codes 0x0D-0x0F and 0x14-0xFF have no name here: they are never written. -/
inductive ErrCode where
  | ok | illegalCommand | unsupportedWidth | notConstructed | alreadyConstructed | engineFailed
  | addAfterFinal | digestAfterFinal | listMismatch | stateInvalid | widthNotSet | padLength | range
  | busError | allocFailure | transferFailure | kernelFailure
  deriving DecidableEq, Repr

/-- The three reasons of the spec's own refusal mark (R285). A refusal in the spec's sense is no stop of this model: it sets the mark and ends the
command with no effect on the chip state (R287). -/
inductive Mark where
  | argUnwritten | operandOverlap | regAccessError
  deriving DecidableEq, Repr

/-- Lifecycle codes 0-4 of R28: what a SEQ or ACC engine reports. -/
inductive EngineState where
  | unconstructed | fresh | absorbing | finalized | failed
  deriving DecidableEq, Repr

/-- Lifecycle codes 0, 4, 5 of R28: what the BAT engine reports. -/
inductive BatState where
  | unconstructed | failed | ready
  deriving DecidableEq, Repr

/-- The RAW unit, shared by KF and SP (R33): RAW.S, RAW.SVALID, RAW.W. -/
structure RawUnit where
  lanes : Lanes
  svalid : Bool
  width : Option Width
  deriving DecidableEq, Repr

/-- A message session: the SEQ engine (R34) or the ACC engine (R35). Width `none` is the spec's width 0. -/
structure Engine where
  st : EngineState
  width : Option Width
  lanes : Lanes
  buf : List Byte
  deriving DecidableEq, Repr

/-- A batch lane (R37). `cur`, `rem`, `idx` are the naturals of R10; a cursor one past the last address is a value a word could not hold. -/
structure BatchLane where
  active : Bool
  final : Bool
  lanes : Lanes
  cur : Nat
  rem : Nat
  idx : Nat
  deriving DecidableEq, Repr

/-- The BAT engine (R36). -/
structure BatEngine where
  st : BatState
  width : Option Width
  lanes : List BatchLane
  deriving DecidableEq, Repr

/-- Host memory (R61): the listed bytes, addresses strictly rising, none equal to what an unlisted address reads as. -/
abbrev Memory := List Host.Cell

/-- The whole state: the registers of the window, the five units' state, host memory, and the model's own bookkeeping. -/
structure State where
  /-- CMD: the last command word stored (R22). -/
  cmd : Word
  /-- ARG0-ARG4 (R23). -/
  args : Vector Word 5
  /-- `argWritten[k]`: ARGk was stored since reset (R23, R42). -/
  argWritten : Vector Bool 5
  /-- STATUS.ERR (R25). -/
  err : Bool
  /-- STATUS.FAULTSEEN (R26). -/
  faultSeen : Bool
  /-- STATUS.ERRCODE (R27). -/
  errCode : ErrCode
  /-- RESULT (R30). -/
  result : Word
  /-- The RAW unit (R33). -/
  raw : RawUnit
  /-- The SEQ engine (R34). -/
  seq : Engine
  /-- The ACC engine's abstract state (R35). -/
  acc : Engine
  /-- The BAT engine (R36, R37). -/
  bat : BatEngine
  /-- Host memory (R61). -/
  mem : Memory
  /-- The open parameters of R8. -/
  platform : Platform
  /-- The refusal mark (R42, R285). -/
  mark : Option Mark
  /-- The environment's answers to the coming draws, first answer first; past the end the oracle of Config answers (R276). -/
  env : List EnvAnswer
  /-- How many free values were taken so far: the model's own counter. -/
  free : Nat
  /-- What other agents write to host memory while the current command runs (R311); empty between commands. -/
  race : List (Word × Byte)
  /-- The host's operations to come, in its program order (R72). -/
  pending : List HostOp
  /-- What the host's loads returned, newest first. -/
  loads : List (List Byte)
  deriving DecidableEq, Repr

/-- Why the machine stops with a fault. -/
inductive Fault where
  /-- Raised by the step for a pending host access that runs past the last of the 2^64 byte addresses (R61): no such access exists. Safe. -/
  | hostAccessPastMemory
  deriving DecidableEq, Repr

/-- Why an instruction is given no meaning. -/
inductive Refusal where
  /-- Raised by exec for an instruction with no meaning yet; no arm of exec raises it. Safe. -/
  | notModelled (mnemonic : String)
  deriving DecidableEq, Repr

/-- 25 zero lanes. -/
def zeroLanes : Lanes := Vector.replicate 25 0

/-- A batch lane at reset: inactive (R37), its other fields at zero (log entry 4). -/
def BatchLane.idle : BatchLane where
  active := false
  final := false
  lanes := zeroLanes
  cur := 0
  rem := 0
  idx := 0

/-- A SEQ or ACC engine at reset: UNCONSTRUCTED with width 0 (R34, R35); S and buf at zero and empty (log entry 4). -/
def Engine.reset : Engine where
  st := .unconstructed
  width := none
  lanes := zeroLanes
  buf := []

/-- A block with given parameters right after reset (R300). -/
def State.powerOn (p : Platform) : State where
  cmd := 0
  args := Vector.replicate 5 0
  argWritten := Vector.replicate 5 false
  err := false
  faultSeen := false
  errCode := .ok
  result := 0
  raw := { lanes := zeroLanes, svalid := false, width := none }
  seq := Engine.reset
  acc := Engine.reset
  bat := { st := .unconstructed, width := none, lanes := List.replicate p.laneCapacity BatchLane.idle }
  mem := []
  platform := p
  mark := none
  env := []
  free := 0
  race := []
  pending := []
  loads := []

/-- The machine right after reset: every field as R300 says, the open parameters of R8 uninterpreted. -/
def State.reset : State := State.powerOn Config.platform

end Sys2Proof.Machine
end

