-- ==== Sys2Proof/Machine/Ops.lean ====
section
/-! DEFINITION. The named operations of the machine: host memory (R12, R61, R69), how a command ends (R13, R270, R287), the draws of the
environment oracle (R276), unspecified bytes (R273), and the order of checks (R275). -/

namespace Sys2Proof.Machine

/-! ### Host memory -/

/-- What a byte of host memory that nothing has written reads as (log entry 9). -/
def Memory.unlisted : Byte := 0

/-- The byte at an address. -/
def Memory.read : Memory → Nat → Byte
  | [], _ => Memory.unlisted
  | c :: m, a => if c.1 = a then c.2 else Memory.read m a

/-- List a byte at an address, keeping the addresses rising. -/
def Memory.insert : Memory → Nat → Byte → Memory
  | [], a, v => [(a, v)]
  | c :: m, a, v =>
    if a < c.1 then (a, v) :: c :: m
    else if a = c.1 then (a, v) :: m
    else c :: Memory.insert m a v

/-- Drop the entry at an address. -/
def Memory.erase : Memory → Nat → Memory
  | [], _ => []
  | c :: m, a => if c.1 = a then m else c :: Memory.erase m a

/-- Write one byte. There are 2^64 byte addresses in all (R61): past them there is no byte to write. -/
def Memory.write (m : Memory) (a : Nat) (v : Byte) : Memory :=
  if a < 2 ^ 64 then
    if v = Memory.unlisted then Memory.erase m a else Memory.insert m a v
  else m

/-- Write a byte sequence at consecutive addresses. -/
def Memory.writeBytes (m : Memory) (a : Nat) : List Byte → Memory
  | [] => m
  | b :: bs => Memory.write (Memory.writeBytes m (a + 1) bs) a b

/-- The canonical form: addresses strictly rising and below 2^64, no entry equal to what an unlisted address reads as. -/
abbrev Memory.wf (m : Memory) : Prop :=
  m.Pairwise (fun c d => c.1 < d.1) ∧ ∀ c ∈ m, c.1 < 2 ^ 64 ∧ c.2 ≠ Memory.unlisted

/-- The `n` bytes at addresses `a .. a+n-1`. -/
def Memory.readBytes (m : Memory) (a n : Nat) : List Byte := (List.range' a n).map (Memory.read m)

end Sys2Proof.Machine

namespace Sys2Proof

/-- `HostMemAdmits(a)`: whether a host byte address exists for the block's accesses (R8, R61). -/
def Platform.admits (p : Platform) (a : Nat) : Bool :=
  decide (a < 2 ^ 64) && p.regions.any fun r => decide (r.base ≤ a) && decide (a < r.base + r.size)

/-- Every address of `a .. a+n-1` is admitted. -/
def Platform.admitsAll (p : Platform) (a n : Nat) : Bool := (List.range' a n).all p.admits

end Sys2Proof

namespace Sys2Proof.Machine

/-- The byte at an address as a command's read sees it. Without a race it is the byte in memory. Where another agent writes the byte while the
command runs, the read sees its old value or one of the new ones, independently at each read (R311). -/
def State.busByte (s : State) (reader a : Nat) : Byte :=
  match s.race.filter (fun c => c.1.toNat == a) with
  | [] => Memory.read s.mem a
  | c :: cs =>
    let seen := Memory.read s.mem a :: c.2 :: cs.map Prod.snd
    seen.getD (Config.raceChoice s.free reader a % seen.length) (Memory.read s.mem a)

/-- `MemRead(a, n)` (R12): the bytes, or none where an address is not admitted (R69). `reader` tells one read of a byte from another (R67, R311). -/
def State.memRead (s : State) (reader a n : Nat) : Option (List Byte) :=
  if s.platform.admitsAll a n then some ((List.range' a n).map (s.busByte reader)) else none

/-- `MemWrite(a, n, bs)` (R12): the state with the bytes written, or none where an address is not admitted (R69). -/
def State.memWrite (s : State) (a : Nat) (bs : List Byte) : Option State :=
  if s.platform.admitsAll a bs.length then some { s with mem := Memory.writeBytes s.mem a bs } else none

/-- The output region of a command that failed or was abandoned: every byte of it is unspecified, no byte outside it changes (R69, R273). -/
def State.freeRegion (s : State) (a n : Nat) : State :=
  { s with mem := Memory.writeBytes s.mem a ((List.range' a n).map (Config.freeByte s.free)), free := s.free + 1 }

/-! ### How a command ends -/

/-- `complete`: success (R13, R25, R27). -/
def State.complete (s : State) : State := { s with err := false, errCode := .ok }

/-- `raise Err(code)`, the block's one way to report an error (R13, R270): ERR and ERRCODE are written and FAULTSEEN set; nothing else is saved and no
control is transferred, so there is no return from it either (R277). -/
def State.raise (s : State) (c : ErrCode) : State := { s with err := true, errCode := c, faultSeen := true }

/-- `refuse Reason` (R287): the mark is set with that reason; no effect on the chip state, STATUS included. -/
def State.refuse (s : State) (m : Mark) : State := { s with mark := some m }

/-! ### The environment oracle -/

/-- The failure that an answer means at a draw point: only the failures R276 lists for the point can happen there. -/
def failureAt (p : DrawPoint) (a : EnvAnswer) : Option ErrCode :=
  match p, a with
  | .accAlloc, .allocFailure => some .allocFailure
  | .accInit, .transferFailure => some .transferFailure
  | .accAdd, .transferFailure => some .transferFailure
  | .accAdd, .kernelFailure => some .kernelFailure
  | .accDigest, .transferFailure => some .transferFailure
  | .accDigest, .kernelFailure => some .kernelFailure
  | .batAlloc, .allocFailure => some .allocFailure
  | .batTransfer, .transferFailure => some .transferFailure
  | .batKernel, .kernelFailure => some .kernelFailure
  | .batReadback, .transferFailure => some .transferFailure
  | _, _ => none

/-- `draw EnvFail(point)` (R13, R276): the failure, if one happens, and the state with the draw taken. -/
def State.draw (s : State) (p : DrawPoint) : Option ErrCode × State :=
  match s.env with
  | a :: rest => (failureAt p a, { s with env := rest })
  | [] => (failureAt p (Config.envAnswer s.free p), { s with free := s.free + 1 })

/-! ### The order of checks -/

/-- What the checks before a command's first state change say (R272, R275). -/
inductive Verdict where
  | pass
  | err (c : ErrCode)
  | refuse (m : Mark)
  deriving DecidableEq, Repr

/-- One check: the verdict if it fails. -/
def Verdict.when (bad : Bool) (v : Verdict) : Verdict := if bad then v else .pass

/-- The first failing check is the one reported (R275). -/
def Verdict.first : List Verdict → Verdict
  | [] => .pass
  | .pass :: vs => Verdict.first vs
  | .err c :: _ => .err c
  | .refuse m :: _ => .refuse m

/-- A command whose checks pass has its effect; one whose check fails changes STATUS only (R272), or the refusal mark only (R287). -/
def State.conclude (s : State) (v : Verdict) (effect : State) : State :=
  match v with
  | .pass => effect
  | .err c => s.raise c
  | .refuse m => s.refuse m

end Sys2Proof.Machine
end

