-- ==== Sys2Proof/Machine/Operands.lean ====
section
/-! DEFINITION. Every operand form: the ARG registers and which of them a command consumes (R92), the width operand (R86), address, length and count
operands (R87), operand regions, their range check (R68) and overlap (R310), and the descriptor tables (R88). -/

namespace Sys2Proof

/-- The ARG registers a command consumes (R92). -/
def Instr.operands : Instr → List (Fin 5)
  | .kfPermute | .seqInit | .accInit | .batSize | .seqDestroy | .accDestroy | .batDestroy => []
  | .kfLoad | .kfStore => [0]
  | .spInit | .seqConstruct | .accConstruct | .batConstruct => [0]
  | .spAbsorb => [0]
  | .spPad => [0, 1, 2]
  | .spSqueeze | .seqDigest | .accDigest => [0]
  | .seqAdd | .accAdd => [0, 1]
  | .batCalculate => [0, 1, 2, 3, 4]

/-- A width in bits (R86). -/
def Width.bits : Width → Nat
  | .w224 => 224
  | .w256 => 256
  | .w384 => 384
  | .w512 => 512

/-- The width a 64-bit operand names: the whole value is compared (R86). -/
def Width.ofWord (w : Word) : Option Width :=
  if w = 224 then some .w224
  else if w = 256 then some .w256
  else if w = 384 then some .w384
  else if w = 512 then some .w512
  else none

/-- A width register's value in bits; no width reads 0 (R31). -/
def widthBits : Option Width → Nat
  | none => 0
  | some w => w.bits

/-- `rate(d)` in bytes (R140). -/
def rate (d : Nat) : Nat := (1600 - 2 * d) / 8

/-- `dlen(d)` in bytes (R140). -/
def dlen (d : Nat) : Nat := d / 8

end Sys2Proof

namespace Sys2Proof.Machine

/-- `ARG[k]` (R13). -/
def State.arg (s : State) (k : Fin 5) : Word := s.args.get k

/-- `ARG[k]` as an address, a length or a count: unsigned, nothing scaled or extended (R87). -/
def State.argNat (s : State) (k : Fin 5) : Nat := (s.arg k).toNat

/-- Whether a command consumes an ARG register that was not stored since reset (R92). -/
def State.lacksArgs (s : State) (i : Instr) : Bool := i.operands.any fun k => !(s.argWritten.get k)

/-- The check made right after decode (R92, R275). -/
def State.argCheck (s : State) (i : Instr) : Verdict := .when (s.lacksArgs i) (.refuse .argUnwritten)

/-- `RangeOK(a, n)`, computed without wrap-around (R68). -/
def rangeOk (a n : Nat) : Bool := n == 0 || decide (a + n ≤ 2 ^ 64)

/-- Two regions share a byte (R310). -/
def overlaps (a n b m : Nat) : Bool := decide (0 < n) && decide (0 < m) && decide (a < b + m) && decide (b < a + n)

/-- The entries of a table of `n` little-endian 64-bit values (R88). -/
def tableEntries (bs : List Byte) (n : Nat) : List Nat :=
  (List.range n).map fun i => (leWord ((bs.drop (8 * i)).take 8)).toNat

/-- A message descriptor with its index in the input list (R88). -/
structure Job where
  idx : Nat
  ptr : Nat
  len : Nat
  deriving DecidableEq, Repr

/-- The descriptors of two tables, in input order. -/
def jobsOf (ptrs lens : List Nat) : List Job :=
  (List.range ptrs.length).map fun i => { idx := i, ptr := ptrs.getD i 0, len := lens.getD i 0 }

end Sys2Proof.Machine
end

