-- ==== Sys2Proof/Machine/Flags.lean ====
section
/-! DEFINITION. The STATUS register and its fields (R24-R29, R271), and the value every register of the window reads as (R22-R31). The block has
no arithmetic flags (R39). -/

namespace Sys2Proof.Machine

/-- The value of an error code (R271). -/
def ErrCode.code : ErrCode → BitVec 8
  | .ok => 0x00
  | .illegalCommand => 0x01
  | .unsupportedWidth => 0x02
  | .notConstructed => 0x03
  | .alreadyConstructed => 0x04
  | .engineFailed => 0x05
  | .addAfterFinal => 0x06
  | .digestAfterFinal => 0x07
  | .listMismatch => 0x08
  | .stateInvalid => 0x09
  | .widthNotSet => 0x0A
  | .padLength => 0x0B
  | .range => 0x0C
  | .busError => 0x10
  | .allocFailure => 0x11
  | .transferFailure => 0x12
  | .kernelFailure => 0x13

/-- The contract-violation class, codes 0x01-0x0C (R271, R272). -/
def ErrCode.isContract (c : ErrCode) : Bool := decide (1 ≤ c.code.toNat) && decide (c.code.toNat ≤ 0x0C)

/-- The resource-failure class, codes 0x10-0x13 (R271, R273). -/
def ErrCode.isResource (c : ErrCode) : Bool := decide (0x10 ≤ c.code.toNat) && decide (c.code.toNat ≤ 0x13)

/-- The lifecycle code of a SEQ or ACC engine (R28). -/
def EngineState.code : EngineState → BitVec 3
  | .unconstructed => 0
  | .fresh => 1
  | .absorbing => 2
  | .finalized => 3
  | .failed => 4

/-- The lifecycle code of the BAT engine (R28). -/
def BatState.code : BatState → BitVec 3
  | .unconstructed => 0
  | .failed => 4
  | .ready => 5

/-- A flag as a number. -/
def flag (b : Bool) : Nat := if b then 1 else 0

/-- STATUS (R24): every field at its place, every reserved bit zero. -/
def State.status (s : State) : Word :=
  BitVec.ofNat 64
    (flag s.err + 2 ^ 1 * flag s.faultSeen + 2 ^ 8 * s.errCode.code.toNat + 2 ^ 16 * s.seq.st.code.toNat
      + 2 ^ 20 * s.acc.st.code.toNat + 2 ^ 24 * s.bat.st.code.toNat + 2 ^ 28 * flag s.raw.svalid
      + 2 ^ 29 * flag s.raw.width.isSome)

/-- What a register reads as (R22-R31). An ARG register reads as the last value stored; for one not stored since reset see `State.regLoad`. -/
def State.regValue (s : State) : Reg → Word
  | .cmd => s.cmd
  | .arg k => s.arg k
  | .status => s.status
  | .result => s.result
  | .seqWidth => BitVec.ofNat 64 (widthBits s.seq.width)
  | .accWidth => BitVec.ofNat 64 (widthBits s.acc.width)
  | .batWidth => BitVec.ofNat 64 (widthBits s.bat.width)
  | .rawWidth => BitVec.ofNat 64 (widthBits s.raw.width)

/-- A host load of a register (R22-R24): reading has no effect, but a load of an ARG register that is unwritten returns any value. -/
def State.regLoad (s : State) (r : Reg) : Word × State :=
  match r with
  | .arg k => if s.argWritten.get k then (s.arg k, s) else (Config.freeArg s.free k.val, { s with free := s.free + 1 })
  | r => (s.regValue r, s)

end Sys2Proof.Machine
end

