-- ==== Sys2Proof/Machine/Permutation.lean ====
section
/-! DEFINITION. The permutation Keccak-f[1600] on plain 64-bit lanes (R100-R107) and the sponge functions every engine uses (R140-R147, R63, R64). -/

namespace Sys2Proof.Machine

/-! ### Lanes -/

/-- The state whose lane `k` is `f k`. -/
def tabulate (f : Nat → Word) : Lanes :=
  ⟨#[f 0, f 1, f 2, f 3, f 4, f 5, f 6, f 7, f 8, f 9, f 10, f 11, f 12, f 13, f 14, f 15, f 16, f 17, f 18, f 19,
    f 20, f 21, f 22, f 23, f 24], rfl⟩

/-- Lane `k` of a state, k < 25. -/
def laneK (A : Lanes) (k : Nat) : Word := A.toList.getD k 0

/-- `lane(x, y) = A[x + 5*y]`, indices modulo 5 (R10, R11). -/
def lane (A : Lanes) (x y : Nat) : Word := laneK A (x % 5 + 5 * (y % 5))

/-- `rotl64(v, n)`, 0 ≤ n < 64 (R10). -/
def rotl64 (v : Word) (n : Nat) : Word := if n = 0 then v else (v <<< n) ||| (v >>> (64 - n))

/-! ### The five steps -/

/-- Five values indexed by a column. -/
def columns (f : Nat → Word) : List Word := [f 0, f 1, f 2, f 3, f 4]

/-- `Cx[x]`, the parity of a column (R102). -/
def thetaC (A : Lanes) : List Word :=
  columns fun x => lane A x 0 ^^^ lane A x 1 ^^^ lane A x 2 ^^^ lane A x 3 ^^^ lane A x 4

/-- `Dx[x] = Cx[(x - 1) mod 5] ^ rotl64(Cx[(x + 1) mod 5], 1)` (R102). -/
def thetaD (A : Lanes) : List Word :=
  columns fun x => (thetaC A).getD ((x + 4) % 5) 0 ^^^ rotl64 ((thetaC A).getD ((x + 1) % 5) 0) 1

/-- θ (R102). -/
def theta (A : Lanes) : Lanes := tabulate fun k => lane A (k % 5) (k / 5) ^^^ (thetaD A).getD (k % 5) 0

/-- The rotation offsets (R103). -/
def RHO : List Nat :=
  [0, 1, 62, 28, 27, 36, 44, 6, 55, 20, 3, 10, 43, 25, 39, 41, 45, 15, 21, 8, 18, 2, 61, 56, 14]

/-- ρ (R103). -/
def rho (A : Lanes) : Lanes := tabulate fun k => rotl64 (laneK A k) (RHO.getD k 0)

/-- π, in the form `lane'(x, y) = lane((x + 3*y) mod 5, x)` (R104). -/
def piStep (A : Lanes) : Lanes := tabulate fun k => lane A (k % 5 + 3 * (k / 5)) (k % 5)

/-- χ (R105). -/
def chi (A : Lanes) : Lanes :=
  tabulate fun k => lane A (k % 5) (k / 5) ^^^ (~~~lane A (k % 5 + 1) (k / 5) &&& lane A (k % 5 + 2) (k / 5))

/-- The rows of R106's table: row `i` holds RC[i] and RC[i + 12]. -/
def rcTable : List (Word × Word) :=
  [(0x0000000000000001, 0x000000008000808B), (0x0000000000008082, 0x800000000000008B),
    (0x800000000000808A, 0x8000000000008089), (0x8000000080008000, 0x8000000000008003),
    (0x000000000000808B, 0x8000000000008002), (0x0000000080000001, 0x8000000000000080),
    (0x8000000080008081, 0x000000000000800A), (0x8000000000008009, 0x800000008000000A),
    (0x000000000000008A, 0x8000000080008081), (0x0000000000000088, 0x8000000000008080),
    (0x0000000080008009, 0x0000000080000001), (0x000000008000000A, 0x8000000080008008)]

/-- The round constants: the table's left column, then its right column (R106). -/
def RC : List Word := rcTable.map Prod.fst ++ rcTable.map Prod.snd

/-- ι (R106). -/
def iota (A : Lanes) (i : Nat) : Lanes := tabulate fun k => if k = 0 then laneK A 0 ^^^ RC.getD i 0 else laneK A k

/-- One round (R101). -/
def keccakRound (A : Lanes) (i : Nat) : Lanes := iota (chi (piStep (rho (theta A)))) i

/-- `KF(A)`: 24 rounds, round index 0 first (R101). -/
def keccakF (A : Lanes) : Lanes := (List.range 24).foldl keccakRound A

/-! ### Serialization -/

/-- `state_to_bytes` (R64). -/
def stateToBytes (S : Lanes) : List Byte := S.toList.flatMap bytes64

/-- `bytes_to_state` (R64). -/
def bytesToState (b : List Byte) : Lanes := tabulate fun k => leWord ((b.drop (8 * k)).take 8)

/-! ### The sponge functions -/

/-- The XOR of a block of `r` bytes into the leading lanes (R63, R142). -/
def xorBlock (r : Nat) (S : Lanes) (blk : List Byte) : Lanes :=
  tabulate fun k => if k < r / 8 then laneK S k ^^^ leWord ((blk.drop (8 * k)).take 8) else laneK S k

/-- `absorbBlock(S, blk)` for a block of `r` bytes (R142). -/
def absorbBlock (r : Nat) (S : Lanes) (blk : List Byte) : Lanes := keccakF (xorBlock r S blk)

/-- `pad(m)` to a block of `r` bytes (R143). -/
def pad (r : Nat) (m : List Byte) : List Byte :=
  ((m ++ List.replicate (r - m.length) 0).modify m.length (· ^^^ 0x06)).modify (r - 1) (· ^^^ 0x80)

/-- `squeeze(S, d)` (R145). -/
def squeeze (S : Lanes) (d : Nat) : List Byte := (stateToBytes S).take (dlen d)

/-- Absorb the first `q` blocks of `r` bytes of `t`: the state reached and the bytes left over (R146, R173). -/
def absorbBlocks (r : Nat) : Nat → Lanes → List Byte → Lanes × List Byte
  | 0, S, t => (S, t)
  | q + 1, S, t => absorbBlocks r q (absorbBlock r S (t.take r)) (t.drop r)

/-- Absorb every full block of `t` (the loop of R173): floor(|t| / r) blocks, fewer than `r` bytes left over. -/
def absorbFull (r : Nat) (S : Lanes) (t : List Byte) : Lanes × List Byte := absorbBlocks r (t.length / r) S t

/-- The reference hash `SHA3_d(M)` (R146). -/
def sha3 (d : Nat) (M : List Byte) : List Byte :=
  let full := absorbFull (rate d) zeroLanes M
  squeeze (absorbBlock (rate d) full.1 (pad (rate d) full.2)) d

end Sys2Proof.Machine
end

