-- ==== Sys2Proof/Machine/Stream.lean ====
section
/-! DEFINITION. The streaming contract shared by the SEQ and ACC engines (R170-R175, R200): checks and effects over a chosen engine; the ACC engine's
draws of the oracle (R276) are the one difference. In every rule `d = W`, `r = rate(d)`. -/

namespace Sys2Proof.Machine

/-- Which of the two streaming engines a command addresses. -/
inductive EngineSel where
  | seq | acc
  deriving DecidableEq, Repr

/-- The engine's state. -/
def State.engine (s : State) : EngineSel → Engine
  | .seq => s.seq
  | .acc => s.acc

/-- Write the engine's state. -/
def State.setEngine (s : State) (e : EngineSel) (x : Engine) : State :=
  match e with
  | .seq => { s with seq := x }
  | .acc => { s with acc := x }

/-- `rate(d)` of the engine's width. -/
def Engine.rate (x : Engine) : Nat := Sys2Proof.rate (widthBits x.width)

/-- `dlen(d)` of the engine's width. -/
def Engine.dlen (x : Engine) : Nat := Sys2Proof.dlen (widthBits x.width)

/-- Take a draw if the engine has that draw point (R276: SEQ commands have none). -/
def State.drawIf (s : State) (p : Option DrawPoint) : Option ErrCode × State :=
  match p with
  | none => (none, s)
  | some p => s.draw p

/-- A resource failure after construction: the engine enters FAILED and keeps its width (R273, R31). -/
def State.engineFails (s : State) (e : EngineSel) (c : ErrCode) : State :=
  (s.setEngine e { s.engine e with st := .failed }).raise c

/-! ### CONSTRUCT (R171, R202) -/

/-- Checks of a CONSTRUCT command. -/
def checksConstruct (e : EngineSel) (i : Instr) (s : State) : Verdict :=
  .first [s.argCheck i, .when ((s.engine e).st != .unconstructed) (.err .alreadyConstructed),
    .when (Width.ofWord (s.arg 0)).isNone (.err .unsupportedWidth)]

/-- Effect of a CONSTRUCT command; on an allocation failure the engine stays UNCONSTRUCTED (R202, R273). -/
def effectConstruct (e : EngineSel) (p : Option DrawPoint) (s : State) : State :=
  match s.drawIf p with
  | (some c, t) => t.raise c
  | (none, t) =>
    (t.setEngine e { st := .fresh, width := Width.ofWord (s.arg 0), lanes := zeroLanes, buf := [] }).complete

/-! ### INIT (R172, R203) -/

/-- Checks of an INIT command. -/
def checksInit (e : EngineSel) (i : Instr) (s : State) : Verdict :=
  .first [s.argCheck i, .when ((s.engine e).st == .unconstructed) (.err .notConstructed),
    .when ((s.engine e).st == .failed) (.err .engineFailed)]

/-- Effect of an INIT command. -/
def effectInit (e : EngineSel) (p : Option DrawPoint) (s : State) : State :=
  match s.drawIf p with
  | (some c, t) => t.engineFails e c
  | (none, t) =>
    (t.setEngine e { st := .fresh, width := (s.engine e).width, lanes := zeroLanes, buf := [] }).complete

/-! ### ADD (R173, R204) -/

/-- Checks of an ADD command. -/
def checksAdd (e : EngineSel) (i : Instr) (s : State) : Verdict :=
  .first [s.argCheck i, .when ((s.engine e).st == .unconstructed) (.err .notConstructed),
    .when ((s.engine e).st == .failed) (.err .engineFailed), .when ((s.engine e).st == .finalized) (.err .addAfterFinal),
    .when (!rangeOk (s.argNat 0) (s.argNat 1)) (.err .range)]

/-- Effect of an ADD command: the message bytes join the buffer, every full block is absorbed, the tail stays in the buffer. A failed draw leaves
the blocks absorbed and the buffer unwritten, as the order of R204's steps has it. -/
def effectAdd (e : EngineSel) (p : Option DrawPoint) (s : State) : State :=
  match s.memRead 0 (s.argNat 0) (s.argNat 1) with
  | none => s.engineFails e .busError
  | some data =>
    let x := s.engine e
    let full := absorbFull x.rate x.lanes (x.buf ++ data)
    match (s.setEngine e { x with lanes := full.1 }).drawIf p with
    | (some c, t) => t.engineFails e c
    | (none, t) => (t.setEngine e { st := .absorbing, width := x.width, lanes := full.1, buf := full.2 }).complete

/-! ### DIGEST (R174, R205) -/

/-- Checks of a DIGEST command. -/
def checksDigest (e : EngineSel) (i : Instr) (s : State) : Verdict :=
  .first [s.argCheck i, .when ((s.engine e).st == .unconstructed) (.err .notConstructed),
    .when ((s.engine e).st == .failed) (.err .engineFailed), .when ((s.engine e).st == .finalized) (.err .digestAfterFinal),
    .when (!rangeOk (s.argNat 0) (s.engine e).dlen) (.err .range)]

/-- Effect of a DIGEST command: pad and absorb the buffer, squeeze, write the digest. -/
def effectDigest (e : EngineSel) (p : Option DrawPoint) (s : State) : State :=
  let x := s.engine e
  let final := absorbBlock x.rate x.lanes (pad x.rate x.buf)
  match (s.setEngine e { x with lanes := final }).drawIf p with
  | (some c, t) => (t.freeRegion (s.argNat 0) x.dlen).engineFails e c
  | (none, t) =>
    match t.memWrite (s.argNat 0) (squeeze final (widthBits x.width)) with
    | none => (t.freeRegion (s.argNat 0) x.dlen).engineFails e .busError
    | some u => (u.setEngine e { st := .finalized, width := x.width, lanes := final, buf := [] }).complete

/-! ### DESTROY (R175, R206) -/

/-- Checks of a DESTROY command. -/
def checksDestroy (e : EngineSel) (i : Instr) (s : State) : Verdict :=
  .first [s.argCheck i, .when ((s.engine e).st == .unconstructed) (.err .notConstructed)]

/-- Effect of a DESTROY command: S and buf become unspecified (R175). -/
def effectDestroy (e : EngineSel) (s : State) : State :=
  ({ s with free := s.free + 1 }.setEngine e
    { st := .unconstructed, width := none, lanes := Config.freeLanes s.free, buf := Config.freeBuf s.free }).complete

end Sys2Proof.Machine
end

