-- ==== Sys2Proof/Machine/Acc.lean ====
section
/-! DEFINITION. The ACC commands: ACC_CONSTRUCT, ACC_INIT, ACC_ADD, ACC_DIGEST, ACC_DESTROY (R202-R206). They behave as the SEQ commands but for the draws of R276 (R200); ring and device copy are internal (R201). -/

namespace Sys2Proof.Machine

/-- ACC_CONSTRUCT (R202). -/
def execAccConstruct (s : State) : Host.Outcome State Fault Refusal :=
  .next (s.conclude (checksConstruct .acc .accConstruct s) (effectConstruct .acc (some .accAlloc) s))

/-- ACC_INIT (R203). -/
def execAccInit (s : State) : Host.Outcome State Fault Refusal :=
  .next (s.conclude (checksInit .acc .accInit s) (effectInit .acc (some .accInit) s))

/-- ACC_ADD (R204). -/
def execAccAdd (s : State) : Host.Outcome State Fault Refusal :=
  .next (s.conclude (checksAdd .acc .accAdd s) (effectAdd .acc (some .accAdd) s))

/-- ACC_DIGEST (R205). -/
def execAccDigest (s : State) : Host.Outcome State Fault Refusal :=
  .next (s.conclude (checksDigest .acc .accDigest s) (effectDigest .acc (some .accDigest) s))

/-- ACC_DESTROY (R206). -/
def execAccDestroy (s : State) : Host.Outcome State Fault Refusal :=
  .next (s.conclude (checksDestroy .acc .accDestroy s) (effectDestroy .acc s))

end Sys2Proof.Machine
end

