-- ==== Sys2Proof/Machine/Bat.lean ====
section
/-! DEFINITION. The BAT commands: BAT_CONSTRUCT, BAT_CALCULATE, BAT_SIZE, BAT_DESTROY (R230-R247), with the lane scheduler of BAT_CALCULATE
(R233-R240) step by step. In every rule `d = BAT.W`, `r = rate(d)`, `dl = dlen(d)`. -/

namespace Sys2Proof.Machine

/-- `rate(d)` of the engine's width. -/
def BatEngine.rate (b : BatEngine) : Nat := Sys2Proof.rate (widthBits b.width)

/-- `dlen(d)` of the engine's width. -/
def BatEngine.dlen (b : BatEngine) : Nat := Sys2Proof.dlen (widthBits b.width)

/-- The lane freed: inactive, its other fields unread from now on (R37). -/
def BatchLane.free (l : BatchLane) : BatchLane := { l with active := false }

/-- Write the lane array. -/
def State.setLanes (s : State) (ls : List BatchLane) : State :=
  { s with bat := { st := s.bat.st, width := s.bat.width, lanes := ls } }

/-! ### BAT_CONSTRUCT (R231) -/

/-- The checks of BAT_CONSTRUCT, in order. -/
def checksBatConstruct (s : State) : Verdict :=
  .first [s.argCheck .batConstruct, .when (s.bat.st != .unconstructed) (.err .alreadyConstructed),
    .when (Width.ofWord (s.arg 0)).isNone (.err .unsupportedWidth)]

/-- The effect of BAT_CONSTRUCT; on an allocation failure the engine stays UNCONSTRUCTED. -/
def effectBatConstruct (s : State) : State :=
  match s.draw .batAlloc with
  | (some c, t) => t.raise c
  | (none, t) =>
    { t with bat := { st := .ready, width := Width.ofWord (s.arg 0), lanes := s.bat.lanes.map BatchLane.free } }.complete

/-- BAT_CONSTRUCT (R231). -/
def execBatConstruct (s : State) : Host.Outcome State Fault Refusal :=
  .next (s.conclude (checksBatConstruct s) (effectBatConstruct s))

/-! ### The lane scheduler -/

/-- A lane as a message enters it (R235). -/
def BatchLane.assign (job : Job) : BatchLane where
  active := true
  final := false
  lanes := zeroLanes
  cur := job.ptr
  rem := job.len
  idx := job.idx

/-- `refill()`: each free lane, lowest index first, takes the first message of the backlog; an active lane is not touched (R235). -/
def refill : List BatchLane → List Job → List BatchLane × List Job
  | [], q => ([], q)
  | l :: ls, q =>
    if l.active then
      let rest := refill ls q
      (l :: rest.1, rest.2)
    else
      match q with
      | [] => (l :: ls, [])
      | job :: q =>
        let rest := refill ls q
        (BatchLane.assign job :: rest.1, rest.2)

/-- One lane's gather: the block it stages and the lane with its cursor moved, or none on a bus error (R236). -/
def gatherLane (s : State) (r reader : Nat) (l : BatchLane) : Option (BatchLane × List Byte) :=
  if l.active then
    if r ≤ l.rem then
      match s.memRead reader l.cur r with
      | none => none
      | some blk => some ({ l with cur := l.cur + r, rem := l.rem - r }, blk)
    else
      match s.memRead reader l.cur l.rem with
      | none => none
      | some m => some ({ l with cur := l.cur + l.rem, rem := 0, final := true }, pad r m)
  else some (l, [])

/-- `gather()` over the lanes from a lane number on (R236). Readers 0 and 1 are the table reads; lane `j` is reader `j + 2`. -/
def gather (s : State) (r : Nat) : Nat → List BatchLane → Option (List (BatchLane × List Byte))
  | _, [] => some []
  | j, l :: ls =>
    match gatherLane s r (j + 2) l, gather s r (j + 1) ls with
    | some staged, some rest => some (staged :: rest)
    | _, _ => none

/-- The kernel's work on one lane slot: `absorbBlock` where the lane is active; inactive lanes are not touched (R238, R250). -/
def kernelLane (r : Nat) (staged : BatchLane × List Byte) : BatchLane :=
  if staged.1.active then { staged.1 with lanes := absorbBlock r staged.1.lanes staged.2 } else staged.1

/-- `retire()`: each active lane whose last block is absorbed has its digest written at its message's index and is freed (R239). DESIGN CHOICE (log entry
19): the lanes of one iteration retire in ascending order, an order R239 leaves unspecified; where two of them would fail, it decides the code reported. -/
def retire (dst d : Nat) : List BatchLane → State → Except (ErrCode × State) (List BatchLane × State)
  | [], s => .ok ([], s)
  | l :: ls, s =>
    if l.active && l.final then
      match s.draw .batReadback with
      | (some c, t) => .error (c, t)
      | (none, t) =>
        match t.memWrite (dst + l.idx * dlen d) (squeeze l.lanes d) with
        | none => .error (.busError, t)
        | some u =>
          match retire dst d ls u with
          | .error e => .error e
          | .ok (ls', v) => .ok (l.free :: ls', v)
    else
      match retire dst d ls s with
      | .error e => .error e
      | .ok (ls', t) => .ok (l :: ls', t)

/-- One iteration: gather, transfer, kernel, retire, in that order (R232, R240). -/
def batIteration (dst d : Nat) (s : State) : Except (ErrCode × State) State :=
  match gather s (rate d) 0 s.bat.lanes with
  | none => .error (.busError, s)
  | some staged =>
    match ({ s with free := s.free + 1 }).draw .batTransfer with
    | (some c, t) => .error (c, t)
    | (none, t) =>
      match t.draw .batKernel with
      | (some c, u) => .error (c, u)
      | (none, u) =>
        match retire dst d (staged.map (kernelLane (rate d))) u with
        | .error e => .error e
        | .ok (ls, v) => .ok (v.setLanes ls)

/-- The iterations a message of `len` bytes needs in its lane (R249). -/
def blocksOf (r len : Nat) : Nat := len / r + 1

/-- A bound on the iterations left: the blocks still to gather (R249, R315). -/
def workLeft (r : Nat) (ls : List BatchLane) (q : List Job) : Nat :=
  ((ls.filter fun l => l.active).map fun l => blocksOf r l.rem).sum + (q.map fun job => blocksOf r job.len).sum

/-- Some lane is active. -/
def anyActive (ls : List BatchLane) : Bool := ls.any fun l => l.active

/-- The loop of R232: iterate and refill while any lane is active. The fuel is never what ends it: `workLeft` falls in every iteration. -/
def batLoop (dst d : Nat) : Nat → List Job → State → Except (ErrCode × State) State
  | 0, _, s => .ok s
  | fuel + 1, q, s =>
    if anyActive s.bat.lanes then
      match batIteration dst d s with
      | .error e => .error e
      | .ok t =>
        let filled := refill t.bat.lanes q
        batLoop dst d fuel filled.2 (t.setLanes filled.1)
    else .ok s

/-- A resource failure or bus error during BAT_CALCULATE: the engine enters FAILED, every lane becomes inactive, the whole output region is
unspecified (R245). -/
def State.batFails (s : State) (dst n : Nat) (c : ErrCode) : State :=
  let t := s.freeRegion dst n
  { t with bat := { st := .failed, width := s.bat.width, lanes := s.bat.lanes.map BatchLane.free } }.raise c

/-- The schedule of a call on its messages: initial refill, then the loop (R232, R235). -/
def batSchedule (dst d : Nat) (jobs : List Job) (s : State) : Except (ErrCode × State) State :=
  let filled := refill s.bat.lanes jobs
  batLoop dst d (workLeft (rate d) filled.1 filled.2) filled.2 (s.setLanes filled.1)

/-! ### BAT_CALCULATE (R232-R245) -/

/-- The checks of BAT_CALCULATE before its table read, in order (R232). -/
def checksBatCalculate (s : State) : Verdict :=
  .first [s.argCheck .batCalculate, .when (s.bat.st == .unconstructed) (.err .notConstructed),
    .when (s.bat.st == .failed) (.err .engineFailed), .when (s.arg 1 != s.arg 3) (.err .listMismatch),
    .when (!(rangeOk (s.argNat 0) (8 * s.argNat 1) && rangeOk (s.argNat 2) (8 * s.argNat 1)
      && rangeOk (s.argNat 4) (s.argNat 1 * s.bat.dlen))) (.err .range)]

/-- The checks after the tables are read and before any message byte is (R234, R310). -/
def checksMessages (s : State) (jobs : List Job) : Verdict :=
  let out := s.argNat 1 * s.bat.dlen
  .first [.when (jobs.any fun job => !rangeOk job.ptr job.len) (.err .range),
    .when (overlaps (s.argNat 4) out (s.argNat 0) (8 * s.argNat 1) || overlaps (s.argNat 4) out (s.argNat 2) (8 * s.argNat 1)
      || jobs.any fun job => overlaps (s.argNat 4) out job.ptr job.len) (.refuse .operandOverlap)]

/-- The messages of a call: both tables read completely (R88, R233), or none on a bus error. -/
def readJobs (s : State) : Option (List Job) :=
  match s.memRead 0 (s.argNat 0) (8 * s.argNat 1), s.memRead 1 (s.argNat 2) (8 * s.argNat 1) with
  | some ps, some ls => some (jobsOf (tableEntries ps (s.argNat 1)) (tableEntries ls (s.argNat 1)))
  | _, _ => none

/-- The checks made after the table read, on the tables as they stand when the command is issued: a race does not change them (R234, R311). -/
def lateChecksBatCalculate (s : State) : Verdict :=
  match readJobs { s with race := [] } with
  | some jobs => checksMessages s jobs
  | none => .pass

/-- One run of a call: `.ok` with every digest written, `.error` with the state of a call that ended otherwise, by a check on its messages or by a resource
failure. An empty list reads no table, writes nothing and draws no failure (R241). -/
def batRun (s : State) : Except State State :=
  let n := s.argNat 1
  let dst := s.argNat 4
  if n = 0 then .ok s
  else
    match readJobs s with
    | none => .error (s.batFails dst (n * s.bat.dlen) .busError)
    | some jobs =>
      match checksMessages s jobs with
      | .err c => .error (s.raise c)
      | .refuse m => .error (s.refuse m)
      | .pass =>
        match batSchedule dst (widthBits s.bat.width) jobs s with
        | .error (c, t) => .error (t.batFails dst (n * s.bat.dlen) c)
        | .ok t => .ok t

/-- The effect of BAT_CALCULATE. Its STATUS result, its lifecycle and its refusal are those of the run without a race (R311); a race shows in the bytes it
reads. DESIGN CHOICE (log entry 8): where the raced values alone would have ended the call (a descriptor out of range, say) its output region is unspecified. -/
def effectBatCalculate (s : State) : State :=
  match s.race with
  | [] =>
    match batRun s with
    | .ok t => t.complete
    | .error t => t
  | _ :: _ =>
    match batRun { s with race := [] }, batRun s with
    | .ok _, .ok t => t.complete
    | .ok u, .error _ => { (u.freeRegion (s.argNat 4) (s.argNat 1 * s.bat.dlen)).complete with race := s.race }
    | .error u, _ => { u with race := s.race }

/-- BAT_CALCULATE (R232). -/
def execBatCalculate (s : State) : Host.Outcome State Fault Refusal :=
  .next (s.conclude (checksBatCalculate s) (effectBatCalculate s))

/-! ### BAT_SIZE (R246) -/

/-- The checks of BAT_SIZE, in order. -/
def checksBatSize (s : State) : Verdict :=
  .first [s.argCheck .batSize, .when (s.bat.st == .unconstructed) (.err .notConstructed),
    .when (s.bat.st == .failed) (.err .engineFailed)]

/-- The effect of BAT_SIZE: RESULT is written with C. -/
def effectBatSize (s : State) : State :=
  { s with result := BitVec.ofNat 64 s.platform.laneCapacity }.complete

/-- BAT_SIZE (R246). -/
def execBatSize (s : State) : Host.Outcome State Fault Refusal :=
  .next (s.conclude (checksBatSize s) (effectBatSize s))

/-! ### BAT_DESTROY (R247) -/

/-- The checks of BAT_DESTROY, in order. -/
def checksBatDestroy (s : State) : Verdict :=
  .first [s.argCheck .batDestroy, .when (s.bat.st == .unconstructed) (.err .notConstructed)]

/-- The effect of BAT_DESTROY: the lane array is released, so no lane is active. -/
def effectBatDestroy (s : State) : State :=
  { s with bat := { st := .unconstructed, width := none, lanes := s.bat.lanes.map BatchLane.free } }.complete

/-- BAT_DESTROY (R247). -/
def execBatDestroy (s : State) : Host.Outcome State Fault Refusal :=
  .next (s.conclude (checksBatDestroy s) (effectBatDestroy s))

end Sys2Proof.Machine
end

