-- ==== Sys2Proof/Machine/Seq.lean ====
section
/-! DEFINITION. The SEQ commands: SEQ_CONSTRUCT, SEQ_INIT, SEQ_ADD, SEQ_DIGEST, SEQ_DESTROY (R171-R175). None has a draw point (R276). -/

namespace Sys2Proof.Machine

/-- SEQ_CONSTRUCT (R171). -/
def execSeqConstruct (s : State) : Host.Outcome State Fault Refusal :=
  .next (s.conclude (checksConstruct .seq .seqConstruct s) (effectConstruct .seq none s))

/-- SEQ_INIT (R172). -/
def execSeqInit (s : State) : Host.Outcome State Fault Refusal :=
  .next (s.conclude (checksInit .seq .seqInit s) (effectInit .seq none s))

/-- SEQ_ADD (R173). -/
def execSeqAdd (s : State) : Host.Outcome State Fault Refusal :=
  .next (s.conclude (checksAdd .seq .seqAdd s) (effectAdd .seq none s))

/-- SEQ_DIGEST (R174). -/
def execSeqDigest (s : State) : Host.Outcome State Fault Refusal :=
  .next (s.conclude (checksDigest .seq .seqDigest s) (effectDigest .seq none s))

/-- SEQ_DESTROY (R175). -/
def execSeqDestroy (s : State) : Host.Outcome State Fault Refusal :=
  .next (s.conclude (checksDestroy .seq .seqDestroy s) (effectDestroy .seq s))

end Sys2Proof.Machine
end

