-- ==== Sys2Proof/Machine/Kf.lean ====
section
/-! DEFINITION. The KF commands on the RAW unit: KF_PERMUTE, KF_LOAD, KF_STORE (R120-R122). -/

namespace Sys2Proof.Machine

/-- A bus error of a KF or SP command: RAW.SVALID is cleared and RAW.W kept (R273); RAW.S is then unspecified (93_implementation_defined.md U2). -/
def State.rawBusError (s : State) : State :=
  { s with
    raw := { lanes := Config.freeLanes s.free, svalid := false, width := s.raw.width }
    free := s.free + 1 }.raise .busError

/-- The checks of KF_PERMUTE, in order (R120). -/
def checksKfPermute (s : State) : Verdict :=
  .first [s.argCheck .kfPermute, .when (!s.raw.svalid) (.err .stateInvalid)]

/-- The effect of KF_PERMUTE (R120). -/
def effectKfPermute (s : State) : State :=
  { s with raw := { lanes := keccakF s.raw.lanes, svalid := s.raw.svalid, width := s.raw.width } }.complete

/-- KF_PERMUTE (R120). -/
def execKfPermute (s : State) : Host.Outcome State Fault Refusal :=
  .next (s.conclude (checksKfPermute s) (effectKfPermute s))

/-- The checks of KF_LOAD, in order (R121). -/
def checksKfLoad (s : State) : Verdict :=
  .first [s.argCheck .kfLoad, .when (!rangeOk (s.argNat 0) 200) (.err .range)]

/-- The effect of KF_LOAD (R121). -/
def effectKfLoad (s : State) : State :=
  match s.memRead 0 (s.argNat 0) 200 with
  | none => s.rawBusError
  | some b => { s with raw := { lanes := bytesToState b, svalid := true, width := s.raw.width } }.complete

/-- KF_LOAD (R121). -/
def execKfLoad (s : State) : Host.Outcome State Fault Refusal :=
  .next (s.conclude (checksKfLoad s) (effectKfLoad s))

/-- The checks of KF_STORE, in order (R122). -/
def checksKfStore (s : State) : Verdict :=
  .first [s.argCheck .kfStore, .when (!s.raw.svalid) (.err .stateInvalid), .when (!rangeOk (s.argNat 0) 200) (.err .range)]

/-- The effect of KF_STORE (R122). -/
def effectKfStore (s : State) : State :=
  match s.memWrite (s.argNat 0) (stateToBytes s.raw.lanes) with
  | none => (s.freeRegion (s.argNat 0) 200).rawBusError
  | some t => t.complete

/-- KF_STORE (R122). -/
def execKfStore (s : State) : Host.Outcome State Fault Refusal :=
  .next (s.conclude (checksKfStore s) (effectKfStore s))

end Sys2Proof.Machine
end

