-- ==== Sys2Proof/Machine/Sp.lean ====
section
/-! DEFINITION. The SP commands on the RAW unit: SP_INIT, SP_ABSORB, SP_PAD, SP_SQUEEZE (R150-R153). In each, `d = RAW.W`. -/

namespace Sys2Proof.Machine

/-- `rate(d)` of the RAW unit's width. -/
def RawUnit.rate (u : RawUnit) : Nat := Sys2Proof.rate (widthBits u.width)

/-- `dlen(d)` of the RAW unit's width. -/
def RawUnit.dlen (u : RawUnit) : Nat := Sys2Proof.dlen (widthBits u.width)

/-- The checks of SP_INIT, in order (R150). -/
def checksSpInit (s : State) : Verdict :=
  .first [s.argCheck .spInit, .when (Width.ofWord (s.arg 0)).isNone (.err .unsupportedWidth)]

/-- The effect of SP_INIT (R150). -/
def effectSpInit (s : State) : State :=
  { s with raw := { lanes := zeroLanes, svalid := true, width := Width.ofWord (s.arg 0) } }.complete

/-- SP_INIT (R150). -/
def execSpInit (s : State) : Host.Outcome State Fault Refusal :=
  .next (s.conclude (checksSpInit s) (effectSpInit s))

/-- The checks of SP_ABSORB, in order (R151). -/
def checksSpAbsorb (s : State) : Verdict :=
  .first [s.argCheck .spAbsorb, .when (!s.raw.svalid) (.err .stateInvalid), .when s.raw.width.isNone (.err .widthNotSet),
    .when (!rangeOk (s.argNat 0) s.raw.rate) (.err .range)]

/-- The effect of SP_ABSORB (R151). -/
def effectSpAbsorb (s : State) : State :=
  match s.memRead 0 (s.argNat 0) s.raw.rate with
  | none => s.rawBusError
  | some blk =>
    { s with raw := { lanes := absorbBlock s.raw.rate s.raw.lanes blk, svalid := s.raw.svalid, width := s.raw.width } }.complete

/-- SP_ABSORB (R151). -/
def execSpAbsorb (s : State) : Host.Outcome State Fault Refusal :=
  .next (s.conclude (checksSpAbsorb s) (effectSpAbsorb s))

/-- The checks of SP_PAD, in order (R152); the overlap refusal comes after the range checks (R310). -/
def checksSpPad (s : State) : Verdict :=
  .first [s.argCheck .spPad, .when s.raw.width.isNone (.err .widthNotSet),
    .when (decide (s.raw.rate ≤ s.argNat 1)) (.err .padLength),
    .when (!(rangeOk (s.argNat 0) (s.argNat 1) && rangeOk (s.argNat 2) s.raw.rate)) (.err .range),
    .when (overlaps (s.argNat 0) (s.argNat 1) (s.argNat 2) s.raw.rate) (.refuse .operandOverlap)]

/-- The effect of SP_PAD (R152). -/
def effectSpPad (s : State) : State :=
  match s.memRead 0 (s.argNat 0) (s.argNat 1) with
  | none => (s.freeRegion (s.argNat 2) s.raw.rate).rawBusError
  | some m =>
    match s.memWrite (s.argNat 2) (pad s.raw.rate m) with
    | none => (s.freeRegion (s.argNat 2) s.raw.rate).rawBusError
    | some t => t.complete

/-- SP_PAD (R152). -/
def execSpPad (s : State) : Host.Outcome State Fault Refusal :=
  .next (s.conclude (checksSpPad s) (effectSpPad s))

/-- The checks of SP_SQUEEZE, in order (R153). -/
def checksSpSqueeze (s : State) : Verdict :=
  .first [s.argCheck .spSqueeze, .when (!s.raw.svalid) (.err .stateInvalid), .when s.raw.width.isNone (.err .widthNotSet),
    .when (!rangeOk (s.argNat 0) s.raw.dlen) (.err .range)]

/-- The effect of SP_SQUEEZE (R153). -/
def effectSpSqueeze (s : State) : State :=
  match s.memWrite (s.argNat 0) (squeeze s.raw.lanes (widthBits s.raw.width)) with
  | none => (s.freeRegion (s.argNat 0) s.raw.dlen).rawBusError
  | some t => t.complete

/-- SP_SQUEEZE (R153). -/
def execSpSqueeze (s : State) : Host.Outcome State Fault Refusal :=
  .next (s.conclude (checksSpSqueeze s) (effectSpSqueeze s))

end Sys2Proof.Machine
end

