-- ==== Sys2Proof/Machine/Dispatch.lean ====
section
/-! DEFINITION. What each command does: one arm per row of the opcode table (R83). -/

namespace Sys2Proof.Machine

def exec (i : Instr) (s : State) : Host.Outcome State Fault Refusal :=
  match i with
  | .kfPermute => Sys2Proof.Machine.execKfPermute s
  | .kfLoad => Sys2Proof.Machine.execKfLoad s
  | .kfStore => Sys2Proof.Machine.execKfStore s
  | .spInit => Sys2Proof.Machine.execSpInit s
  | .spAbsorb => Sys2Proof.Machine.execSpAbsorb s
  | .spPad => Sys2Proof.Machine.execSpPad s
  | .spSqueeze => Sys2Proof.Machine.execSpSqueeze s
  | .seqConstruct => Sys2Proof.Machine.execSeqConstruct s
  | .seqInit => Sys2Proof.Machine.execSeqInit s
  | .seqAdd => Sys2Proof.Machine.execSeqAdd s
  | .seqDigest => Sys2Proof.Machine.execSeqDigest s
  | .seqDestroy => Sys2Proof.Machine.execSeqDestroy s
  | .accConstruct => Sys2Proof.Machine.execAccConstruct s
  | .accInit => Sys2Proof.Machine.execAccInit s
  | .accAdd => Sys2Proof.Machine.execAccAdd s
  | .accDigest => Sys2Proof.Machine.execAccDigest s
  | .accDestroy => Sys2Proof.Machine.execAccDestroy s
  | .batConstruct => Sys2Proof.Machine.execBatConstruct s
  | .batCalculate => Sys2Proof.Machine.execBatCalculate s
  | .batSize => Sys2Proof.Machine.execBatSize s
  | .batDestroy => Sys2Proof.Machine.execBatDestroy s

end Sys2Proof.Machine
end

