-- ==== Sys2Proof/Machine/Window.lean ====
section
/-! DEFINITION. What the outside world does to the block: register accesses (R22-R32), issuing a command (R22, R84), reset between and during commands
(R300, R301), and other agents' writes during a command (R73, R311). -/

namespace Sys2Proof.Machine

/-- The checks a command makes before its first state change, for every command (R272, R275). -/
def checksOf : Instr → State → Verdict
  | .kfPermute, s => checksKfPermute s
  | .kfLoad, s => checksKfLoad s
  | .kfStore, s => checksKfStore s
  | .spInit, s => checksSpInit s
  | .spAbsorb, s => checksSpAbsorb s
  | .spPad, s => checksSpPad s
  | .spSqueeze, s => checksSpSqueeze s
  | .seqConstruct, s => checksConstruct .seq .seqConstruct s
  | .seqInit, s => checksInit .seq .seqInit s
  | .seqAdd, s => checksAdd .seq .seqAdd s
  | .seqDigest, s => checksDigest .seq .seqDigest s
  | .seqDestroy, s => checksDestroy .seq .seqDestroy s
  | .accConstruct, s => checksConstruct .acc .accConstruct s
  | .accInit, s => checksInit .acc .accInit s
  | .accAdd, s => checksAdd .acc .accAdd s
  | .accDigest, s => checksDigest .acc .accDigest s
  | .accDestroy, s => checksDestroy .acc .accDestroy s
  | .batConstruct, s => checksBatConstruct s
  | .batCalculate, s => checksBatCalculate s
  | .batSize, s => checksBatSize s
  | .batDestroy, s => checksBatDestroy s

/-- The output region of a command, `(address, bytes)` (R89); a command that writes no host memory has none. -/
def outputRegion (i : Instr) (s : State) : Nat × Nat :=
  match i with
  | .kfStore => (s.argNat 0, 200)
  | .spPad => (s.argNat 2, s.raw.rate)
  | .spSqueeze => (s.argNat 0, s.raw.dlen)
  | .seqDigest => (s.argNat 0, s.seq.dlen)
  | .accDigest => (s.argNat 0, s.acc.dlen)
  | .batCalculate => (s.argNat 4, s.argNat 1 * s.bat.dlen)
  | .kfPermute | .kfLoad | .spInit | .spAbsorb | .seqConstruct | .seqInit | .seqAdd | .seqDestroy | .accConstruct | .accInit
  | .accAdd | .accDestroy | .batConstruct | .batSize | .batDestroy => (0, 0)

/-- Every check of a command, in order: those before its first access, and BAT_CALCULATE's on the tables it read (R234, R272, R275). -/
def allChecks (i : Instr) (s : State) : Verdict :=
  match i with
  | .batCalculate => .first [checksOf i s, lateChecksBatCalculate s]
  | .kfPermute | .kfLoad | .kfStore | .spInit | .spAbsorb | .spPad | .spSqueeze | .seqConstruct | .seqInit | .seqAdd | .seqDigest
  | .seqDestroy | .accConstruct | .accInit | .accAdd | .accDigest | .accDestroy | .batConstruct | .batSize | .batDestroy =>
    checksOf i s

/-- The region that a command word's command may write in a state: none where it is illegal or one of its checks fails (R84, R234, R272, R287). -/
def writtenRegion (w : Word) (s : State) : Nat × Nat :=
  match decode w with
  | .error _ => (0, 0)
  | .ok i => match allChecks i s with
    | .pass => outputRegion i s
    | .err _ => (0, 0)
    | .refuse _ => (0, 0)

/-! ### Issuing a command -/

/-- A host store to CMD: the word is written into CMD and the command it encodes runs; an illegal word completes as ILLEGAL_COMMAND (R22, R84). -/
def issue (w : Word) (s : State) : Host.Outcome State Fault Refusal :=
  match decode w with
  | .ok i => exec i { s with cmd := w }
  | .error _ => .next ({ s with cmd := w }.raise .illegalCommand)

/-- What another agent's write during a command leaves in memory: in the command's output region the byte is the command's or the agent's, elsewhere
the agent's (R311). DESIGN CHOICE (log entry 20): a raced write at an address inside the register window is a write of the host-memory byte at that address;
the spec puts another agent's access to the window outside the model (R76, R313). -/
def settleRace (region : Nat × Nat) (s : State) : State :=
  let settled := s.race.foldl
    (fun m c =>
      let a := c.1.toNat
      if region.1 ≤ a ∧ a < region.1 + region.2 then
        if Config.raceChoice s.free 0 a % 2 = 0 then m else Memory.write m a c.2
      else Memory.write m a c.2)
    s.mem
  { s with mem := settled, race := [], free := s.free + 1 }

/-- A command store during which another agent writes host memory (R73, R311). -/
def issueRaced (w : Word) (writes : List (Word × Byte)) (s : State) : Host.Outcome State Fault Refusal :=
  match issue w { s with race := writes } with
  | .next t => .next (settleRace (writtenRegion w s) t)
  | .fault f => .fault f
  | .refused r => .refused r

/-- Reset (R300): every chip field to its reset value. Host memory is not touched (95_test_vectors.md V91), and the refusal mark is not cleared (R285). -/
def State.applyReset (s : State) : State :=
  { State.powerOn s.platform with
    mem := s.mem
    mark := s.mark
    env := s.env
    free := s.free
    pending := s.pending
    loads := s.loads }

/-- A command store during which reset is asserted: the command is abandoned, its output region unspecified, the block in its reset state (R301). A
command that the spec refuses sets the mark as it would without the reset. -/
def issueReset (w : Word) (s : State) : State :=
  let region := writtenRegion w s
  let t := s.freeRegion region.1 region.2
  match decode w with
  | .error _ => t.applyReset
  | .ok i => match allChecks i s with
    | .refuse m => (t.refuse m).applyReset
    | .pass => t.applyReset
    | .err _ => t.applyReset

/-! ### Register and memory accesses of the host -/

/-- A store of a 64-bit value to a register: CMD issues a command, the ARGs take the value, the read-only registers ignore it (R22-R24, R30, R31). -/
def storeReg (r : Reg) (v : Word) (s : State) : Host.Outcome State Fault Refusal :=
  match r with
  | .cmd => issue v s
  | .arg k => .next { s with args := s.args.set k v, argWritten := s.argWritten.set k true }
  | .status | .result | .seqWidth | .accWidth | .batWidth | .rawWidth => .next s

/-- The register an access reaches: a naturally aligned 64-bit access to an offset of a register; any other is refused (R32). -/
def accessedReg (offset n : Nat) : Option Reg := if n = 8 then Reg.ofOffset offset else none

/-- A host store to the window at an offset (R32, R65). -/
def storeWindow (offset : Nat) (data : List Byte) (s : State) : Host.Outcome State Fault Refusal :=
  match accessedReg offset data.length with
  | some r => storeReg r (leWord data) s
  | none => .next (s.refuse .regAccessError)

/-- A host load from the window at an offset: the bytes reach the host (R32, R65). The twelve registers are all it can show: there is no other observation
point but host memory (R283). -/
def loadWindow (offset n : Nat) (s : State) : State :=
  match accessedReg offset n with
  | some r =>
    let got := s.regLoad r
    { got.2 with loads := bytes64 got.1 :: got.2.loads }
  | none => s.refuse .regAccessError

/-- Whether an access of `n` bytes at a physical address touches the register window (R60, R70). -/
def touchesWindow (p : Platform) (a n : Nat) : Bool := overlaps a n p.regBase 0x100

/-- A window access by physical address: an access that begins below the window is not aligned to a register (R32). -/
def windowOffset (p : Platform) (a : Nat) : Nat := if p.regBase ≤ a then a - p.regBase else 0x100

/-- A host store at a physical address. -/
def storePhysical (a : Nat) (data : List Byte) (s : State) : Host.Outcome State Fault Refusal :=
  if 2 ^ 64 < a + data.length then .fault .hostAccessPastMemory
  else if touchesWindow s.platform a data.length then storeWindow (windowOffset s.platform a) data s
  else .next { s with mem := Memory.writeBytes s.mem a data }

/-- A host load at a physical address: the register window or host memory, the only observation points (R283). -/
def loadPhysical (a n : Nat) (s : State) : Host.Outcome State Fault Refusal :=
  if 2 ^ 64 < a + n then .fault .hostAccessPastMemory
  else if touchesWindow s.platform a n then .next (loadWindow (windowOffset s.platform a) n s)
  else .next { s with loads := Memory.readBytes s.mem a n :: s.loads }

/-- One operation of the outside world on the block. -/
def perform (op : HostOp) (s : State) : Host.Outcome State Fault Refusal :=
  match op with
  | .regStore offset data => storeWindow offset data s
  | .regLoad offset n => .next (loadWindow offset n s)
  | .store a data => storePhysical a.toNat data s
  | .load a n => loadPhysical a.toNat n s
  | .issueRaced w writes => issueRaced w writes s
  | .issueReset w => .next (issueReset w s)
  | .reset => .next s.applyReset

/-! ### Programs -/

/-- A program of R90 given to the machine: its `.data` lines are the start contents of host memory, its host operations follow those pending. -/
def State.withProgram (s : State) (lines : List AsmLine) : State :=
  { s with
    mem := lines.foldl
      (fun m line => match line with
        | .data a bytes => Memory.writeBytes m a.toNat bytes
        | .command _ _ => m
        | .rawCmd _ => m
        | .ld _ => m)
      s.mem
    pending := s.pending ++ program lines }

/-- The host's next operation becomes a store of this word to CMD, its operand registers stored beforehand with the values they hold (R90, R92). -/
def State.withCommand (s : State) (w : Word) : State :=
  { s with argWritten := Vector.replicate 5 true, pending := regStoreOp .cmd w :: s.pending }

end Sys2Proof.Machine
end

