-- ==== Sys2Proof/Machine/Step.lean ====
section
/-! DEFINITION. One step: the host's next operation on the block (R20-R22, R72). The block fetches nothing (R21): with no operation pending it is idle
and keeps all state (R284, R300). -/

namespace Sys2Proof.Machine

/-- One step of the machine. -/
def step (s : State) : Host.Outcome State Fault Refusal :=
  match s.pending with
  | [] => .next s
  | op :: rest => perform op { s with pending := rest }

/-- `s` with the command of a table word as the host's next operation, so that the very next step runs it (log entry 10). -/
def State.withFetchWord (s : State) (nbits w : Nat) : State := s.withCommand (BitVec.ofNat 64 (w % 2 ^ nbits))

end Sys2Proof.Machine
end

