-- ==== Sys2Proof/Safety.lean ====
section
/-! DEFINITION. What counts as a safe run, and the terms claims are made in: the invariant of the state between two host operations (R38), a clean run
(R286), what a command leaves unchanged, and what an engine holds of a message (R176). -/

namespace Sys2Proof.Machine

/-- The next state of an outcome, if it has one. -/
def nextOf : Host.Outcome State Fault Refusal → Option State
  | .next s => some s
  | .fault _ => none
  | .refused _ => none

/-! ### The invariant -/

/-- A SEQ or ACC engine between commands: no width exactly while UNCONSTRUCTED (R31, R34), a short buffer in FRESH and ABSORBING (R38 a), nothing
absorbed in FRESH (R38 b). -/
abbrev Engine.Inv (x : Engine) : Prop :=
  (x.st = .unconstructed ↔ x.width = none) ∧
  (x.st = .fresh ∨ x.st = .absorbing → x.buf.length < x.rate) ∧
  (x.st = .fresh → x.lanes = zeroLanes ∧ x.buf = [])

/-- The BAT engine between commands: no width exactly while UNCONSTRUCTED, C lanes (R36), every lane inactive (R38 c). -/
abbrev BatEngine.Inv (b : BatEngine) (capacity : Nat) : Prop :=
  (b.st = .unconstructed ↔ b.width = none) ∧ b.lanes.length = capacity ∧ ∀ l ∈ b.lanes, l.active = false

/-- STATUS: ERR is set exactly when the last command's code is not OK, and a failure is never unseen (R25-R27). -/
abbrev State.StatusInv (s : State) : Prop :=
  (s.err = true ↔ s.errCode ≠ .ok) ∧ (s.err = true → s.faultSeen = true)

/-- The invariant of the machine between two host operations. -/
abbrev State.Inv (s : State) : Prop :=
  Memory.wf s.mem ∧ s.seq.Inv ∧ s.acc.Inv ∧ s.bat.Inv s.platform.laneCapacity ∧ s.StatusInv ∧ s.race = []

/-- No fault was recorded and nothing was refused: the premise a claim about a program takes at its end (R286). -/
abbrev State.Clean (s : State) : Prop := s.faultSeen = false ∧ s.mark = none

/-- The chip state that R300 gives reset: every register and lifecycle field whose reset value the spec states. -/
abbrev State.AtReset (t : State) : Prop :=
  t.cmd = 0 ∧ (∀ k, t.argWritten.get k = false) ∧ t.status = 0 ∧ t.err = false ∧ t.faultSeen = false ∧ t.errCode = .ok ∧
    t.result = 0 ∧ t.regValue .seqWidth = 0 ∧ t.regValue .accWidth = 0 ∧ t.regValue .batWidth = 0 ∧
    t.regValue .rawWidth = 0 ∧ t.raw.svalid = false ∧ t.raw.width = none ∧ t.seq.st = .unconstructed ∧
    t.acc.st = .unconstructed ∧ t.bat.st = .unconstructed ∧ ∀ l ∈ t.bat.lanes, l.active = false

/-- Two states that agree at every observation point of R283: what each register reads as (an unwritten ARG reads as a free value) and host memory, on one
platform. -/
abbrev State.SameObserved (s t : State) : Prop :=
  (∀ r : Reg, (∀ k, r = .arg k → s.argWritten.get k = true) → s.regValue r = t.regValue r) ∧ s.argWritten = t.argWritten ∧
    s.mem = t.mem ∧ s.platform = t.platform ∧ s.free = t.free

/-! ### When a command can run -/

/-- The operand registers of a command are written and no other agent writes memory while it runs. -/
abbrev State.Ready (s : State) (i : Instr) : Prop := s.lacksArgs i = false ∧ s.race = []

/-- A region of `n` bytes that a command can access: in the address space and admitted by the platform (R68, R69). -/
abbrev State.Accessible (s : State) (a n : Nat) : Prop := rangeOk a n = true ∧ s.platform.admitsAll a n = true

/-- A region in the address space of which some byte is not admitted: an access to it is a bus error (R68, R69). -/
abbrev State.NotAdmitted (s : State) (a n : Nat) : Prop := rangeOk a n = true ∧ s.platform.admitsAll a n = false

/-! ### Frames -/

/-- The command reported success (R25, R27), and the sticky flag is as before (R26). -/
abbrev State.Succeeded (s t : State) : Prop := t.err = false ∧ t.errCode = .ok ∧ t.faultSeen = s.faultSeen

/-- The command reported this code: STATUS.ERR, ERRCODE and FAULTSEEN are written (R270). -/
abbrev State.FailedWith (t : State) (c : ErrCode) : Prop := t.err = true ∧ t.errCode = c ∧ t.faultSeen = true

/-- What no command writes: CMD, the ARG registers and their bookkeeping (R22, R23), the parameters of R8, the host's operations to come, what its
loads returned, and what other agents do. -/
abbrev State.SameHostSide (s t : State) : Prop :=
  t.cmd = s.cmd ∧ t.args = s.args ∧ t.argWritten = s.argWritten ∧ t.platform = s.platform ∧ t.pending = s.pending ∧
    t.loads = s.loads ∧ t.race = s.race

/-- The three engines are as before. -/
abbrev State.SameEngines (s t : State) : Prop := t.seq = s.seq ∧ t.acc = s.acc ∧ t.bat = s.bat

/-- Everything outside the engine `e`, STATUS and host memory is as before: the units share no mutable state (R41). -/
abbrev State.SameOutsideEngine (s t : State) (e : EngineSel) : Prop :=
  s.SameHostSide t ∧ t.raw = s.raw ∧ t.bat = s.bat ∧ (∀ e', e' ≠ e → t.engine e' = s.engine e') ∧ t.result = s.result ∧
    t.mark = s.mark

/-- Everything outside the RAW unit, STATUS and host memory is as before. -/
abbrev State.SameOutsideRaw (s t : State) : Prop :=
  s.SameHostSide t ∧ s.SameEngines t ∧ t.result = s.result ∧ t.mark = s.mark

/-- Everything outside the BAT engine, RESULT, STATUS and host memory is as before. -/
abbrev State.SameOutsideBat (s t : State) : Prop :=
  s.SameHostSide t ∧ t.raw = s.raw ∧ t.seq = s.seq ∧ t.acc = s.acc ∧ t.mark = s.mark

/-- FAULTSEEN is sticky, and a command that does not report an error leaves it as it was (R26). -/
abbrev State.StickyFault (s t : State) : Prop :=
  (s.faultSeen = true → t.faultSeen = true) ∧ (t.err = false → t.faultSeen = s.faultSeen)

/-- Every byte of host memory reads as before. -/
def State.SameMemory (s t : State) : Prop := ∀ a, t.mem.read a = s.mem.read a

/-- Every byte of host memory outside a region `(address, bytes)` reads as before. -/
def State.SameMemoryOutside (s t : State) (region : Nat × Nat) : Prop :=
  ∀ a, ¬(region.1 ≤ a ∧ a < region.1 + region.2) → t.mem.read a = s.mem.read a

/-! ### The streaming commands of an engine -/

/-- CONSTRUCT of an engine (R171, R202). -/
def EngineSel.construct : EngineSel → Instr
  | .seq => .seqConstruct
  | .acc => .accConstruct

/-- INIT of an engine (R172, R203). -/
def EngineSel.init : EngineSel → Instr
  | .seq => .seqInit
  | .acc => .accInit

/-- ADD of an engine (R173, R204). -/
def EngineSel.add : EngineSel → Instr
  | .seq => .seqAdd
  | .acc => .accAdd

/-- DIGEST of an engine (R174, R205). -/
def EngineSel.digest : EngineSel → Instr
  | .seq => .seqDigest
  | .acc => .accDigest

/-- DESTROY of an engine (R175, R206). -/
def EngineSel.destroy : EngineSel → Instr
  | .seq => .seqDestroy
  | .acc => .accDestroy

/-- The oracle answers no failure at this point of an ACC command; SEQ commands have no draw point (R276). -/
abbrev State.NoFailureAt (s : State) (e : EngineSel) (p : DrawPoint) : Prop := e = .acc → (s.draw p).1 = none

/-- The state after the host stored ARG0 (R23). -/
def State.withArg0 (s : State) (a : Word) : State :=
  { s with args := s.args.set 0 a, argWritten := s.argWritten.set 0 true }

/-- The state after the host stored ARG0 and ARG1 (R23). -/
def State.withArgs01 (s : State) (a n : Word) : State :=
  { s with args := (s.args.set 0 a).set 1 n, argWritten := (s.argWritten.set 0 true).set 1 true }

/-- ADD commands for chunks `(src, len)` one after another, the host storing the operands of each; none if one does not succeed. -/
def addChunks (e : EngineSel) : List (Word × Word) → State → Option State
  | [], s => some s
  | (a, n) :: cs, s =>
    match nextOf (exec e.add (s.withArgs01 a n)) with
    | some t => if t.err then none else addChunks e cs t
    | none => none

/-! ### The draws of a batch call -/

/-- Refill on the blocks each lane has still to gather (0: a free lane) and those of the backlog's messages: free lanes, lowest index first, take the backlog
from its front (R235). -/
def refillCounts : List Nat → List Nat → List Nat × List Nat
  | [], q => ([], q)
  | 0 :: bs, [] => (0 :: bs, [])
  | 0 :: bs, k :: q => (k :: (refillCounts bs q).1, (refillCounts bs q).2)
  | (b + 1) :: bs, q => ((b + 1) :: (refillCounts bs q).1, (refillCounts bs q).2)

/-- The draw points of the iterations to come, in order: one transfer, one kernel, one read-back for each lane that gathers its last block (R237-R240, R276).
The fuel bounds the iterations. -/
def drawPoints : Nat → List Nat → List Nat → List DrawPoint
  | 0, _, _ => []
  | fuel + 1, lanes, q =>
    if lanes.all fun b => b == 0 then []
    else
      let next := refillCounts (lanes.map (· - 1)) q
      .batTransfer :: .batKernel :: (List.replicate (lanes.count 1) .batReadback ++ drawPoints fuel next.1 next.2)

/-- The draw points of a whole call on C free lanes, from the blocks of its messages in input order (R249). -/
def callPoints (capacity : Nat) (blocks : List Nat) : List DrawPoint :=
  let start := refillCounts (List.replicate capacity 0) blocks
  drawPoints blocks.sum start.1 start.2

/-! ### Messages -/

/-- An engine that has taken exactly the message `M` since it was made fresh: its state is the one SHA3_d's loop reaches after the full blocks of `M`,
its buffer the tail (R176). -/
abbrev Engine.Holds (x : Engine) (M : List Byte) : Prop :=
  x.lanes = (absorbFull x.rate zeroLanes M).1 ∧ x.buf = (absorbFull x.rate zeroLanes M).2

end Sys2Proof.Machine
end

