-- ==== Sys2Proof/Certificates/Slice0/Obligations.lean ====
section
/-! DEFINITION. The statements for the provers. Each docstring names the rule of spec/ that it formalises. -/

open Sys2Proof Sys2Proof.Machine

/-- The opcode map as R83 lists it: OPC and command. -/
def Sys2Proof.opcodeMap : List (Nat × Instr) :=
  [(0x01, .kfPermute), (0x02, .kfLoad), (0x03, .kfStore), (0x10, .spInit), (0x11, .spAbsorb), (0x12, .spPad), (0x13, .spSqueeze),
    (0x20, .seqConstruct), (0x21, .seqInit), (0x22, .seqAdd), (0x23, .seqDigest), (0x2F, .seqDestroy), (0x30, .accConstruct),
    (0x31, .accInit), (0x32, .accAdd), (0x33, .accDigest), (0x3F, .accDestroy), (0x40, .batConstruct), (0x41, .batCalculate),
    (0x42, .batSize), (0x4F, .batDestroy)]

/-- The ARG registers each command consumes, as R83's operand column and R92 list them. -/
def Sys2Proof.operandTable : List (Instr × List (Fin 5)) :=
  [(.kfPermute, []), (.kfLoad, [0]), (.kfStore, [0]), (.spInit, [0]), (.spAbsorb, [0]), (.spPad, [0, 1, 2]), (.spSqueeze, [0]),
    (.seqConstruct, [0]), (.seqInit, []), (.seqAdd, [0, 1]), (.seqDigest, [0]), (.seqDestroy, []), (.accConstruct, [0]),
    (.accInit, []), (.accAdd, [0, 1]), (.accDigest, [0]), (.accDestroy, []), (.batConstruct, [0]),
    (.batCalculate, [0, 1, 2, 3, 4]), (.batSize, []), (.batDestroy, [])]

/-- R271's table: each error code's value, and whether it is of the contract-violation or of the resource-failure class. -/
def Sys2Proof.errorTable : List (ErrCode × Nat × Bool × Bool) :=
  [(.ok, 0x00, false, false), (.illegalCommand, 0x01, true, false), (.unsupportedWidth, 0x02, true, false),
    (.notConstructed, 0x03, true, false), (.alreadyConstructed, 0x04, true, false), (.engineFailed, 0x05, true, false),
    (.addAfterFinal, 0x06, true, false), (.digestAfterFinal, 0x07, true, false), (.listMismatch, 0x08, true, false),
    (.stateInvalid, 0x09, true, false), (.widthNotSet, 0x0A, true, false), (.padLength, 0x0B, true, false),
    (.range, 0x0C, true, false), (.busError, 0x10, false, true), (.allocFailure, 0x11, false, true),
    (.transferFailure, 0x12, false, true), (.kernelFailure, 0x13, false, true)]

/-- R28's table for the SEQ and ACC engines. -/
def Sys2Proof.engineCodes : List (EngineState × Nat) :=
  [(.unconstructed, 0), (.fresh, 1), (.absorbing, 2), (.finalized, 3), (.failed, 4)]

/-- R28's table for the BAT engine. -/
def Sys2Proof.batCodes : List (BatState × Nat) := [(.unconstructed, 0), (.failed, 4), (.ready, 5)]

/-- The failures possible at each draw point, as R276's table lists them. -/
def Sys2Proof.drawTable : List (DrawPoint × ErrCode) :=
  [(.accAlloc, .allocFailure), (.accInit, .transferFailure), (.accAdd, .transferFailure), (.accAdd, .kernelFailure),
    (.accDigest, .transferFailure), (.accDigest, .kernelFailure), (.batAlloc, .allocFailure), (.batTransfer, .transferFailure),
    (.batKernel, .kernelFailure), (.batReadback, .transferFailure)]

/-- The value of a byte sequence read little-endian (R11), as a natural. -/
def Sys2Proof.le64 (b : List Byte) : Nat := b.foldr (fun x rest => x.toNat + 256 * rest) 0

/-- The descriptors of a BAT_CALCULATE as R88 gives them: `n` of them, message i with index i, the pointer at ARG0 + 8i and the length at ARG2 + 8i. -/
def Sys2Proof.DescriptorsOf (s : State) (jobs : List Job) : Prop :=
  jobs.length = s.argNat 1 ∧
    ∀ i, i < s.argNat 1 → jobs[i]? = some
      { idx := i, ptr := le64 (s.mem.readBytes (s.argNat 0 + 8 * i) 8), len := le64 (s.mem.readBytes (s.argNat 2 + 8 * i) 8) }

/-! ### Encoding and decoding -/

/-- Decode and encode agree, on words and on bytes with anything behind them, in both directions (30_encoding.md R80-R84). -/
def Obligations.DecodeEncodeAgree : Prop :=
  (∀ (i : Instr) (rest : List Byte), decodeBytes (encodeBytes i ++ rest) = .ok (i, rest)) ∧
    ∀ (w : Word) (i : Instr), decode w = .ok i ↔ w = encode i

/-- R83: the legal command words are exactly the 21 of the opcode map, RSVD zero in each, and each command consumes exactly the operand registers the map
lists for it (R92). -/
def Obligations.LegalWordsAreTheOpcodeMap : Prop :=
  (∀ (w : Word) (i : Instr), decode w = .ok i ↔ (w.toNat, i) ∈ opcodeMap) ∧ opcodeMap.length = 21 ∧
    (∀ i : Instr, (i, i.operands) ∈ operandTable) ∧
    ∀ (i : Instr) (s : State), s.lacksArgs i = true ↔ ∃ k ∈ i.operands, s.argWritten.get k = false

/-- R84: a word is legal iff bits [63:8] are zero and bits [7:0] are an OPC; any other word, 0 among them, completes as ILLEGAL_COMMAND whatever else
would fail, with no change but to STATUS (and CMD, which the store itself writes). -/
def Obligations.IllegalWordChangesStatusOnly : Prop :=
  (∀ w : Word, (∃ i, decode w = .ok i) ↔
      BitVec.extractLsb' 8 56 w = 0 ∧ (BitVec.extractLsb' 0 8 w).toNat ∈ opcodeMap.map Prod.fst) ∧
    (∀ i, decode 0 ≠ .ok i) ∧
    ∀ (w : Word) (s : State), (∀ i, decode w ≠ .ok i) →
      issue w s = .next { s with cmd := w, err := true, errCode := .illegalCommand, faultSeen := true }

/-- Words written out from the opcode map, one or more of each unit (R81, R83), decode to their commands. -/
def Obligations.WrittenOutWordsDecode : Prop :=
  decode 0x0000000000000001#64 = .ok .kfPermute ∧ decode 0x0000000000000012#64 = .ok .spPad ∧
    decode 0x0000000000000022#64 = .ok .seqAdd ∧ decode 0x000000000000002F#64 = .ok .seqDestroy ∧
    decode 0x0000000000000033#64 = .ok .accDigest ∧ decode 0x0000000000000041#64 = .ok .batCalculate ∧
    decode 0x0000000000000122#64 = .error .reservedNotZero ∧ decode 0x0000000000000050#64 = .error .noSuchUnit

/-! ### The host interface -/

/-- A step whose pending operation is a 64-bit store of a legal word to CMD, by window offset or by physical address, is the command's meaning at that
state, with CMD written and the operation taken from the host's list (R22, R72; the list of host operations is the model's, log entry 2). -/
def Obligations.StepRunsDecodedCommand : Prop :=
  ∀ (s : State) (w : Word) (i : Instr) (rest : List HostOp), decode w = .ok i →
    (s.pending = .regStore 0 (bytes64 w) :: rest → step s = exec i { s with pending := rest, cmd := w }) ∧
      ∀ a : Word, a.toNat = s.platform.regBase → s.pending = .store a (bytes64 w) :: rest →
        step s = exec i { s with pending := rest, cmd := w }

/-- R22: a store of any word to CMD is accepted and completes in a next state with CMD holding that word; a load of CMD then returns it; CMD is 0 after
reset; an illegal word completes as ILLEGAL_COMMAND. -/
def Obligations.CmdRegisterHoldsLastStore : Prop :=
  State.reset.cmd = 0 ∧
    ∀ (s : State) (w : Word) (rest : List HostOp), s.pending = .regStore 0 (bytes64 w) :: rest →
      ∃ t, step s = .next t ∧ t.cmd = w ∧ t.pending = rest ∧ (loadWindow 0 8 t).loads = bytes64 w :: t.loads ∧
        ((∀ i, decode w ≠ .ok i) → t.FailedWith .illegalCommand)

/-- R23: a store to ARGk writes it and its `argWritten` bit and nothing else; a load then returns the value; no command writes an ARG; after reset every
ARG is unwritten; a command that consumes an unwritten ARG is refused with no effect but the mark (a next state, log entry 1). -/
def Obligations.ArgRegisters : Prop :=
  (∀ k : Fin 5, State.reset.argWritten.get k = false) ∧
    (∀ (s : State) (k : Fin 5), s.applyReset.argWritten.get k = false) ∧
    (∀ (s : State) (k : Fin 5) (v : Word),
      ∃ t, storeWindow (8 + 8 * k.val) (bytes64 v) s = .next t ∧ t.arg k = v ∧ t.argWritten.get k = true ∧
        (∀ j, j ≠ k → t.arg j = s.arg j ∧ t.argWritten.get j = s.argWritten.get j) ∧
        { t with args := s.args, argWritten := s.argWritten } = s ∧
        (loadWindow (8 + 8 * k.val) 8 t).loads = bytes64 v :: s.loads) ∧
    (∀ (i : Instr) (s t : State), exec i s = .next t → t.args = s.args ∧ t.argWritten = s.argWritten) ∧
    ∀ (i : Instr) (s : State), s.lacksArgs i = true → exec i s = .next { s with mark := some .argUnwritten }

/-- R24: every field of STATUS at its bits, every reserved bit 0, 0 at reset; a store is ignored and a load has no effect on the block. The lifecycle codes have
the values of R28's table, the error codes the values and classes of R271's. -/
def Obligations.StatusFields : Prop :=
  State.reset.status = 0 ∧
    (∀ st : EngineState, (st, st.code.toNat) ∈ engineCodes) ∧ (∀ st : BatState, (st, st.code.toNat) ∈ batCodes) ∧
    (∀ c : ErrCode, (c, c.code.toNat, c.isContract, c.isResource) ∈ errorTable) ∧
    ∀ s : State,
      BitVec.extractLsb' 0 1 s.status = BitVec.ofBool s.err ∧ BitVec.extractLsb' 1 1 s.status = BitVec.ofBool s.faultSeen ∧
      BitVec.extractLsb' 2 6 s.status = 0 ∧ BitVec.extractLsb' 8 8 s.status = s.errCode.code ∧
      BitVec.extractLsb' 16 3 s.status = s.seq.st.code ∧ BitVec.extractLsb' 19 1 s.status = 0 ∧
      BitVec.extractLsb' 20 3 s.status = s.acc.st.code ∧ BitVec.extractLsb' 23 1 s.status = 0 ∧
      BitVec.extractLsb' 24 3 s.status = s.bat.st.code ∧ BitVec.extractLsb' 27 1 s.status = 0 ∧
      BitVec.extractLsb' 28 1 s.status = BitVec.ofBool s.raw.svalid ∧
      BitVec.extractLsb' 29 1 s.status = BitVec.ofBool s.raw.width.isSome ∧ BitVec.extractLsb' 30 34 s.status = 0 ∧
      (∀ data : List Byte, data.length = 8 → storeWindow 0x30 data s = .next s) ∧
      loadWindow 0x30 8 s = { s with loads := bytes64 s.status :: s.loads }

/-- The width registers (R31): in a state of the invariant each reads 0 while its engine is UNCONSTRUCTED (RAW: while RAW.W is not set) and the width in
bits otherwise, a FAILED engine's too; a load at its offset returns it; stores to them and to RESULT are ignored (R30); all read 0 after reset. -/
def Obligations.WidthRegisters : Prop :=
  (∀ p ∈ [(0x38, Reg.result), (0x40, .seqWidth), (0x48, .accWidth), (0x50, .batWidth), (0x58, .rawWidth)],
      State.reset.regValue p.2 = 0 ∧
      ∀ s : State, (∀ data : List Byte, data.length = 8 → storeWindow p.1 data s = .next s) ∧
        loadWindow p.1 8 s = { s with loads := bytes64 (s.regValue p.2) :: s.loads }) ∧
    ∀ s : State, s.Inv →
      (s.regValue .seqWidth = 0 ↔ s.seq.st = .unconstructed) ∧ (s.regValue .accWidth = 0 ↔ s.acc.st = .unconstructed) ∧
      (s.regValue .batWidth = 0 ↔ s.bat.st = .unconstructed) ∧ (s.regValue .rawWidth = 0 ↔ s.raw.width = none) ∧
      ∀ w : Width, (s.seq.width = some w → (s.regValue .seqWidth).toNat = w.bits) ∧
        (s.acc.width = some w → (s.regValue .accWidth).toNat = w.bits) ∧
        (s.bat.width = some w → (s.regValue .batWidth).toNat = w.bits) ∧
        (s.raw.width = some w → (s.regValue .rawWidth).toNat = w.bits)

/-- Any window access but an aligned 64-bit access to offsets 0x00-0x58 is refused: the mark is set and nothing else changes (R32, R285, R287; a
next state, log entry 1). -/
def Obligations.OtherWindowAccessesRefused : Prop :=
  ∀ (s : State) (offset n : Nat), ¬(n = 8 ∧ offset % 8 = 0 ∧ offset ≤ 0x58) →
    loadWindow offset n s = { s with mark := some .regAccessError } ∧
      ∀ data : List Byte, data.length = n → storeWindow offset data s = .next { s with mark := some .regAccessError }

/-- R300: what reset leaves, at power-on and at any reset between commands; host memory is not touched. -/
def Obligations.ResetState : Prop :=
  State.reset.AtReset ∧
    ∀ (s : State) (rest : List HostOp), s.pending = .reset :: rest →
      ∃ t, step s = .next t ∧ t.AtReset ∧ t.mem = s.mem ∧ t.platform = s.platform ∧ t.pending = rest

/-- R301: reset while a command executes leaves the reset state of R300; only bytes of the abandoned command's output region (R89) may differ, and none
where the word is no command. -/
def Obligations.ResetAbandonsCommand : Prop :=
  ∀ (s : State) (w : Word),
    ∃ t, perform (.issueReset w) s = .next t ∧ t.AtReset ∧ t.platform = s.platform ∧
      (∀ i, decode w = .ok i → s.SameMemoryOutside t (outputRegion i s)) ∧
      ((∀ i, decode w ≠ .ok i) → s.SameMemory t)

/-- R311, the racing reads: a byte another agent writes during a command reads as its old value or as one of the written values; a byte none writes reads
as memory; and the STATUS result of every command is unaffected by the race. That a refusal (the mark) is unaffected as well is the model's reading, no rule
of the spec (DEDUCED, log entry 8). -/
def Obligations.RacedReadsSeeOldOrNew : Prop :=
  (∀ (s : State) (reader a : Nat),
      (s.busByte reader a = s.mem.read a ∨ ∃ c ∈ s.race, c.1.toNat = a ∧ s.busByte reader a = c.2) ∧
        ((∀ c ∈ s.race, c.1.toNat ≠ a) → s.busByte reader a = s.mem.read a)) ∧
    ∀ (i : Instr) (s t u : State) (writes : List (Word × Byte)),
      exec i { s with race := writes } = .next t → exec i { s with race := [] } = .next u →
        t.err = u.err ∧ t.errCode = u.errCode ∧ t.faultSeen = u.faultSeen ∧ t.mark = u.mark

/-- R283: the only observation points are the registers and host memory. Whatever the host loads, in the window or at a physical address, it gets the same
from two states that agree there; and a load changes nothing of the block but the model's own bookkeeping. Two clauses are the model's, no rule of the spec:
a load past the last address stops the machine, in both states alike (DEDUCED, log entry 11), and an unwritten ARG reads the same free value in both where the
model's counter `free` is the same (DESIGN CHOICE, log entry 7). -/
def Obligations.OnlyRegistersAndMemoryAreObserved : Prop :=
  ∀ s t : State, s.SameObserved t → ∀ op : HostOp, (∃ offset n, op = .regLoad offset n) ∨ (∃ a n, op = .load a n) →
    (∃ s' t' got, perform op s = .next s' ∧ perform op t = .next t' ∧ s'.loads = got ++ s.loads ∧ t'.loads = got ++ t.loads ∧
        { s' with loads := s.loads, mark := s.mark, free := s.free } = s) ∨
      (perform op s = .fault .hostAccessPastMemory ∧ perform op t = .fault .hostAccessPastMemory)

/-! ### The permutation and the sponge functions -/

/-- R102: θ, lane by lane. -/
def Obligations.ThetaByLane : Prop :=
  ∀ (A : Lanes) (x y : Nat), x < 5 → y < 5 →
    let C (x : Nat) : Word := lane A x 0 ^^^ lane A x 1 ^^^ lane A x 2 ^^^ lane A x 3 ^^^ lane A x 4
    lane (theta A) x y = lane A x y ^^^ (C ((x + 4) % 5) ^^^ rotl64 (C ((x + 1) % 5)) 1)

/-- R103: ρ rotates lane k left by its offset; the rotation is that of R10. -/
def Obligations.RhoByLane : Prop :=
  (∀ (A : Lanes) (k : Nat), k < 25 →
      laneK (rho A) k = (laneK A k).rotateLeft
        ([0, 1, 62, 28, 27, 36, 44, 6, 55, 20, 3, 10, 43, 25, 39, 41, 45, 15, 21, 8, 18, 2, 61, 56, 14].getD k 0)) ∧
    ∀ (v : Word) (n : Nat), n < 64 → rotl64 v n = v.rotateLeft n

/-- R104: π in both of the forms the rule gives. -/
def Obligations.PiInBothForms : Prop :=
  ∀ (A : Lanes) (x y : Nat), x < 5 → y < 5 →
    lane (piStep A) y ((2 * x + 3 * y) % 5) = lane A x y ∧ lane (piStep A) x y = lane A ((x + 3 * y) % 5) x

/-- R105: χ, row by row. -/
def Obligations.ChiByLane : Prop :=
  ∀ (A : Lanes) (x y : Nat), x < 5 → y < 5 →
    lane (chi A) x y = lane A x y ^^^ (~~~(lane A ((x + 1) % 5) y) &&& lane A ((x + 2) % 5) y)

/-- R106's table, row by row: RC[i] and RC[i + 12]. -/
def Sys2Proof.roundConstants : List (Word × Word) :=
  [(0x1, 0x8000808B), (0x8082, 0x800000000000008B), (0x800000000000808A, 0x8000000000008089),
    (0x8000000080008000, 0x8000000000008003), (0x808B, 0x8000000000008002), (0x80000001, 0x8000000000000080),
    (0x8000000080008081, 0x800A), (0x8000000000008009, 0x800000008000000A), (0x8A, 0x8000000080008081),
    (0x88, 0x8000000000008080), (0x80008009, 0x80000001), (0x8000000A, 0x8000000080008008)]

/-- R106: ι injects the round constant into lane (0, 0) and leaves every other lane. -/
def Obligations.IotaByLane : Prop :=
  ∀ (A : Lanes) (i x y : Nat), i < 24 → x < 5 → y < 5 →
    lane (iota A i) x y =
      if x = 0 ∧ y = 0 then
        lane A 0 0 ^^^
          (if i < 12 then (roundConstants.getD i (0, 0)).1 else (roundConstants.getD (i - 12) (0, 0)).2)
      else lane A x y

/-- R101: KF is 24 rounds of the five steps in the order θ, ρ, π, χ, ι, round index 0 first. -/
def Obligations.KeccakIsTwentyFourRounds : Prop :=
  ∀ A : Lanes, keccakF A = Nat.rec A (fun i B => iota (chi (piStep (rho (theta B)))) i) 24

/-- R64: the serialized lane array has 200 bytes, byte `8k + j` being bits `[8j+7 : 8j]` of lane k, and `bytes_to_state` is the inverse both ways. -/
def Obligations.SerializationRoundTrip : Prop :=
  (∀ S : Lanes, (stateToBytes S).length = 200 ∧ bytesToState (stateToBytes S) = S ∧
      ∀ k j, k < 25 → j < 8 → (stateToBytes S).getD (8 * k + j) 0 = BitVec.extractLsb' (8 * j) 8 (laneK S k)) ∧
    ∀ b : List Byte, b.length = 200 → stateToBytes (bytesToState b) = b

/-- R63: byte i of a block enters lane `i div 8` at bits `[8*(i mod 8)+7 : 8*(i mod 8)]`; equivalently lane k takes `LE64` of bytes 8k to 8k+7; the lanes of
the capacity are not XORed, and absorbBlock then permutes (R142). -/
def Obligations.BlockBytesEnterLanes : Prop :=
  ∀ (w : Width) (S : Lanes) (blk : List Byte), blk.length = rate w.bits →
    (∀ i, i < rate w.bits →
      BitVec.extractLsb' (8 * (i % 8)) 8 (laneK (xorBlock (rate w.bits) S blk) (i / 8)) =
        BitVec.extractLsb' (8 * (i % 8)) 8 (laneK S (i / 8)) ^^^ blk.getD i 0) ∧
    (∀ k, k < rate w.bits / 8 →
      laneK (xorBlock (rate w.bits) S blk) k = laneK S k ^^^ leWord ((blk.drop (8 * k)).take 8)) ∧
    (∀ k, rate w.bits / 8 ≤ k → k < 25 → laneK (xorBlock (rate w.bits) S blk) k = laneK S k) ∧
    absorbBlock (rate w.bits) S blk = keccakF (xorBlock (rate w.bits) S blk)

/-- R143, R144: the padded block has rate bytes: the message, 0x06, zeros, 0x80; the two bytes collide into 0x86 when one byte of room remains. -/
def Obligations.PaddedBlockBytes : Prop :=
  ∀ (w : Width) (m : List Byte), m.length < rate w.bits →
    (pad (rate w.bits) m).length = rate w.bits ∧
    ∀ j, j < rate w.bits → (pad (rate w.bits) m).getD j 0 =
      if j < m.length then m.getD j 0
      else if j = m.length ∧ j = rate w.bits - 1 then 0x86
      else if j = m.length then 0x06
      else if j = rate w.bits - 1 then 0x80
      else 0

/-! ### KF and SP commands -/

/-- R120: KF_PERMUTE with a valid state applies KF to RAW.S; RAW.W and RAW.SVALID stay, no host memory is touched. Without a valid state it fails with
STATE_INVALID. -/
def Obligations.KfPermuteAppliesKF : Prop :=
  ∀ s : State, s.Ready .kfPermute →
    (s.raw.svalid = true → ∃ t, exec .kfPermute s = .next t ∧ s.Succeeded t ∧ t.raw.lanes = keccakF s.raw.lanes ∧
      t.raw.svalid = true ∧ t.raw.width = s.raw.width ∧ s.SameOutsideRaw t ∧ s.SameMemory t) ∧
    (s.raw.svalid = false → exec .kfPermute s = .next (s.raise .stateInvalid))

/-- R121: KF_LOAD of an accessible region replaces RAW.S by the 200 bytes and sets RAW.SVALID; RAW.W stays. -/
def Obligations.KfLoadReplacesState : Prop :=
  ∀ s : State, s.Ready .kfLoad →
    (s.Accessible (s.argNat 0) 200 → ∃ t, exec .kfLoad s = .next t ∧ s.Succeeded t ∧
      t.raw.lanes = bytesToState (s.mem.readBytes (s.argNat 0) 200) ∧ t.raw.svalid = true ∧ t.raw.width = s.raw.width ∧
      s.SameOutsideRaw t ∧ s.SameMemory t) ∧
    (2 ^ 64 < s.argNat 0 + 200 → exec .kfLoad s = .next (s.raise .range)) ∧
    (rangeOk (s.argNat 0) 200 = true → s.platform.admitsAll (s.argNat 0) 200 = false →
      ∃ t, exec .kfLoad s = .next t ∧ t.FailedWith .busError ∧ t.raw.svalid = false ∧ t.raw.width = s.raw.width)

/-- R122: KF_STORE writes the 200 bytes of the serialized RAW.S at dst and nothing else. -/
def Obligations.KfStoreWritesState : Prop :=
  ∀ s : State, s.Ready .kfStore → Memory.wf s.mem → s.raw.svalid = true → s.Accessible (s.argNat 0) 200 →
    ∃ t, exec .kfStore s = .next t ∧ s.Succeeded t ∧ t.mem.readBytes (s.argNat 0) 200 = stateToBytes s.raw.lanes ∧
      s.SameMemoryOutside t (s.argNat 0, 200) ∧ t.raw = s.raw ∧ s.SameOutsideRaw t

/-- R150: SP_INIT with a legal width sets RAW.W, zeroes RAW.S and sets RAW.SVALID, whatever the unit held; any other value of the whole operand fails with
UNSUPPORTED_WIDTH and no state change. -/
def Obligations.SpInitSetsWidth : Prop :=
  ∀ s : State, s.Ready .spInit →
    (∀ w : Width, (s.arg 0).toNat = w.bits → ∃ t, exec .spInit s = .next t ∧ s.Succeeded t ∧ t.raw.width = some w ∧
      t.raw.lanes = zeroLanes ∧ t.raw.svalid = true ∧ s.SameOutsideRaw t ∧ s.SameMemory t) ∧
    ((∀ w : Width, (s.arg 0).toNat ≠ w.bits) → exec .spInit s = .next (s.raise .unsupportedWidth))

/-- R151: SP_ABSORB absorbs the rate bytes at src into RAW.S. -/
def Obligations.SpAbsorbAbsorbsBlock : Prop :=
  ∀ (s : State) (w : Width), s.Ready .spAbsorb → s.raw.svalid = true → s.raw.width = some w →
    s.Accessible (s.argNat 0) (rate w.bits) →
    ∃ t, exec .spAbsorb s = .next t ∧ s.Succeeded t ∧
      t.raw.lanes = absorbBlock (rate w.bits) s.raw.lanes (s.mem.readBytes (s.argNat 0) (rate w.bits)) ∧
      t.raw.svalid = true ∧ t.raw.width = some w ∧ s.SameOutsideRaw t ∧ s.SameMemory t

/-- R152: SP_PAD writes the padded block of the n bytes at src; RAW is neither needed valid nor changed. -/
def Obligations.SpPadWritesBlock : Prop :=
  ∀ (s : State) (w : Width), s.Ready .spPad → Memory.wf s.mem → s.raw.width = some w → s.argNat 1 < rate w.bits →
    s.Accessible (s.argNat 0) (s.argNat 1) → s.Accessible (s.argNat 2) (rate w.bits) →
    overlaps (s.argNat 0) (s.argNat 1) (s.argNat 2) (rate w.bits) = false →
    ∃ t, exec .spPad s = .next t ∧ s.Succeeded t ∧
      t.mem.readBytes (s.argNat 2) (rate w.bits) = pad (rate w.bits) (s.mem.readBytes (s.argNat 0) (s.argNat 1)) ∧
      s.SameMemoryOutside t (s.argNat 2, rate w.bits) ∧ t.raw = s.raw ∧ s.SameOutsideRaw t

/-- R153: SP_SQUEEZE writes the first dlen(d) bytes of the serialized RAW.S; RAW is unchanged, so a second one writes the same bytes. -/
def Obligations.SpSqueezeWritesDigest : Prop :=
  ∀ (s : State) (w : Width), s.Ready .spSqueeze → Memory.wf s.mem → s.raw.svalid = true → s.raw.width = some w →
    s.Accessible (s.argNat 0) (dlen w.bits) →
    ∃ t, exec .spSqueeze s = .next t ∧ s.Succeeded t ∧
      t.mem.readBytes (s.argNat 0) (dlen w.bits) = (stateToBytes s.raw.lanes).take (dlen w.bits) ∧
      s.SameMemoryOutside t (s.argNat 0, dlen w.bits) ∧ t.raw = s.raw ∧ s.SameOutsideRaw t

/-- The checks of the KF and SP commands in the order of R275: STATE_INVALID before WIDTH_NOT_SET before PAD_LENGTH before RANGE before the overlap refusal,
each changing STATUS only (or the mark only, log entry 1). -/
def Obligations.RawUnitChecksInOrder : Prop :=
  ∀ s : State,
    (∀ i ∈ [Instr.kfStore, .spAbsorb, .spSqueeze], s.Ready i → s.raw.svalid = false → exec i s = .next (s.raise .stateInvalid)) ∧
    (∀ i ∈ [Instr.spAbsorb, .spSqueeze], s.Ready i → s.raw.svalid = true → s.raw.width = none →
      exec i s = .next (s.raise .widthNotSet)) ∧
    (s.Ready .spPad → s.raw.width = none → exec .spPad s = .next (s.raise .widthNotSet)) ∧
    (s.Ready .kfStore → s.raw.svalid = true → 2 ^ 64 < s.argNat 0 + 200 → exec .kfStore s = .next (s.raise .range)) ∧
    ∀ w : Width, s.raw.width = some w →
      (s.Ready .spAbsorb → s.raw.svalid = true → 2 ^ 64 < s.argNat 0 + rate w.bits → exec .spAbsorb s = .next (s.raise .range)) ∧
      (s.Ready .spSqueeze → s.raw.svalid = true → 2 ^ 64 < s.argNat 0 + dlen w.bits → exec .spSqueeze s = .next (s.raise .range)) ∧
      (s.Ready .spPad → rate w.bits ≤ s.argNat 1 → exec .spPad s = .next (s.raise .padLength)) ∧
      (s.Ready .spPad → s.argNat 1 < rate w.bits →
        rangeOk (s.argNat 0) (s.argNat 1) = false ∨ rangeOk (s.argNat 2) (rate w.bits) = false →
        exec .spPad s = .next (s.raise .range)) ∧
      (s.Ready .spPad → s.argNat 1 < rate w.bits → rangeOk (s.argNat 0) (s.argNat 1) = true →
        rangeOk (s.argNat 2) (rate w.bits) = true → overlaps (s.argNat 0) (s.argNat 1) (s.argNat 2) (rate w.bits) = true →
        exec .spPad s = .next { s with mark := some .operandOverlap })

/-- A KF or SP command whose checks pass and whose region has a byte that is not admitted ends in BUS_ERROR (R69): RAW.SVALID cleared, RAW.W kept, no byte
outside its output region touched and nothing else of the block (R273). The same holds whenever such a command answers BUS_ERROR where the code was not already
there. -/
def Obligations.RawUnitBusError : Prop :=
  (∀ s : State,
    let fails (i : Instr) : Prop := ∃ t, exec i s = .next t ∧ t.FailedWith .busError ∧ t.raw.svalid = false ∧
      t.raw.width = s.raw.width ∧ s.SameOutsideRaw t ∧ s.SameMemoryOutside t (outputRegion i s)
    (s.Ready .kfLoad → s.NotAdmitted (s.argNat 0) 200 → fails .kfLoad) ∧
    (s.Ready .kfStore → s.raw.svalid = true → s.NotAdmitted (s.argNat 0) 200 → fails .kfStore) ∧
    ∀ w : Width, s.raw.width = some w →
      (s.Ready .spAbsorb → s.raw.svalid = true → s.NotAdmitted (s.argNat 0) (rate w.bits) → fails .spAbsorb) ∧
      (s.Ready .spSqueeze → s.raw.svalid = true → s.NotAdmitted (s.argNat 0) (dlen w.bits) → fails .spSqueeze) ∧
      (s.Ready .spPad → s.argNat 1 < rate w.bits → rangeOk (s.argNat 0) (s.argNat 1) = true →
        rangeOk (s.argNat 2) (rate w.bits) = true → overlaps (s.argNat 0) (s.argNat 1) (s.argNat 2) (rate w.bits) = false →
        s.NotAdmitted (s.argNat 0) (s.argNat 1) ∨ s.NotAdmitted (s.argNat 2) (rate w.bits) → fails .spPad)) ∧
  ∀ (i : Instr) (s t : State), i ∈ [Instr.kfLoad, .kfStore, .spAbsorb, .spPad, .spSqueeze] → s.errCode ≠ .busError →
    exec i s = .next t → t.errCode = .busError →
    t.FailedWith .busError ∧ t.raw.svalid = false ∧ t.raw.width = s.raw.width ∧ s.SameOutsideRaw t ∧
      s.SameMemoryOutside t (outputRegion i s)

/-! ### The streaming engines -/

/-- CONSTRUCT of either engine (R171, R202): from UNCONSTRUCTED with a legal width and no failure drawn the engine is FRESH with that width, a zero state
and an empty buffer. -/
def Obligations.ConstructMakesFresh : Prop :=
  ∀ (e : EngineSel) (s : State) (w : Width), s.Ready e.construct → (s.engine e).st = .unconstructed →
    (s.arg 0).toNat = w.bits → s.NoFailureAt e .accAlloc →
    ∃ t, exec e.construct s = .next t ∧ s.Succeeded t ∧
      t.engine e = { st := .fresh, width := some w, lanes := zeroLanes, buf := [] } ∧ s.SameOutsideEngine t e ∧ s.SameMemory t

/-- INIT of either engine (R172, R203): legal from FRESH, ABSORBING and FINALIZED; zero state, empty buffer, FRESH, the width kept. -/
def Obligations.InitMakesFresh : Prop :=
  ∀ (e : EngineSel) (s : State), s.Ready e.init → (s.engine e).st ≠ .unconstructed → (s.engine e).st ≠ .failed →
    s.NoFailureAt e .accInit →
    ∃ t, exec e.init s = .next t ∧ s.Succeeded t ∧
      t.engine e = { st := .fresh, width := (s.engine e).width, lanes := zeroLanes, buf := [] } ∧ s.SameOutsideEngine t e ∧
      s.SameMemory t

/-- ADD of either engine (R173, R204): in FRESH or ABSORBING the bytes at src join the buffer, floor((|buf| + len) / r) blocks are absorbed, the tail,
shorter than the rate, stays in the buffer, and the engine is ABSORBING. Where a byte of the source is not admitted it ends in BUS_ERROR and the engine is
FAILED (R69, R273), whatever the oracle answers. -/
def Obligations.AddAbsorbsFullBlocks : Prop :=
  (∀ (e : EngineSel) (s : State), s.Ready e.add → (s.engine e).st = .fresh ∨ (s.engine e).st = .absorbing →
    s.NotAdmitted (s.argNat 0) (s.argNat 1) →
    ∃ t, exec e.add s = .next t ∧ t.FailedWith .busError ∧ (t.engine e).st = .failed ∧
      (t.engine e).width = (s.engine e).width ∧ s.SameOutsideEngine t e ∧ s.SameMemory t) ∧
  ∀ (e : EngineSel) (s : State) (w : Width), s.Ready e.add → (s.engine e).st = .fresh ∨ (s.engine e).st = .absorbing →
    (s.engine e).width = some w → s.Accessible (s.argNat 0) (s.argNat 1) →
    (∀ x : Engine, (s.setEngine e x).NoFailureAt e .accAdd) →
    let taken := (s.engine e).buf ++ s.mem.readBytes (s.argNat 0) (s.argNat 1)
    let blocks := taken.length / rate w.bits
    ∃ t, exec e.add s = .next t ∧ s.Succeeded t ∧ (t.engine e).st = .absorbing ∧ (t.engine e).width = some w ∧
      (t.engine e).lanes = (absorbBlocks (rate w.bits) blocks (s.engine e).lanes taken).1 ∧
      (t.engine e).buf = taken.drop (rate w.bits * blocks) ∧ (t.engine e).buf.length < rate w.bits ∧
      s.SameOutsideEngine t e ∧ s.SameMemory t

/-- DIGEST of either engine (R174, R205): in FRESH or ABSORBING the padded buffer is absorbed, the squeezed digest written at dst, the buffer emptied and
the engine FINALIZED. Where a byte of dst is not admitted and no failure is drawn it ends in BUS_ERROR: the engine FAILED, no byte outside dst touched (R69,
R273). -/
def Obligations.DigestWritesDigest : Prop :=
  (∀ (e : EngineSel) (s : State) (w : Width), s.Ready e.digest → (s.engine e).st = .fresh ∨ (s.engine e).st = .absorbing →
    (s.engine e).width = some w → s.NotAdmitted (s.argNat 0) (dlen w.bits) →
    (∀ x : Engine, (s.setEngine e x).NoFailureAt e .accDigest) →
    ∃ t, exec e.digest s = .next t ∧ t.FailedWith .busError ∧ (t.engine e).st = .failed ∧
      (t.engine e).width = some w ∧ s.SameOutsideEngine t e ∧ s.SameMemoryOutside t (s.argNat 0, dlen w.bits)) ∧
  ∀ (e : EngineSel) (s : State) (w : Width), s.Ready e.digest → Memory.wf s.mem →
    (s.engine e).st = .fresh ∨ (s.engine e).st = .absorbing → (s.engine e).width = some w →
    s.Accessible (s.argNat 0) (dlen w.bits) → (∀ x : Engine, (s.setEngine e x).NoFailureAt e .accDigest) →
    let final := absorbBlock (rate w.bits) (s.engine e).lanes (pad (rate w.bits) (s.engine e).buf)
    ∃ t, exec e.digest s = .next t ∧ s.Succeeded t ∧
      t.engine e = { st := .finalized, width := some w, lanes := final, buf := [] } ∧
      t.mem.readBytes (s.argNat 0) (dlen w.bits) = squeeze final w.bits ∧
      s.SameMemoryOutside t (s.argNat 0, dlen w.bits) ∧ s.SameOutsideEngine t e

/-- DESTROY of either engine (R175, R206): from every state but UNCONSTRUCTED, FAILED included, the engine is UNCONSTRUCTED with width 0. -/
def Obligations.DestroyReleasesEngine : Prop :=
  ∀ (e : EngineSel) (s : State), s.Ready e.destroy → (s.engine e).st ≠ .unconstructed →
    ∃ t, exec e.destroy s = .next t ∧ s.Succeeded t ∧ (t.engine e).st = .unconstructed ∧ (t.engine e).width = none ∧
      s.SameOutsideEngine t e ∧ s.SameMemory t

/-- R170: the state machine of the streaming engines: every parenthesised entry, with no change but to STATUS; every transition of a successful command; and
a bus error in ADD or DIGEST moves the engine to FAILED. -/
def Obligations.StreamStateMachine : Prop :=
  ∀ (e : EngineSel) (s : State),
    (∀ i ∈ [e.init, e.add, e.digest, e.destroy], s.Ready i → (s.engine e).st = .unconstructed →
      exec i s = .next (s.raise .notConstructed)) ∧
    (s.Ready e.construct → (s.engine e).st ≠ .unconstructed → exec e.construct s = .next (s.raise .alreadyConstructed)) ∧
    (∀ i ∈ [e.init, e.add, e.digest], s.Ready i → (s.engine e).st = .failed → exec i s = .next (s.raise .engineFailed)) ∧
    (s.Ready e.add → (s.engine e).st = .finalized → exec e.add s = .next (s.raise .addAfterFinal)) ∧
    (s.Ready e.digest → (s.engine e).st = .finalized → exec e.digest s = .next (s.raise .digestAfterFinal)) ∧
    (∀ p ∈ [(e.construct, EngineState.fresh), (e.init, .fresh), (e.add, .absorbing), (e.digest, .finalized),
        (e.destroy, .unconstructed)], s.Ready p.1 → ∀ t, exec p.1 s = .next t → t.err = false → (t.engine e).st = p.2) ∧
    ∀ i ∈ [e.add, e.digest], s.Ready i → ∀ t, exec i s = .next t → t.errCode = .busError → (t.engine e).st = .failed

/-- R176, for both engines: after CONSTRUCT or INIT, successful ADDs of any chunks and a successful DIGEST, the digest written is SHA3_d of the chunks
joined, however the message was split. -/
def Obligations.StreamedDigestIsSha3 : Prop :=
  ∀ (e : EngineSel) (start fresh added final : State) (w : Width) (chunks : List (Word × Word)) (dst : Word),
    Memory.wf start.mem → start.race = [] →
    (start.lacksArgs e.construct = false ∧ exec e.construct start = .next fresh) ∨ exec e.init start = .next fresh →
    fresh.err = false → (fresh.engine e).width = some w → addChunks e chunks fresh = some added →
    exec e.digest (added.withArg0 dst) = .next final → final.err = false →
    final.mem.readBytes dst.toNat (dlen w.bits) =
      sha3 w.bits (chunks.flatMap fun c => start.mem.readBytes c.1.toNat c.2.toNat)

/-- R200, R207: where no resource failure is drawn, an ACC command does to the ACC engine what the SEQ command does to a SEQ engine in the same state:
the same engine afterwards, the same STATUS result, the same host memory (but for the bytes a bus error leaves unspecified). -/
def Obligations.AccMatchesSeq : Prop :=
  ∀ (s t u : State) (acc seq : Instr) (p : Option DrawPoint),
    (acc, seq, p) ∈ [(Instr.accConstruct, Instr.seqConstruct, some DrawPoint.accAlloc), (.accInit, .seqInit, some .accInit),
      (.accAdd, .seqAdd, some .accAdd), (.accDigest, .seqDigest, some .accDigest), (.accDestroy, .seqDestroy, none)] →
    (∀ x : Engine, ({ s with acc := x }.drawIf p).1 = none) →
    exec acc s = .next t → exec seq { s with seq := s.acc, acc := s.seq } = .next u →
    u.seq = t.acc ∧ u.acc = t.seq ∧ u.err = t.err ∧ u.errCode = t.errCode ∧ u.faultSeen = t.faultSeen ∧ u.mark = t.mark ∧
      (t.errCode ≠ .busError → u.mem = t.mem) ∧
      (t.errCode = .busError → ∀ a, ¬((outputRegion acc s).1 ≤ a ∧ a < (outputRegion acc s).1 + (outputRegion acc s).2) →
        u.mem.read a = t.mem.read a)

/-- R276 and R273 (a), (b): at each draw point exactly the failures of R276's table can be drawn, and "no failure" at every one; a failed draw (ALLOC_FAILURE)
leaves a constructing engine as it was, and moves any other ACC engine to FAILED with its width kept (TRANSFER_FAILURE in INIT, TRANSFER_FAILURE or
KERNEL_FAILURE in ADD and DIGEST); the code is the drawn one, and no byte outside the output region changes. -/
def Obligations.AccDrawnFailures : Prop :=
  (∀ (p : DrawPoint) (c : ErrCode), (∃ s : State, (s.draw p).1 = some c) ↔ (p, c) ∈ drawTable) ∧
  (∀ p : DrawPoint, ∃ s : State, (s.draw p).1 = none) ∧
  ∀ (s : State) (c : ErrCode),
    (s.Ready .accConstruct → s.acc.st = .unconstructed → (∃ w : Width, (s.arg 0).toNat = w.bits) →
      (s.draw .accAlloc).1 = some c →
      c = .allocFailure ∧ ∃ t, exec .accConstruct s = .next t ∧ t.FailedWith c ∧ t.acc = s.acc ∧ s.SameOutsideEngine t .acc ∧ s.SameMemory t) ∧
    (s.Ready .accInit → s.acc.st ≠ .unconstructed → s.acc.st ≠ .failed → (s.draw .accInit).1 = some c →
      c = .transferFailure ∧ ∃ t, exec .accInit s = .next t ∧ t.FailedWith c ∧ t.acc.st = .failed ∧ t.acc.width = s.acc.width ∧
        s.SameOutsideEngine t .acc ∧ s.SameMemory t) ∧
    (s.Ready .accAdd → s.acc.st = .fresh ∨ s.acc.st = .absorbing → s.Accessible (s.argNat 0) (s.argNat 1) →
      (∀ x : Engine, ({ s with acc := x }.draw .accAdd).1 = some c) →
      (c = .transferFailure ∨ c = .kernelFailure) ∧
      ∃ t, exec .accAdd s = .next t ∧ t.FailedWith c ∧ t.acc.st = .failed ∧ t.acc.width = s.acc.width ∧
        s.SameOutsideEngine t .acc ∧ s.SameMemory t) ∧
    (s.Ready .accDigest → s.acc.st = .fresh ∨ s.acc.st = .absorbing → rangeOk (s.argNat 0) s.acc.dlen = true →
      (∀ x : Engine, ({ s with acc := x }.draw .accDigest).1 = some c) →
      (c = .transferFailure ∨ c = .kernelFailure) ∧
      ∃ t, exec .accDigest s = .next t ∧ t.FailedWith c ∧ t.acc.st = .failed ∧ t.acc.width = s.acc.width ∧
        s.SameOutsideEngine t .acc ∧ s.SameMemoryOutside t (s.argNat 0, s.acc.dlen))

/-- R274: a FAILED engine accepts only DESTROY, and CONSTRUCT fails with ALREADY_CONSTRUCTED; every other command to it fails with ENGINE_FAILED and changes
nothing but STATUS; reset leaves FAILED; and a command to one engine never changes another engine or the RAW unit. -/
def Obligations.FailedEngineOnlyDestroys : Prop :=
  (∀ (e : EngineSel) (s : State), (s.engine e).st = .failed →
      (∀ i ∈ [e.init, e.add, e.digest], s.Ready i → exec i s = .next (s.raise .engineFailed)) ∧
      (s.Ready e.construct → exec e.construct s = .next (s.raise .alreadyConstructed)) ∧
      (s.Ready e.destroy → ∃ t, exec e.destroy s = .next t ∧ t.err = false ∧ (t.engine e).st = .unconstructed) ∧
      (s.applyReset.engine e).st = .unconstructed) ∧
    (∀ s : State, s.bat.st = .failed →
      (∀ i ∈ [Instr.batCalculate, .batSize], s.Ready i → exec i s = .next (s.raise .engineFailed)) ∧
      (s.Ready .batConstruct → exec .batConstruct s = .next (s.raise .alreadyConstructed)) ∧
      (s.Ready .batDestroy → ∃ t, exec .batDestroy s = .next t ∧ t.err = false ∧ t.bat.st = .unconstructed) ∧
      s.applyReset.bat.st = .unconstructed) ∧
    ∀ (i : Instr) (s t : State), exec i s = .next t →
      (i.unit ≠ 0 → i.unit ≠ 1 → t.raw = s.raw) ∧ (i.unit ≠ 2 → t.seq = s.seq) ∧ (i.unit ≠ 3 → t.acc = s.acc) ∧
        (i.unit ≠ 4 → t.bat = s.bat)

/-! ### The batch engine -/

/-- R231: BAT_CONSTRUCT from UNCONSTRUCTED with a legal width: READY with that width and every lane inactive if no failure is drawn; ALLOC_FAILURE with the
engine as it was if one is. -/
def Obligations.BatConstructMakesReady : Prop :=
  ∀ (s : State) (w : Width), s.Ready .batConstruct → s.bat.st = .unconstructed → (s.arg 0).toNat = w.bits →
    ((s.draw .batAlloc).1 = none → ∃ t, exec .batConstruct s = .next t ∧ s.Succeeded t ∧ t.bat.st = .ready ∧
      t.bat.width = some w ∧ t.bat.lanes.length = s.bat.lanes.length ∧ (∀ l ∈ t.bat.lanes, l.active = false) ∧
      s.SameOutsideBat t ∧ t.result = s.result ∧ s.SameMemory t) ∧
    ((s.draw .batAlloc).1 ≠ none → ∃ t, exec .batConstruct s = .next t ∧ t.FailedWith .allocFailure ∧ t.bat = s.bat ∧
      s.SameOutsideBat t ∧ t.result = s.result ∧ s.SameMemory t)

/-- R246: BAT_SIZE with the engine READY writes C to RESULT, as its low 64 bits: the model's choice for a C of 2^64 or more (DESIGN CHOICE,
log entry 3); C is at least 1 and rounding a larger batch down to a multiple of it keeps a full lane's worth. -/
def Obligations.BatSizeWritesCapacity : Prop :=
  ∀ s : State, s.Ready .batSize →
    1 ≤ s.platform.laneCapacity ∧
    (∀ b, s.platform.laneCapacity ≤ b → s.platform.laneCapacity ≤ b / s.platform.laneCapacity * s.platform.laneCapacity) ∧
    (s.bat.st = .ready → ∃ t, exec .batSize s = .next t ∧ s.Succeeded t ∧
      t.result = BitVec.ofNat 64 s.platform.laneCapacity ∧ t.bat = s.bat ∧ s.SameOutsideBat t ∧ s.SameMemory t) ∧
    (s.bat.st = .unconstructed → exec .batSize s = .next (s.raise .notConstructed)) ∧
    (s.bat.st = .failed → exec .batSize s = .next (s.raise .engineFailed))

/-- R247: BAT_DESTROY from READY or FAILED leaves the engine UNCONSTRUCTED with width 0. -/
def Obligations.BatDestroyReleases : Prop :=
  ∀ s : State, s.Ready .batDestroy →
    (s.bat.st ≠ .unconstructed → ∃ t, exec .batDestroy s = .next t ∧ s.Succeeded t ∧ t.bat.st = .unconstructed ∧
      t.bat.width = none ∧ (∀ l ∈ t.bat.lanes, l.active = false) ∧ s.SameOutsideBat t ∧ t.result = s.result ∧
      s.SameMemory t) ∧
    (s.bat.st = .unconstructed → exec .batDestroy s = .next (s.raise .notConstructed))

/-- R241: an empty message list completes successfully, reads no table, writes nothing, draws no failure. -/
def Obligations.BatEmptyList : Prop :=
  ∀ s : State, s.Ready .batCalculate → s.bat.st = .ready → s.arg 1 = 0 → s.arg 3 = 0 →
    exec .batCalculate s = .next { s with err := false, errCode := .ok }

/-- The checks of BAT_CALCULATE in order (R232, R234, R275): lifecycle, LIST_MISMATCH, RANGE of tables and output, then, with the tables read, RANGE of
every message of positive length and the overlap refusal, over the descriptors of R88; each changes STATUS only, or the mark only (log entry 1). -/
def Obligations.BatCalculateChecksInOrder : Prop :=
  ∀ s : State, s.Ready .batCalculate →
    (s.bat.st = .unconstructed → exec .batCalculate s = .next (s.raise .notConstructed)) ∧
    (s.bat.st = .failed → exec .batCalculate s = .next (s.raise .engineFailed)) ∧
    (s.bat.st = .ready → s.arg 1 ≠ s.arg 3 → exec .batCalculate s = .next (s.raise .listMismatch)) ∧
    (s.bat.st = .ready → s.arg 1 = s.arg 3 →
      rangeOk (s.argNat 0) (8 * s.argNat 1) = false ∨ rangeOk (s.argNat 2) (8 * s.argNat 1) = false ∨
        rangeOk (s.argNat 4) (s.argNat 1 * s.bat.dlen) = false →
      exec .batCalculate s = .next (s.raise .range)) ∧
    (s.bat.st = .ready → s.arg 1 = s.arg 3 → s.Accessible (s.argNat 0) (8 * s.argNat 1) →
      s.Accessible (s.argNat 2) (8 * s.argNat 1) → rangeOk (s.argNat 4) (s.argNat 1 * s.bat.dlen) = true →
      let jobs := jobsOf (tableEntries (s.mem.readBytes (s.argNat 0) (8 * s.argNat 1)) (s.argNat 1))
        (tableEntries (s.mem.readBytes (s.argNat 2) (8 * s.argNat 1)) (s.argNat 1))
      DescriptorsOf s jobs ∧
      ((∃ job ∈ jobs, 0 < job.len ∧ 2 ^ 64 < job.ptr + job.len) → exec .batCalculate s = .next (s.raise .range)) ∧
      ((∀ job ∈ jobs, 0 < job.len → job.ptr + job.len ≤ 2 ^ 64) →
        (∃ job ∈ jobs, overlaps (s.argNat 4) (s.argNat 1 * s.bat.dlen) job.ptr job.len = true) ∨
          overlaps (s.argNat 4) (s.argNat 1 * s.bat.dlen) (s.argNat 0) (8 * s.argNat 1) = true ∨
          overlaps (s.argNat 4) (s.argNat 1 * s.bat.dlen) (s.argNat 2) (8 * s.argNat 1) = true →
        exec .batCalculate s = .next { s with mark := some .operandOverlap }))

/-- R235: refill leaves every active lane alone, gives free lanes, lowest index first (below a lane newly assigned no lane stays free), the messages of the
backlog from its front, leaves a lane that stays free as it was, and stops only when no lane is free or the backlog is empty. -/
def Obligations.RefillTakesBacklogInOrder : Prop :=
  ∀ (ls : List BatchLane) (q : List Job),
    (refill ls q).1.length = ls.length ∧
    (∀ (j : Nat) (l : BatchLane), ls[j]? = some l → l.active = true → (refill ls q).1[j]? = some l) ∧
    (∃ taken, q = taken ++ (refill ls q).2 ∧
      ((ls.zip (refill ls q).1).filter fun p => !p.1.active && p.2.active).map Prod.snd = taken.map BatchLane.assign) ∧
    (∀ (j k : Nat) (l m m' : BatchLane), j < k → ls[k]? = some m → m.active = false → (refill ls q).1[k]? = some m' →
      m'.active = true → (refill ls q).1[j]? = some l → l.active = true) ∧
    (∀ (j : Nat) (l : BatchLane), (refill ls q).1[j]? = some l → l.active = false → ls[j]? = some l) ∧
    ((refill ls q).2 = [] ∨ ∀ l ∈ (refill ls q).1, l.active = true)

/-- R248: when BAT_CALCULATE completes successfully (no error, not refused) and no other agent writes memory during it, digest i is SHA3_d of message i, the
message of descriptor i of R88, at its own index, for every capacity C and every number of messages, equal or overlapping messages among them; no byte outside
the output region changes. -/
def Obligations.BatDigestsAreSha3 : Prop :=
  ∀ (s t : State) (w : Width), s.Inv → s.bat.st = .ready → s.bat.width = some w → exec .batCalculate s = .next t →
    t.err = false → t.mark = none →
    let n := s.argNat 1
    let jobs := jobsOf (tableEntries (s.mem.readBytes (s.argNat 0) (8 * n)) n)
      (tableEntries (s.mem.readBytes (s.argNat 2) (8 * n)) n)
    DescriptorsOf s jobs ∧
      (∀ job ∈ jobs, t.mem.readBytes (s.argNat 4 + job.idx * dlen w.bits) (dlen w.bits) =
        sha3 w.bits (s.mem.readBytes job.ptr job.len)) ∧
      s.SameMemoryOutside t (s.argNat 4, n * dlen w.bits)

/-- BAT_CALCULATE completes (R232, R240, R249): with the engine READY, operands accessible, nothing overlapping and no failure answered at as many draws as the
call can take, it succeeds, every digest stands at its message's index (R244, R248, the messages those of R88's descriptors), the engine is READY and every
lane free again, and nothing else changed. -/
def Obligations.BatCalculateCompletes : Prop :=
  ∀ (s : State) (w : Width), s.Inv → s.Ready .batCalculate → s.bat.st = .ready → s.bat.width = some w → s.arg 1 = s.arg 3 →
    let n := s.argNat 1
    let dst := s.argNat 4
    let dl := dlen w.bits
    let jobs := jobsOf (tableEntries (s.mem.readBytes (s.argNat 0) (8 * n)) n)
      (tableEntries (s.mem.readBytes (s.argNat 2) (8 * n)) n)
    s.Accessible (s.argNat 0) (8 * n) → s.Accessible (s.argNat 2) (8 * n) → s.Accessible dst (n * dl) →
    (∀ job ∈ jobs, s.Accessible job.ptr job.len ∧ overlaps dst (n * dl) job.ptr job.len = false) →
    overlaps dst (n * dl) (s.argNat 0) (8 * n) = false → overlaps dst (n * dl) (s.argNat 2) (8 * n) = false →
    (∃ rest, s.env =
      List.replicate (2 * (jobs.map fun job => job.len / rate w.bits + 1).sum + n) EnvAnswer.noFailure ++ rest) →
    DescriptorsOf s jobs ∧ ∃ t, exec .batCalculate s = .next t ∧ s.Succeeded t ∧
      (∀ job ∈ jobs, t.mem.readBytes (dst + job.idx * dl) dl = sha3 w.bits (s.mem.readBytes job.ptr job.len)) ∧
      s.SameMemoryOutside t (dst, n * dl) ∧ t.bat.st = .ready ∧ t.bat.width = some w ∧
      (∀ l ∈ t.bat.lanes, l.active = false) ∧ s.SameOutsideBat t ∧ t.result = s.result

/-- R245: BAT_CALCULATE ending with a resource-failure code that the state did not hold before: FAILED, the width kept, every lane inactive, no byte outside
the output region changed, nothing else of the block changed. It ends so, with BUS_ERROR (R69), where the checks before it pass and a byte of a table is not
admitted, and, no failure being answered, where a byte of a message or of the output region is not. And where nothing else fails, the first draw that answers
a failure ends it with that failure's code: TRANSFER_FAILURE at a BAT_TRANSFER or BAT_READBACK draw, KERNEL_FAILURE at a BAT_KERNEL draw (R237-R239, R276), for
every draw of the call (the answers stand in the state's `env`: log entry 5). -/
def Obligations.BatFailureAbortsCall : Prop :=
  let aborted (s t : State) (c : ErrCode) : Prop :=
    t.FailedWith c ∧ t.bat.st = .failed ∧ t.bat.width = s.bat.width ∧ (∀ l ∈ t.bat.lanes, l.active = false) ∧
      s.SameMemoryOutside t (s.argNat 4, s.argNat 1 * dlen (widthBits s.bat.width)) ∧ s.SameOutsideBat t ∧ t.result = s.result
  (∀ s t : State, s.Inv → s.errCode.isResource = false → exec .batCalculate s = .next t → t.errCode.isResource = true →
    aborted s t t.errCode) ∧
  ∀ (s : State) (w : Width), s.Inv → s.Ready .batCalculate → s.bat.st = .ready → s.bat.width = some w → s.arg 1 = s.arg 3 →
    let n := s.argNat 1
    let dst := s.argNat 4
    let out := n * dlen w.bits
    rangeOk (s.argNat 0) (8 * n) = true → rangeOk (s.argNat 2) (8 * n) = true → rangeOk dst out = true →
    (s.NotAdmitted (s.argNat 0) (8 * n) ∨ s.NotAdmitted (s.argNat 2) (8 * n) →
      ∃ t, exec .batCalculate s = .next t ∧ aborted s t .busError) ∧
    (s.Accessible (s.argNat 0) (8 * n) → s.Accessible (s.argNat 2) (8 * n) →
      let jobs := jobsOf (tableEntries (s.mem.readBytes (s.argNat 0) (8 * n)) n)
        (tableEntries (s.mem.readBytes (s.argNat 2) (8 * n)) n)
      (∀ job ∈ jobs, rangeOk job.ptr job.len = true ∧ overlaps dst out job.ptr job.len = false) →
      overlaps dst out (s.argNat 0) (8 * n) = false → overlaps dst out (s.argNat 2) (8 * n) = false →
      (∃ rest, s.env =
        List.replicate (2 * (jobs.map fun job => job.len / rate w.bits + 1).sum + n) EnvAnswer.noFailure ++ rest) →
      (∃ job ∈ jobs, s.NotAdmitted job.ptr job.len) ∨ s.NotAdmitted dst out →
      ∃ t, exec .batCalculate s = .next t ∧ aborted s t .busError) ∧
    (s.Accessible (s.argNat 0) (8 * n) → s.Accessible (s.argNat 2) (8 * n) → s.Accessible dst out →
      let jobs := jobsOf (tableEntries (s.mem.readBytes (s.argNat 0) (8 * n)) n)
        (tableEntries (s.mem.readBytes (s.argNat 2) (8 * n)) n)
      (∀ job ∈ jobs, s.Accessible job.ptr job.len ∧ overlaps dst out job.ptr job.len = false) →
      overlaps dst out (s.argNat 0) (8 * n) = false → overlaps dst out (s.argNat 2) (8 * n) = false →
      ∀ (k : Nat) (p : DrawPoint) (a : EnvAnswer) (c : ErrCode) (rest : List EnvAnswer),
        (callPoints s.platform.laneCapacity (jobs.map fun job => job.len / rate w.bits + 1))[k]? = some p →
        s.env = List.replicate k EnvAnswer.noFailure ++ a :: rest →
        (p, a, c) ∈ [(DrawPoint.batTransfer, EnvAnswer.transferFailure, ErrCode.transferFailure),
          (.batKernel, .kernelFailure, .kernelFailure), (.batReadback, .transferFailure, .transferFailure)] →
        ∃ t, exec .batCalculate s = .next t ∧ aborted s t c)

/-! ### Rules about every command -/

/-- R272: a command that ends with a contract-violation code changes STATUS only; the one other way the code can stand after a command is that the command
was refused, which changes the mark only (R287, log entry 1). -/
def Obligations.ContractViolationChangesStatusOnly : Prop :=
  ∀ (i : Instr) (s t : State), exec i s = .next t → t.errCode.isContract = true →
    t = { s with err := true, errCode := t.errCode, faultSeen := true } ∨ ∃ m, t = { s with mark := some m }

/-- R270, R25-R27: every command ends in success, or in failure with one code, or refused; ERR and ERRCODE are written accordingly, FAULTSEEN is set by every
failure and by nothing else cleared or set. -/
def Obligations.EveryCommandEndsOneWay : Prop :=
  ∀ (i : Instr) (s : State), ∃ t, exec i s = .next t ∧
    ((s.Succeeded t ∧ t.mark = s.mark) ∨
      (∃ c, (c.isContract = true ∨ c.isResource = true) ∧ t.FailedWith c ∧ t.mark = s.mark) ∨
      ∃ m, t = { s with mark := some m })

/-- R30: RESULT is written only by a successful BAT_SIZE, with C, as its low 64 bits: the model's choice for a C of 2^64 or more (DESIGN CHOICE,
log entry 3); it is 0 after reset, a load returns it, a store to it is ignored. -/
def Obligations.ResultOnlyByBatSize : Prop :=
  State.reset.result = 0 ∧
    (∀ s : State, loadWindow 0x38 8 s = { s with loads := bytes64 s.result :: s.loads }) ∧
    (∀ (s : State) (data : List Byte), data.length = 8 → storeWindow 0x38 data s = .next s) ∧
    ∀ (i : Instr) (s t : State), exec i s = .next t → t.result ≠ s.result →
      i = .batSize ∧ t.err = false ∧ t.result = BitVec.ofNat 64 s.platform.laneCapacity

/-! ### Frames -/

/-- The frame of the RAW-unit commands that store nothing: KF_PERMUTE, KF_LOAD, SP_INIT, SP_ABSORB (R120, R121, R150, R151). -/
def Obligations.RawRegisterCommandsFrame : Prop :=
  ∀ (i : Instr) (s t : State), i ∈ [Instr.kfPermute, .kfLoad, .spInit, .spAbsorb] → exec i s = .next t →
    s.SameHostSide t ∧ s.SameEngines t ∧ t.result = s.result ∧ t.env = s.env ∧ s.StickyFault t ∧ s.SameMemory t ∧
      (i ≠ .spInit → t.raw.width = s.raw.width) ∧ (i = .kfPermute → t.raw.svalid = s.raw.svalid)

/-- The frame of the RAW-unit commands that store: KF_STORE stores 200 bytes at ARG0, SP_PAD rate(d) bytes at ARG2, SP_SQUEEZE dlen(d) bytes at ARG0
(R89, R122, R152, R153). RAW.W never changes, and RAW.S and RAW.SVALID only where a bus error invalidates them. -/
def Obligations.RawStoreCommandsFrame : Prop :=
  ∀ (i : Instr) (s t : State), i ∈ [Instr.kfStore, .spPad, .spSqueeze] → exec i s = .next t →
    s.SameHostSide t ∧ s.SameEngines t ∧ t.result = s.result ∧ t.env = s.env ∧ s.StickyFault t ∧
      t.raw.width = s.raw.width ∧ (t.errCode ≠ .busError → t.raw = s.raw) ∧
      (i = .kfStore → s.SameMemoryOutside t (s.argNat 0, 200)) ∧
      (i = .spPad → s.SameMemoryOutside t (s.argNat 2, rate (widthBits s.raw.width))) ∧
      (i = .spSqueeze → s.SameMemoryOutside t (s.argNat 0, dlen (widthBits s.raw.width)))

/-- The frame of the streaming commands: CONSTRUCT, INIT, ADD and DESTROY store nothing, DIGEST stores dlen(d) bytes at ARG0 (R171-R175, R202-R206). Only the
engine the command addresses changes; its width changes only by CONSTRUCT and DESTROY; SEQ commands take no draw. -/
def Obligations.StreamCommandsFrame : Prop :=
  ∀ (e : EngineSel) (i : Instr) (s t : State), i ∈ [e.construct, e.init, e.add, e.digest, e.destroy] → exec i s = .next t →
    s.SameHostSide t ∧ t.raw = s.raw ∧ t.bat = s.bat ∧ (∀ e', e' ≠ e → t.engine e' = s.engine e') ∧ t.result = s.result ∧
      s.StickyFault t ∧ (e = .seq → t.env = s.env) ∧
      (i ≠ e.construct → i ≠ e.destroy → (t.engine e).width = (s.engine e).width) ∧ (i ≠ e.digest → s.SameMemory t) ∧
      (i = e.digest → s.SameMemoryOutside t (s.argNat 0, dlen (widthBits (s.engine e).width)))

/-- The frame of the BAT commands: only BAT_CALCULATE stores, n digests of dlen(d) bytes at ARG4, in a state of the invariant (R89, R231-R247). -/
def Obligations.BatCommandsFrame : Prop :=
  ∀ (i : Instr) (s t : State), s.Inv → i ∈ [Instr.batConstruct, .batCalculate, .batSize, .batDestroy] → exec i s = .next t →
    s.SameHostSide t ∧ t.raw = s.raw ∧ t.seq = s.seq ∧ t.acc = s.acc ∧ s.StickyFault t ∧
      (i ≠ .batSize → t.result = s.result) ∧ (i ≠ .batConstruct → i ≠ .batDestroy → t.bat.width = s.bat.width) ∧
      (i ≠ .batCalculate → s.SameMemory t) ∧
      (i = .batCalculate → s.SameMemoryOutside t (s.argNat 4, s.argNat 1 * dlen (widthBits s.bat.width)))

/-! ### The invariant -/

/-- Every step keeps the invariant, whatever the host does (R38): canonical memory, short buffers, idle lanes, widths exactly where constructed, a consistent
STATUS. -/
def Obligations.StepKeepsTheInvariant : Prop :=
  ∀ s t : State, s.Inv → step s = .next t → t.Inv

/-- The reset state meets the invariant (R38, R300). -/
def Obligations.ResetMeetsTheInvariant : Prop := State.reset.Inv
end

