-- ==== Sys2Proof/Laws/Lanes.lean ====
section
/-! SUPPORT. Lanes, byte order and the sponge functions: the small lemmas of their definitions. -/

namespace Sys2Proof

@[simp] theorem length_bytes64 (v : Word) : (bytes64 v).length = 8 := by simp [bytes64]

theorem leWord_bytes64 (v : Word) : leWord (bytes64 v) = v := by
  apply BitVec.eq_of_getLsbD_eq
  intro i hi
  simp only [bytes64, List.range, List.range.loop, List.map_cons, List.map_nil, leWord, BitVec.getLsbD_or,
    BitVec.getLsbD_setWidth, BitVec.getLsbD_extractLsb', BitVec.getLsbD_shiftLeft, hi]
  interval_cases i <;> simp

end Sys2Proof

namespace Sys2Proof.Machine

theorem laneK_tabulate (f : Nat → Word) {k : Nat} (hk : k < 25) : laneK (tabulate f) k = f k := by
  unfold laneK tabulate
  interval_cases k <;> rfl

theorem lane_tabulate (f : Nat → Word) {x y : Nat} (hx : x < 5) (hy : y < 5) :
    lane (tabulate f) x y = f (x + 5 * y) := by
  rw [lane, Nat.mod_eq_of_lt hx, Nat.mod_eq_of_lt hy, laneK_tabulate f (by omega)]

theorem lanes_ext {A B : Lanes} (h : ∀ k, k < 25 → laneK A k = laneK B k) : A = B := by
  apply Vector.ext
  intro k hk
  have := h k hk
  simpa [laneK, hk] using this

theorem tabulate_laneK (A : Lanes) : tabulate (laneK A) = A :=
  lanes_ext fun _ hk => laneK_tabulate _ hk

theorem length_flatMap_bytes64 (ws : List Word) : (ws.flatMap bytes64).length = 8 * ws.length := by
  induction ws with
  | nil => rfl
  | cons w ws ih => simp [ih]; omega

@[simp] theorem length_stateToBytes (S : Lanes) : (stateToBytes S).length = 200 := by
  simp [stateToBytes]

theorem dlen_widthBits_le (w : Option Width) : dlen (widthBits w) ≤ 200 := by
  rcases w with _ | w
  · decide
  · cases w <;> decide

@[simp] theorem length_squeeze (S : Lanes) (w : Option Width) :
    (squeeze S (widthBits w)).length = dlen (widthBits w) := by
  simp [squeeze, dlen_widthBits_le]

theorem rate_widthBits_pos (w : Option Width) : 0 < rate (widthBits w) := by
  rcases w with _ | w
  · decide
  · cases w <;> decide

theorem length_pad {r : Nat} {m : List Byte} (h : m.length < r) : (pad r m).length = r := by
  simp [pad]; omega

/-- Absorbing block by block: the first `q + p` blocks are the first `q` and then the next `p`. -/
theorem absorbBlocks_add (r q p : Nat) (S : Lanes) (t : List Byte) :
    absorbBlocks r (q + p) S t = absorbBlocks r p (absorbBlocks r q S t).1 (absorbBlocks r q S t).2 := by
  induction q generalizing S t with
  | zero => simp [absorbBlocks]
  | succ q ih => rw [show q + 1 + p = (q + p) + 1 by omega, absorbBlocks, ih]; rfl

theorem absorbBlocks_rest (r q : Nat) (S : Lanes) (t : List Byte) : (absorbBlocks r q S t).2 = t.drop (r * q) := by
  induction q generalizing S t with
  | zero => simp [absorbBlocks]
  | succ q ih => rw [absorbBlocks, ih, List.drop_drop]; congr 1; ring

/-- Bytes behind the absorbed blocks do not matter to the state reached. -/
theorem absorbBlocks_append (r q : Nat) (S : Lanes) (t u : List Byte) (h : r * q ≤ t.length) :
    (absorbBlocks r q S (t ++ u)).1 = (absorbBlocks r q S t).1 := by
  induction q generalizing S t with
  | zero => simp [absorbBlocks]
  | succ q ih =>
    have hr : r ≤ t.length := by
      have : r * (q + 1) = r * q + r := by ring
      omega
    rw [absorbBlocks, absorbBlocks, List.take_append_of_le_length hr, List.drop_append_of_le_length hr]
    refine ih _ _ ?_
    have : r * (q + 1) = r * q + r := by ring
    simp; omega

theorem absorbFull_rest (r : Nat) (S : Lanes) (t : List Byte) :
    (absorbFull r S t).2 = t.drop (r * (t.length / r)) := absorbBlocks_rest _ _ _ _

theorem length_absorbFull_rest {r : Nat} (hr : 0 < r) (S : Lanes) (t : List Byte) : (absorbFull r S t).2.length < r := by
  rw [absorbFull_rest, List.length_drop]
  have := Nat.div_add_mod t.length r
  have := Nat.mod_lt t.length hr
  omega

end Sys2Proof.Machine
end

