-- ==== Sys2Proof/Laws/Memory.lean ====
section
/-! SUPPORT. Host memory: read after write, what a write leaves alone, and that every memory operation keeps the canonical form. -/

namespace Sys2Proof.Machine

theorem Memory.read_insert (m : Memory) (a b : Nat) (v : Byte) :
    (m.insert a v).read b = if b = a then v else m.read b := by
  induction m with
  | nil => simp [Memory.insert, Memory.read, eq_comm]
  | cons c m ih =>
    simp only [Memory.insert]
    split
    · by_cases h : a = b <;> simp [Memory.read, h, eq_comm]
    · split
      · rename_i h; subst h
        by_cases h : c.1 = b
        · simp [Memory.read, h]
        · simp [Memory.read, h, Ne.symm h]
      · rename_i h1 h2
        by_cases h : c.1 = b
        · have : ¬ b = a := by omega
          simp [Memory.read, h, this]
        · simp [Memory.read, h, ih]

theorem Memory.read_erase_other (m : Memory) {a b : Nat} (h : b ≠ a) : (m.erase a).read b = m.read b := by
  induction m with
  | nil => rfl
  | cons c m ih =>
    simp only [Memory.erase]
    split
    · rename_i hc
      have : ¬ c.1 = b := by omega
      simp [Memory.read, this]
    · by_cases hb : c.1 = b <;> simp [Memory.read, hb, ih]

theorem Memory.read_of_all_ne (m : Memory) (a : Nat) (h : ∀ c ∈ m, c.1 ≠ a) : m.read a = Memory.unlisted := by
  induction m with
  | nil => rfl
  | cons c m ih =>
    have hc : c.1 ≠ a := h c (by simp)
    simp only [Memory.read, if_neg hc]
    exact ih fun d hd => h d (by simp [hd])

theorem Memory.read_erase_same (m : Memory) (a : Nat) (h : m.Pairwise fun c d => c.1 < d.1) :
    (m.erase a).read a = Memory.unlisted := by
  induction m with
  | nil => rfl
  | cons c m ih =>
    rw [List.pairwise_cons] at h
    simp only [Memory.erase]
    split
    · rename_i hc
      exact Memory.read_of_all_ne m a fun d hd => by have := h.1 d hd; omega
    · rename_i hc
      simpa [Memory.read, hc] using ih h.2

theorem Memory.read_write_same (m : Memory) {a : Nat} (v : Byte) (h : Memory.wf m) (ha : a < 2 ^ 64) :
    (m.write a v).read a = v := by
  unfold Memory.write
  rw [if_pos ha]
  split
  · rename_i hv; rw [Memory.read_erase_same m a h.1, hv]
  · simp [Memory.read_insert]

theorem Memory.read_write_other (m : Memory) {a b : Nat} (v : Byte) (h : b ≠ a) : (m.write a v).read b = m.read b := by
  unfold Memory.write
  split
  · split
    · exact Memory.read_erase_other m h
    · simp [Memory.read_insert, h]
  · rfl

theorem Memory.mem_erase {m : Memory} {a : Nat} {c : Host.Cell} (h : c ∈ m.erase a) : c ∈ m := by
  induction m with
  | nil => exact h
  | cons d m ih =>
    simp only [Memory.erase] at h
    split at h
    · exact List.mem_cons_of_mem _ h
    · rcases List.mem_cons.1 h with rfl | h
      · exact List.mem_cons_self
      · exact List.mem_cons_of_mem _ (ih h)

theorem Memory.mem_insert {m : Memory} {a : Nat} {v : Byte} {c : Host.Cell} (h : c ∈ m.insert a v) :
    c = (a, v) ∨ c ∈ m := by
  induction m with
  | nil => simpa [Memory.insert] using h
  | cons d m ih =>
    simp only [Memory.insert] at h
    split at h
    · simpa using h
    · split at h
      · rcases List.mem_cons.1 h with h | h
        · exact .inl h
        · exact .inr (List.mem_cons_of_mem _ h)
      · rcases List.mem_cons.1 h with rfl | h
        · exact .inr List.mem_cons_self
        · exact (ih h).imp_right (List.mem_cons_of_mem _)

theorem Memory.erase_pairwise {m : Memory} (a : Nat) (h : m.Pairwise fun c d => c.1 < d.1) :
    (m.erase a).Pairwise fun c d => c.1 < d.1 := by
  induction m with
  | nil => exact h
  | cons d m ih =>
    rw [List.pairwise_cons] at h
    simp only [Memory.erase]
    split
    · exact h.2
    · exact List.pairwise_cons.2 ⟨fun c hc => h.1 c (Memory.mem_erase hc), ih h.2⟩

theorem Memory.insert_pairwise {m : Memory} (a : Nat) (v : Byte) (h : m.Pairwise fun c d => c.1 < d.1) :
    (m.insert a v).Pairwise fun c d => c.1 < d.1 := by
  induction m with
  | nil => simp [Memory.insert]
  | cons d m ih =>
    have hd := List.pairwise_cons.1 h
    simp only [Memory.insert]
    split
    · rename_i ha
      refine List.pairwise_cons.2 ⟨fun c hc => ?_, h⟩
      rcases List.mem_cons.1 hc with rfl | hc
      · exact ha
      · have := hd.1 c hc; simp only; omega
    · split
      · rename_i ha
        exact List.pairwise_cons.2 ⟨fun c hc => by have := hd.1 c hc; simp only; omega, hd.2⟩
      · rename_i h1 h2
        refine List.pairwise_cons.2 ⟨fun c hc => ?_, ih hd.2⟩
        rcases Memory.mem_insert hc with rfl | hc
        · simp only; omega
        · exact hd.1 c hc

theorem Memory.write_wf {m : Memory} (a : Nat) (v : Byte) (h : Memory.wf m) : Memory.wf (m.write a v) := by
  unfold Memory.write
  split
  · rename_i ha
    split
    · exact ⟨Memory.erase_pairwise a h.1, fun c hc => h.2 c (Memory.mem_erase hc)⟩
    · rename_i hv
      refine ⟨Memory.insert_pairwise a v h.1, fun c hc => ?_⟩
      rcases Memory.mem_insert hc with rfl | hc
      · exact ⟨ha, hv⟩
      · exact h.2 c hc
  · exact h

theorem Memory.writeBytes_wf {m : Memory} (a : Nat) (bs : List Byte) (h : Memory.wf m) :
    Memory.wf (m.writeBytes a bs) := by
  induction bs generalizing a with
  | nil => exact h
  | cons b bs ih => exact Memory.write_wf a b (ih (a + 1))

theorem Memory.read_writeBytes_outside (m : Memory) (a : Nat) (bs : List Byte) {b : Nat}
    (h : b < a ∨ a + bs.length ≤ b) : (m.writeBytes a bs).read b = m.read b := by
  induction bs generalizing a with
  | nil => rfl
  | cons v bs ih =>
    simp only [List.length_cons] at h
    rw [Memory.writeBytes, Memory.read_write_other _ _ (by omega), ih (a + 1) (by omega)]

theorem Memory.read_writeBytes_inside (m : Memory) (a : Nat) (bs : List Byte) (k : Nat) (hk : k < bs.length)
    (h : Memory.wf m) (ha : a + bs.length ≤ 2 ^ 64) : (m.writeBytes a bs).read (a + k) = bs[k] := by
  induction bs generalizing a k with
  | nil => simp at hk
  | cons v bs ih =>
    simp only [List.length_cons] at ha hk
    rw [Memory.writeBytes]
    cases k with
    | zero => exact Memory.read_write_same _ v (Memory.writeBytes_wf _ _ h) (by omega)
    | succ k =>
      rw [Memory.read_write_other _ _ (by omega), show a + (k + 1) = (a + 1) + k by omega,
        ih (a + 1) k (by omega) (by omega)]
      rfl

/-- Reading back what was written. -/
theorem Memory.readBytes_writeBytes (m : Memory) (a : Nat) (bs : List Byte) (h : Memory.wf m)
    (ha : a + bs.length ≤ 2 ^ 64) : (m.writeBytes a bs).readBytes a bs.length = bs := by
  apply List.ext_getElem
  · simp [Memory.readBytes]
  · intro k h1 h2
    simp only [Memory.readBytes, List.getElem_map, List.getElem_range', Nat.one_mul]
    exact Memory.read_writeBytes_inside m a bs k h2 h ha

@[simp] theorem Memory.length_readBytes (m : Memory) (a n : Nat) : (m.readBytes a n).length = n := by
  simp [Memory.readBytes]

/-- A region that two memories agree on reads the same. -/
theorem Memory.readBytes_congr {m m' : Memory} {a n : Nat} (h : ∀ b, a ≤ b → b < a + n → m.read b = m'.read b) :
    m.readBytes a n = m'.readBytes a n := by
  apply List.ext_getElem (by simp)
  intro k h1 h2
  simp only [Memory.length_readBytes] at h1
  simp only [Memory.readBytes, List.getElem_map, List.getElem_range', Nat.one_mul]
  exact h _ (by omega) (by omega)

end Sys2Proof.Machine
end

