-- ==== Sys2Proof/Laws/State.lean ====
section
/-! SUPPORT. Every field of the state after every named update, one lemma each, so that no proof unfolds a record update. -/

namespace Sys2Proof.Machine

variable (s : State)

@[simp] theorem State.complete_cmd : s.complete.cmd = s.cmd := rfl
@[simp] theorem State.complete_args : s.complete.args = s.args := rfl
@[simp] theorem State.complete_argWritten : s.complete.argWritten = s.argWritten := rfl
@[simp] theorem State.complete_err : s.complete.err = false := rfl
@[simp] theorem State.complete_faultSeen : s.complete.faultSeen = s.faultSeen := rfl
@[simp] theorem State.complete_errCode : s.complete.errCode = .ok := rfl
@[simp] theorem State.complete_result : s.complete.result = s.result := rfl
@[simp] theorem State.complete_raw : s.complete.raw = s.raw := rfl
@[simp] theorem State.complete_seq : s.complete.seq = s.seq := rfl
@[simp] theorem State.complete_acc : s.complete.acc = s.acc := rfl
@[simp] theorem State.complete_bat : s.complete.bat = s.bat := rfl
@[simp] theorem State.complete_mem : s.complete.mem = s.mem := rfl
@[simp] theorem State.complete_platform : s.complete.platform = s.platform := rfl
@[simp] theorem State.complete_mark : s.complete.mark = s.mark := rfl
@[simp] theorem State.complete_env : s.complete.env = s.env := rfl
@[simp] theorem State.complete_free : s.complete.free = s.free := rfl
@[simp] theorem State.complete_race : s.complete.race = s.race := rfl
@[simp] theorem State.complete_pending : s.complete.pending = s.pending := rfl
@[simp] theorem State.complete_loads : s.complete.loads = s.loads := rfl

@[simp] theorem State.raise_cmd (c : ErrCode) : (s.raise c).cmd = s.cmd := rfl
@[simp] theorem State.raise_args (c : ErrCode) : (s.raise c).args = s.args := rfl
@[simp] theorem State.raise_argWritten (c : ErrCode) : (s.raise c).argWritten = s.argWritten := rfl
@[simp] theorem State.raise_err (c : ErrCode) : (s.raise c).err = true := rfl
@[simp] theorem State.raise_faultSeen (c : ErrCode) : (s.raise c).faultSeen = true := rfl
@[simp] theorem State.raise_errCode (c : ErrCode) : (s.raise c).errCode = c := rfl
@[simp] theorem State.raise_result (c : ErrCode) : (s.raise c).result = s.result := rfl
@[simp] theorem State.raise_raw (c : ErrCode) : (s.raise c).raw = s.raw := rfl
@[simp] theorem State.raise_seq (c : ErrCode) : (s.raise c).seq = s.seq := rfl
@[simp] theorem State.raise_acc (c : ErrCode) : (s.raise c).acc = s.acc := rfl
@[simp] theorem State.raise_bat (c : ErrCode) : (s.raise c).bat = s.bat := rfl
@[simp] theorem State.raise_mem (c : ErrCode) : (s.raise c).mem = s.mem := rfl
@[simp] theorem State.raise_platform (c : ErrCode) : (s.raise c).platform = s.platform := rfl
@[simp] theorem State.raise_mark (c : ErrCode) : (s.raise c).mark = s.mark := rfl
@[simp] theorem State.raise_env (c : ErrCode) : (s.raise c).env = s.env := rfl
@[simp] theorem State.raise_free (c : ErrCode) : (s.raise c).free = s.free := rfl
@[simp] theorem State.raise_race (c : ErrCode) : (s.raise c).race = s.race := rfl
@[simp] theorem State.raise_pending (c : ErrCode) : (s.raise c).pending = s.pending := rfl
@[simp] theorem State.raise_loads (c : ErrCode) : (s.raise c).loads = s.loads := rfl

@[simp] theorem State.refuse_cmd (m : Mark) : (s.refuse m).cmd = s.cmd := rfl
@[simp] theorem State.refuse_args (m : Mark) : (s.refuse m).args = s.args := rfl
@[simp] theorem State.refuse_argWritten (m : Mark) : (s.refuse m).argWritten = s.argWritten := rfl
@[simp] theorem State.refuse_err (m : Mark) : (s.refuse m).err = s.err := rfl
@[simp] theorem State.refuse_faultSeen (m : Mark) : (s.refuse m).faultSeen = s.faultSeen := rfl
@[simp] theorem State.refuse_errCode (m : Mark) : (s.refuse m).errCode = s.errCode := rfl
@[simp] theorem State.refuse_result (m : Mark) : (s.refuse m).result = s.result := rfl
@[simp] theorem State.refuse_raw (m : Mark) : (s.refuse m).raw = s.raw := rfl
@[simp] theorem State.refuse_seq (m : Mark) : (s.refuse m).seq = s.seq := rfl
@[simp] theorem State.refuse_acc (m : Mark) : (s.refuse m).acc = s.acc := rfl
@[simp] theorem State.refuse_bat (m : Mark) : (s.refuse m).bat = s.bat := rfl
@[simp] theorem State.refuse_mem (m : Mark) : (s.refuse m).mem = s.mem := rfl
@[simp] theorem State.refuse_platform (m : Mark) : (s.refuse m).platform = s.platform := rfl
@[simp] theorem State.refuse_mark (m : Mark) : (s.refuse m).mark = some m := rfl
@[simp] theorem State.refuse_env (m : Mark) : (s.refuse m).env = s.env := rfl
@[simp] theorem State.refuse_free (m : Mark) : (s.refuse m).free = s.free := rfl
@[simp] theorem State.refuse_race (m : Mark) : (s.refuse m).race = s.race := rfl
@[simp] theorem State.refuse_pending (m : Mark) : (s.refuse m).pending = s.pending := rfl
@[simp] theorem State.refuse_loads (m : Mark) : (s.refuse m).loads = s.loads := rfl

@[simp] theorem State.freeRegion_cmd (a n : Nat) : (s.freeRegion a n).cmd = s.cmd := rfl
@[simp] theorem State.freeRegion_args (a n : Nat) : (s.freeRegion a n).args = s.args := rfl
@[simp] theorem State.freeRegion_argWritten (a n : Nat) : (s.freeRegion a n).argWritten = s.argWritten := rfl
@[simp] theorem State.freeRegion_err (a n : Nat) : (s.freeRegion a n).err = s.err := rfl
@[simp] theorem State.freeRegion_faultSeen (a n : Nat) : (s.freeRegion a n).faultSeen = s.faultSeen := rfl
@[simp] theorem State.freeRegion_errCode (a n : Nat) : (s.freeRegion a n).errCode = s.errCode := rfl
@[simp] theorem State.freeRegion_result (a n : Nat) : (s.freeRegion a n).result = s.result := rfl
@[simp] theorem State.freeRegion_raw (a n : Nat) : (s.freeRegion a n).raw = s.raw := rfl
@[simp] theorem State.freeRegion_seq (a n : Nat) : (s.freeRegion a n).seq = s.seq := rfl
@[simp] theorem State.freeRegion_acc (a n : Nat) : (s.freeRegion a n).acc = s.acc := rfl
@[simp] theorem State.freeRegion_bat (a n : Nat) : (s.freeRegion a n).bat = s.bat := rfl
@[simp] theorem State.freeRegion_mem (a n : Nat) : (s.freeRegion a n).mem = Memory.writeBytes s.mem a ((List.range' a n).map (Config.freeByte s.free)) := rfl
@[simp] theorem State.freeRegion_platform (a n : Nat) : (s.freeRegion a n).platform = s.platform := rfl
@[simp] theorem State.freeRegion_mark (a n : Nat) : (s.freeRegion a n).mark = s.mark := rfl
@[simp] theorem State.freeRegion_env (a n : Nat) : (s.freeRegion a n).env = s.env := rfl
@[simp] theorem State.freeRegion_free (a n : Nat) : (s.freeRegion a n).free = s.free + 1 := rfl
@[simp] theorem State.freeRegion_race (a n : Nat) : (s.freeRegion a n).race = s.race := rfl
@[simp] theorem State.freeRegion_pending (a n : Nat) : (s.freeRegion a n).pending = s.pending := rfl
@[simp] theorem State.freeRegion_loads (a n : Nat) : (s.freeRegion a n).loads = s.loads := rfl

@[simp] theorem State.setLanes_cmd (ls : List BatchLane) : (s.setLanes ls).cmd = s.cmd := rfl
@[simp] theorem State.setLanes_args (ls : List BatchLane) : (s.setLanes ls).args = s.args := rfl
@[simp] theorem State.setLanes_argWritten (ls : List BatchLane) : (s.setLanes ls).argWritten = s.argWritten := rfl
@[simp] theorem State.setLanes_err (ls : List BatchLane) : (s.setLanes ls).err = s.err := rfl
@[simp] theorem State.setLanes_faultSeen (ls : List BatchLane) : (s.setLanes ls).faultSeen = s.faultSeen := rfl
@[simp] theorem State.setLanes_errCode (ls : List BatchLane) : (s.setLanes ls).errCode = s.errCode := rfl
@[simp] theorem State.setLanes_result (ls : List BatchLane) : (s.setLanes ls).result = s.result := rfl
@[simp] theorem State.setLanes_raw (ls : List BatchLane) : (s.setLanes ls).raw = s.raw := rfl
@[simp] theorem State.setLanes_seq (ls : List BatchLane) : (s.setLanes ls).seq = s.seq := rfl
@[simp] theorem State.setLanes_acc (ls : List BatchLane) : (s.setLanes ls).acc = s.acc := rfl
@[simp] theorem State.setLanes_bat (ls : List BatchLane) : (s.setLanes ls).bat = { st := s.bat.st, width := s.bat.width, lanes := ls } := rfl
@[simp] theorem State.setLanes_mem (ls : List BatchLane) : (s.setLanes ls).mem = s.mem := rfl
@[simp] theorem State.setLanes_platform (ls : List BatchLane) : (s.setLanes ls).platform = s.platform := rfl
@[simp] theorem State.setLanes_mark (ls : List BatchLane) : (s.setLanes ls).mark = s.mark := rfl
@[simp] theorem State.setLanes_env (ls : List BatchLane) : (s.setLanes ls).env = s.env := rfl
@[simp] theorem State.setLanes_free (ls : List BatchLane) : (s.setLanes ls).free = s.free := rfl
@[simp] theorem State.setLanes_race (ls : List BatchLane) : (s.setLanes ls).race = s.race := rfl
@[simp] theorem State.setLanes_pending (ls : List BatchLane) : (s.setLanes ls).pending = s.pending := rfl
@[simp] theorem State.setLanes_loads (ls : List BatchLane) : (s.setLanes ls).loads = s.loads := rfl

@[simp] theorem State.rawBusError_cmd : s.rawBusError.cmd = s.cmd := rfl
@[simp] theorem State.rawBusError_args : s.rawBusError.args = s.args := rfl
@[simp] theorem State.rawBusError_argWritten : s.rawBusError.argWritten = s.argWritten := rfl
@[simp] theorem State.rawBusError_err : s.rawBusError.err = true := rfl
@[simp] theorem State.rawBusError_faultSeen : s.rawBusError.faultSeen = true := rfl
@[simp] theorem State.rawBusError_errCode : s.rawBusError.errCode = .busError := rfl
@[simp] theorem State.rawBusError_result : s.rawBusError.result = s.result := rfl
@[simp] theorem State.rawBusError_raw : s.rawBusError.raw = { lanes := Config.freeLanes s.free, svalid := false, width := s.raw.width } := rfl
@[simp] theorem State.rawBusError_seq : s.rawBusError.seq = s.seq := rfl
@[simp] theorem State.rawBusError_acc : s.rawBusError.acc = s.acc := rfl
@[simp] theorem State.rawBusError_bat : s.rawBusError.bat = s.bat := rfl
@[simp] theorem State.rawBusError_mem : s.rawBusError.mem = s.mem := rfl
@[simp] theorem State.rawBusError_platform : s.rawBusError.platform = s.platform := rfl
@[simp] theorem State.rawBusError_mark : s.rawBusError.mark = s.mark := rfl
@[simp] theorem State.rawBusError_env : s.rawBusError.env = s.env := rfl
@[simp] theorem State.rawBusError_free : s.rawBusError.free = s.free + 1 := rfl
@[simp] theorem State.rawBusError_race : s.rawBusError.race = s.race := rfl
@[simp] theorem State.rawBusError_pending : s.rawBusError.pending = s.pending := rfl
@[simp] theorem State.rawBusError_loads : s.rawBusError.loads = s.loads := rfl

@[simp] theorem State.setEngine_cmd (e : EngineSel) (x : Engine) : (s.setEngine e x).cmd = s.cmd := by cases e <;> rfl
@[simp] theorem State.setEngine_args (e : EngineSel) (x : Engine) : (s.setEngine e x).args = s.args := by cases e <;> rfl
@[simp] theorem State.setEngine_argWritten (e : EngineSel) (x : Engine) : (s.setEngine e x).argWritten = s.argWritten := by cases e <;> rfl
@[simp] theorem State.setEngine_err (e : EngineSel) (x : Engine) : (s.setEngine e x).err = s.err := by cases e <;> rfl
@[simp] theorem State.setEngine_faultSeen (e : EngineSel) (x : Engine) : (s.setEngine e x).faultSeen = s.faultSeen := by cases e <;> rfl
@[simp] theorem State.setEngine_errCode (e : EngineSel) (x : Engine) : (s.setEngine e x).errCode = s.errCode := by cases e <;> rfl
@[simp] theorem State.setEngine_result (e : EngineSel) (x : Engine) : (s.setEngine e x).result = s.result := by cases e <;> rfl
@[simp] theorem State.setEngine_raw (e : EngineSel) (x : Engine) : (s.setEngine e x).raw = s.raw := by cases e <;> rfl
@[simp] theorem State.setEngine_bat (e : EngineSel) (x : Engine) : (s.setEngine e x).bat = s.bat := by cases e <;> rfl
@[simp] theorem State.setEngine_mem (e : EngineSel) (x : Engine) : (s.setEngine e x).mem = s.mem := by cases e <;> rfl
@[simp] theorem State.setEngine_platform (e : EngineSel) (x : Engine) : (s.setEngine e x).platform = s.platform := by cases e <;> rfl
@[simp] theorem State.setEngine_mark (e : EngineSel) (x : Engine) : (s.setEngine e x).mark = s.mark := by cases e <;> rfl
@[simp] theorem State.setEngine_env (e : EngineSel) (x : Engine) : (s.setEngine e x).env = s.env := by cases e <;> rfl
@[simp] theorem State.setEngine_free (e : EngineSel) (x : Engine) : (s.setEngine e x).free = s.free := by cases e <;> rfl
@[simp] theorem State.setEngine_race (e : EngineSel) (x : Engine) : (s.setEngine e x).race = s.race := by cases e <;> rfl
@[simp] theorem State.setEngine_pending (e : EngineSel) (x : Engine) : (s.setEngine e x).pending = s.pending := by cases e <;> rfl
@[simp] theorem State.setEngine_loads (e : EngineSel) (x : Engine) : (s.setEngine e x).loads = s.loads := by cases e <;> rfl
@[simp] theorem State.setEngine_engine (e : EngineSel) (x : Engine) : (s.setEngine e x).engine e = x := by cases e <;> rfl
@[simp] theorem State.setSeq_seq (x : Engine) : (s.setEngine .seq x).seq = x := rfl
@[simp] theorem State.setSeq_acc (x : Engine) : (s.setEngine .seq x).acc = s.acc := rfl
@[simp] theorem State.setAcc_acc (x : Engine) : (s.setEngine .acc x).acc = x := rfl
@[simp] theorem State.setAcc_seq (x : Engine) : (s.setEngine .acc x).seq = s.seq := rfl
@[simp] theorem State.engine_seq : s.engine .seq = s.seq := rfl
@[simp] theorem State.engine_acc : s.engine .acc = s.acc := rfl

end Sys2Proof.Machine
end

