-- ==== Sys2Proof/Laws/Exec.lean ====
section
/-! SUPPORT. What each shared operation can do, said once: how a command concludes, what a draw, a read and a write answer, and `exec` as checks followed
by an effect. -/

namespace Sys2Proof.Machine

/-- The effect of each command once its checks pass. -/
def effectOf : Instr → State → State
  | .kfPermute, s => effectKfPermute s
  | .kfLoad, s => effectKfLoad s
  | .kfStore, s => effectKfStore s
  | .spInit, s => effectSpInit s
  | .spAbsorb, s => effectSpAbsorb s
  | .spPad, s => effectSpPad s
  | .spSqueeze, s => effectSpSqueeze s
  | .seqConstruct, s => effectConstruct .seq none s
  | .seqInit, s => effectInit .seq none s
  | .seqAdd, s => effectAdd .seq none s
  | .seqDigest, s => effectDigest .seq none s
  | .seqDestroy, s => effectDestroy .seq s
  | .accConstruct, s => effectConstruct .acc (some .accAlloc) s
  | .accInit, s => effectInit .acc (some .accInit) s
  | .accAdd, s => effectAdd .acc (some .accAdd) s
  | .accDigest, s => effectDigest .acc (some .accDigest) s
  | .accDestroy, s => effectDestroy .acc s
  | .batConstruct, s => effectBatConstruct s
  | .batCalculate, s => effectBatCalculate s
  | .batSize, s => effectBatSize s
  | .batDestroy, s => effectBatDestroy s

/-- Every command is its checks and then its effect, and always answers a next state. -/
theorem exec_eq (i : Instr) (s : State) : exec i s = .next (s.conclude (checksOf i s) (effectOf i s)) := by
  cases i <;> rfl

theorem exec_next {i : Instr} {s t : State} (h : exec i s = .next t) : t = s.conclude (checksOf i s) (effectOf i s) := by
  rw [exec_eq] at h; exact (Host.Outcome.next.inj h).symm

@[simp] theorem State.conclude_pass (s e : State) : s.conclude .pass e = e := rfl
@[simp] theorem State.conclude_err (s e : State) (c : ErrCode) : s.conclude (.err c) e = s.raise c := rfl
@[simp] theorem State.conclude_refuse (s e : State) (m : Mark) : s.conclude (.refuse m) e = s.refuse m := rfl

@[simp] theorem Verdict.when_true (v : Verdict) : Verdict.when true v = v := rfl
@[simp] theorem Verdict.when_false (v : Verdict) : Verdict.when false v = .pass := rfl
@[simp] theorem Verdict.first_nil : Verdict.first [] = .pass := rfl
@[simp] theorem Verdict.first_pass (vs : List Verdict) : Verdict.first (.pass :: vs) = Verdict.first vs := rfl
@[simp] theorem Verdict.first_err (c : ErrCode) (vs : List Verdict) : Verdict.first (.err c :: vs) = .err c := rfl
@[simp] theorem Verdict.first_refuse (m : Mark) (vs : List Verdict) : Verdict.first (.refuse m :: vs) = .refuse m := rfl

/-- A draw touches the list of answers and the counter only. -/
theorem State.draw_state (s : State) (p : DrawPoint) : ∃ e f, (s.draw p).2 = { s with env := e, free := f } := by
  unfold State.draw
  split
  · exact ⟨_, _, rfl⟩
  · exact ⟨_, _, rfl⟩

theorem State.drawIf_state (s : State) (p : Option DrawPoint) : ∃ e f, (s.drawIf p).2 = { s with env := e, free := f } := by
  cases p with
  | none => exact ⟨s.env, s.free, rfl⟩
  | some p => exact s.draw_state p

theorem failureAt_resource {p : DrawPoint} {a : EnvAnswer} {c : ErrCode} (h : failureAt p a = some c) : c.isResource = true := by
  cases p <;> cases a <;> simp [failureAt] at h <;> subst h <;> rfl

/-- A draw fails with a resource failure only. -/
theorem State.draw_resource {s : State} {p : DrawPoint} {c : ErrCode} (h : (s.draw p).1 = some c) : c.isResource = true := by
  unfold State.draw at h
  split at h <;> exact failureAt_resource h

theorem State.draw_noFailure {s : State} {p : DrawPoint} {rest : List EnvAnswer} (h : s.env = .noFailure :: rest) :
    s.draw p = (none, { s with env := rest }) := by
  unfold State.draw
  rw [h]
  cases p <;> rfl

theorem State.memWrite_some {s t : State} {a : Nat} {bs : List Byte} (h : s.memWrite a bs = some t) :
    s.platform.admitsAll a bs.length = true ∧ t = { s with mem := Memory.writeBytes s.mem a bs } := by
  unfold State.memWrite at h
  split at h
  · rename_i h'; exact ⟨h', (Option.some.inj h).symm⟩
  · cases h

theorem State.busByte_quiet {s : State} (h : s.race = []) (reader a : Nat) : s.busByte reader a = s.mem.read a := by
  simp [State.busByte, h]

/-- With no race a read sees memory. -/
theorem State.memRead_quiet {s : State} (h : s.race = []) (reader a n : Nat) :
    s.memRead reader a n = if s.platform.admitsAll a n then some (s.mem.readBytes a n) else none := by
  have : s.busByte reader = s.mem.read := funext fun b => State.busByte_quiet h reader b
  simp [State.memRead, Memory.readBytes, this]

theorem State.memRead_length {s : State} {reader a n : Nat} {bs : List Byte} (h : s.memRead reader a n = some bs) :
    bs.length = n := by
  unfold State.memRead at h
  split at h
  · rw [← Option.some.inj h]; simp
  · cases h

/-- An unspecified region changes no byte outside it. -/
theorem State.freeRegion_outside (s : State) {a n b : Nat} (h : b < a ∨ a + n ≤ b) :
    (s.freeRegion a n).mem.read b = s.mem.read b := by
  rw [State.freeRegion_mem, Memory.read_writeBytes_outside _ _ _ (by simpa using h)]

end Sys2Proof.Machine
end

