-- ==== Sys2Proof/Laws/Bat.lean ====
section
/-! SUPPORT. The lane scheduler of BAT_CALCULATE: what each stage can do to the state, that the work left falls in every iteration, and what a lane holds of
its message. -/

namespace Sys2Proof.Machine

/-! ### What a stage can touch -/

/-- `t` differs from `s` in the bytes of a region, the answers taken and the counter, at most; canonical memory stays canonical. -/
structure OnlyOutput (s t : State) (a n : Nat) : Prop where
  shape : ∃ m e f, t = { s with mem := m, env := e, free := f }
  outside : ∀ b, b < a ∨ a + n ≤ b → t.mem.read b = s.mem.read b
  wf : Memory.wf s.mem → Memory.wf t.mem

theorem OnlyOutput.refl (s : State) (a n : Nat) : OnlyOutput s s a n :=
  ⟨⟨s.mem, s.env, s.free, rfl⟩, fun _ _ => rfl, id⟩

theorem OnlyOutput.trans {s t u : State} {a n : Nat} (h : OnlyOutput s t a n) (h' : OnlyOutput t u a n) : OnlyOutput s u a n := by
  obtain ⟨m, e, f, rfl⟩ := h.shape
  obtain ⟨m', e', f', rfl⟩ := h'.shape
  exact ⟨⟨m', e', f', rfl⟩, fun b hb => (h'.outside b hb).trans (h.outside b hb), fun w => h'.wf (h.wf w)⟩

theorem OnlyOutput.draw (s : State) (p : DrawPoint) (a n : Nat) : OnlyOutput s (s.draw p).2 a n := by
  obtain ⟨e, f, h⟩ := s.draw_state p
  rw [h]
  exact ⟨⟨s.mem, e, f, rfl⟩, fun _ _ => rfl, id⟩

theorem OnlyOutput.tick (s : State) (k a n : Nat) : OnlyOutput s { s with free := k } a n :=
  ⟨⟨s.mem, s.env, k, rfl⟩, fun _ _ => rfl, id⟩

theorem OnlyOutput.memWrite {s t : State} {a n b : Nat} {bs : List Byte} (h : s.memWrite b bs = some t) (h1 : a ≤ b)
    (h2 : b + bs.length ≤ a + n) : OnlyOutput s t a n := by
  obtain ⟨-, rfl⟩ := State.memWrite_some h
  exact ⟨⟨_, _, _, rfl⟩, fun c hc => Memory.read_writeBytes_outside _ _ _ (by omega), Memory.writeBytes_wf _ _⟩

theorem OnlyOutput.freeRegion (s : State) (a n : Nat) : OnlyOutput s (s.freeRegion a n) a n :=
  ⟨⟨_, s.env, _, rfl⟩, fun _ hb => s.freeRegion_outside hb, Memory.writeBytes_wf _ _⟩

/-- The state a scheduler stage ends with, in success or failure. -/
def endState {α : Type} (f : α → State) : Except (ErrCode × State) α → State
  | .ok x => f x
  | .error e => e.2

theorem slot_inside {dst dl idx n : Nat} (h : idx < n) : dst ≤ dst + idx * dl ∧ dst + idx * dl + dl ≤ dst + n * dl := by
  have : idx * dl + dl ≤ n * dl := by
    calc idx * dl + dl = (idx + 1) * dl := by ring
      _ ≤ n * dl := Nat.mul_le_mul_right _ h
  omega

/-- `retire` writes into the output region only. -/
theorem retire_only (dst n : Nat) (w : Option Width) (ls : List BatchLane) (s : State)
    (h : ∀ l ∈ ls, l.active = true → l.final = true → l.idx < n) :
    OnlyOutput s (endState Prod.snd (retire dst (widthBits w) ls s)) dst (n * dlen (widthBits w)) := by
  induction ls generalizing s with
  | nil => exact .refl _ _ _
  | cons l ls ih =>
    have ht := fun s => ih s fun l hl => h l (List.mem_cons_of_mem _ hl)
    unfold retire
    split
    · rename_i hl
      rw [Bool.and_eq_true] at hl
      have hd := OnlyOutput.draw s .batReadback dst (n * dlen (widthBits w))
      split
      · rename_i c t hc; rw [hc] at hd; exact hd
      · rename_i t hc
        rw [hc] at hd
        split
        · exact hd
        · rename_i u hu
          have hs := slot_inside (dst := dst) (dl := dlen (widthBits w)) (h l List.mem_cons_self hl.1 hl.2)
          have hw := hd.trans (OnlyOutput.memWrite hu hs.1 (by simpa using hs.2))
          have := hw.trans (ht u)
          split <;> rename_i heq <;> rw [heq] at this <;> exact this
    · have := ht s
      split <;> rename_i heq <;> rw [heq] at this <;> exact this

/-- What `retire` leaves of the lanes. -/
theorem retire_lanes {dst d : Nat} {ls : List BatchLane} {s : State} {out : List BatchLane × State}
    (h : retire dst d ls s = .ok out) : out.1 = ls.map fun l => if l.active && l.final then l.free else l := by
  induction ls generalizing s out with
  | nil => cases h; rfl
  | cons l ls ih =>
    unfold retire at h
    split at h
    · rename_i hl
      split at h
      · cases h
      · split at h
        · cases h
        · split at h
          · cases h
          · rename_i heq; cases h; rw [List.map_cons, if_pos hl, ← ih heq]
    · rename_i hl
      split at h
      · cases h
      · rename_i heq
        cases h
        simp only [List.map_cons, if_neg hl]
        rw [← ih heq]

/-- A failure of `retire` carries a resource code. -/
theorem retire_error {dst d : Nat} {ls : List BatchLane} {s : State} {e : ErrCode × State} (h : retire dst d ls s = .error e) :
    e.1.isResource = true := by
  induction ls generalizing s e with
  | nil => cases h
  | cons l ls ih =>
    unfold retire at h
    split at h
    · split at h
      · rename_i c t hc
        cases h
        exact State.draw_resource (s := s) (p := .batReadback) (by rw [hc])
      · split at h
        · cases h; rfl
        · split at h
          · rename_i heq; cases h; exact ih heq
          · cases h
    · split at h
      · rename_i heq; cases h; exact ih heq
      · cases h

/-! ### Gather and kernel, lane by lane -/

/-- A lane after its block is gathered and absorbed. -/
def advance (r : Nat) (l : BatchLane) (block : List Byte) : BatchLane :=
  if r ≤ l.rem then { l with cur := l.cur + r, rem := l.rem - r, lanes := absorbBlock r l.lanes block }
  else { l with cur := l.cur + l.rem, rem := 0, final := true, lanes := absorbBlock r l.lanes block }

/-- What one lane's gather and kernel do: an inactive lane is not touched; an active one takes its next block, the padded one if it is the last. -/
theorem gatherLane_spec {s : State} {r reader : Nat} {l : BatchLane} {staged : BatchLane × List Byte}
    (h : gatherLane s r reader l = some staged) :
    (l.active = false ∧ kernelLane r staged = l) ∨
    (l.active = true ∧ r ≤ l.rem ∧ ∃ b, s.memRead reader l.cur r = some b ∧ kernelLane r staged = advance r l b) ∨
    (l.active = true ∧ l.rem < r ∧ ∃ m, s.memRead reader l.cur l.rem = some m ∧ kernelLane r staged = advance r l (pad r m)) := by
  unfold gatherLane at h
  split at h
  · rename_i ha
    split at h
    · rename_i hr
      split at h
      · cases h
      · rename_i b hb
        cases h
        exact .inr (.inl ⟨ha, hr, b, hb, by simp [kernelLane, advance, ha, hr]⟩)
    · rename_i hr
      split at h
      · cases h
      · rename_i m hm
        cases h
        exact .inr (.inr ⟨ha, by omega, m, hm, by simp [kernelLane, advance, ha, hr]⟩)
  · rename_i ha
    cases h
    have ha : l.active = false := by simpa using ha
    exact .inl ⟨ha, by simp [kernelLane, ha]⟩

/-- Two lists of lanes of one length, lane `j` of one related to lane `j` of the other by some gather. -/
inductive Gathered (s : State) (r : Nat) : List BatchLane → List BatchLane → Prop where
  | nil : Gathered s r [] []
  | cons {l l' ls ls'} (reader : Nat) (staged : BatchLane × List Byte) (h : gatherLane s r reader l = some staged)
      (h' : l' = kernelLane r staged) (t : Gathered s r ls ls') : Gathered s r (l :: ls) (l' :: ls')

theorem gather_gathered {s : State} {r j : Nat} {ls : List BatchLane} {staged : List (BatchLane × List Byte)}
    (h : gather s r j ls = some staged) : Gathered s r ls (staged.map (kernelLane r)) := by
  induction ls generalizing j staged with
  | nil => cases h; exact .nil
  | cons l ls ih =>
    unfold gather at h
    split at h
    · rename_i x xs hx hxs
      cases h
      exact .cons _ x hx rfl (ih hxs)
    · cases h

@[simp] theorem advance_active (r : Nat) (l : BatchLane) (b : List Byte) : (advance r l b).active = l.active := by
  unfold advance; split <;> rfl

@[simp] theorem advance_idx (r : Nat) (l : BatchLane) (b : List Byte) : (advance r l b).idx = l.idx := by
  unfold advance; split <;> rfl

/-- The work of one lane: the blocks still to gather. -/
def laneWork (r : Nat) (l : BatchLane) : Nat := if l.active then blocksOf r l.rem else 0

/-- A lane freed after its last block. -/
def settle (l : BatchLane) : BatchLane := if l.active && l.final then l.free else l

/-- The work of a lane falls by at least one block in an iteration. -/
theorem laneWork_step {s : State} {r reader : Nat} {l : BatchLane} {staged : BatchLane × List Byte} (hr : 0 < r)
    (h : gatherLane s r reader l = some staged) :
    laneWork r (settle (kernelLane r staged)) + (if l.active then 1 else 0) ≤ laneWork r l := by
  rcases gatherLane_spec h with ⟨ha, hk⟩ | ⟨ha, hl, b, -, hk⟩ | ⟨ha, hl, m, -, hk⟩
  · simp [hk, laneWork, settle, ha]
  · rw [hk]
    have h1 : (l.rem - r) / r + 1 = l.rem / r := by
      rw [Nat.div_eq l.rem r, if_pos ⟨hr, hl⟩]
    have h2 : laneWork r (advance r l b) + 1 = laneWork r l := by
      simp only [laneWork, advance_active, ha, if_true, blocksOf]
      simp only [advance, if_pos hl]; omega
    unfold settle
    split
    · simp only [laneWork, BatchLane.free, ha, if_true]
      simp [blocksOf]
    · omega
  · rw [hk]
    have hf : (advance r l (pad r m)).final = true := by simp [advance, Nat.not_le.2 hl]
    simp [settle, hf, ha, laneWork, BatchLane.free, blocksOf]

theorem workLeft_eq (r : Nat) (ls : List BatchLane) (q : List Job) :
    workLeft r ls q = (ls.map (laneWork r)).sum + (q.map fun job => blocksOf r job.len).sum := by
  unfold workLeft
  congr 1
  induction ls with
  | nil => rfl
  | cons l ls ih =>
    by_cases h : l.active = true
    · simp [h, laneWork, ← ih]
    · simp [h, laneWork, ← ih]

theorem gathered_work {s : State} {r : Nat} {ls ls' : List BatchLane} (hr : 0 < r) (h : Gathered s r ls ls') :
    ((ls'.map settle).map (laneWork r)).sum + (if anyActive ls then 1 else 0) ≤ (ls.map (laneWork r)).sum := by
  induction h with
  | nil => simp [anyActive]
  | @cons l l' ls ls' reader staged h h' t ih =>
    subst h'
    have := laneWork_step hr h
    simp only [List.map_cons, List.sum_cons, anyActive, List.any_cons] at ih ⊢
    by_cases hb : (ls.any fun l => l.active) = true <;> by_cases ha : l.active = true <;>
      (try simp only [Bool.not_eq_true] at ha) <;> (try simp only [Bool.not_eq_true] at hb) <;>
      simp only [ha, hb, Bool.true_or, Bool.or_true, Bool.false_or, Bool.false_eq_true, if_true, if_false] at this ih ⊢ <;> omega

theorem refill_work (r : Nat) (ls : List BatchLane) (q : List Job) :
    workLeft r (refill ls q).1 (refill ls q).2 ≤ workLeft r ls q := by
  rw [workLeft_eq, workLeft_eq]
  induction ls generalizing q with
  | nil => simp [refill]
  | cons l ls ih =>
    unfold refill
    split
    · have := ih q; simp only [List.map_cons, List.sum_cons]; omega
    · split
      · simp
      · rename_i job q
        have := ih q
        simp only [List.map_cons, List.sum_cons]
        have hw : laneWork r (BatchLane.assign job) = blocksOf r job.len := by simp [laneWork, BatchLane.assign]
        omega

theorem refill_length (ls : List BatchLane) (q : List Job) : (refill ls q).1.length = ls.length := by
  induction ls generalizing q with
  | nil => rfl
  | cons l ls ih =>
    unfold refill
    split
    · simp [ih]
    · split
      · rfl
      · simp [ih]

/-- A lane after refill is a lane from before, or a message of the backlog just assigned. -/
theorem mem_refill {ls : List BatchLane} {q : List Job} {l : BatchLane} (h : l ∈ (refill ls q).1) :
    l ∈ ls ∨ ∃ job ∈ q, l = BatchLane.assign job := by
  induction ls generalizing q with
  | nil => simp [refill] at h
  | cons k ls ih =>
    unfold refill at h
    split at h
    · rcases List.mem_cons.1 h with rfl | h
      · exact .inl List.mem_cons_self
      · exact (ih h).imp (List.mem_cons_of_mem _) id
    · split at h
      · exact .inl h
      · rename_i job q
        rcases List.mem_cons.1 h with rfl | h
        · exact .inr ⟨job, List.mem_cons_self, rfl⟩
        · rcases ih h with h | ⟨j, hj, rfl⟩
          · exact .inl (List.mem_cons_of_mem _ h)
          · exact .inr ⟨j, List.mem_cons_of_mem _ hj, rfl⟩

theorem refill_backlog {ls : List BatchLane} {q : List Job} {job : Job} (h : job ∈ (refill ls q).2) : job ∈ q := by
  induction ls generalizing q with
  | nil => exact h
  | cons k ls ih =>
    unfold refill at h
    split at h
    · exact ih h
    · split at h
      · simp at h
      · exact List.mem_cons_of_mem _ (ih h)

/-- An active lane survives refill, and every message of the backlog stays in it or enters a lane. -/
theorem refill_active {ls : List BatchLane} {q : List Job} {l : BatchLane} (h : l ∈ ls) (ha : l.active = true) :
    l ∈ (refill ls q).1 := by
  induction ls generalizing q with
  | nil => simp at h
  | cons k ls ih =>
    unfold refill
    split
    · rcases List.mem_cons.1 h with rfl | h
      · exact List.mem_cons_self
      · exact List.mem_cons_of_mem _ (ih h)
    · rename_i hk
      rcases List.mem_cons.1 h with rfl | h
      · exact absurd ha hk
      · split
        · exact List.mem_cons_of_mem _ h
        · exact List.mem_cons_of_mem _ (ih h)

theorem refill_covers {ls : List BatchLane} {q : List Job} {job : Job} (h : job ∈ q) :
    job ∈ (refill ls q).2 ∨ BatchLane.assign job ∈ (refill ls q).1 := by
  induction ls generalizing q with
  | nil => exact .inl h
  | cons k ls ih =>
    unfold refill
    split
    · exact (ih h).imp id (List.mem_cons_of_mem _)
    · split
      · simp at h
      · rename_i j q
        rcases List.mem_cons.1 h with rfl | h
        · exact .inr List.mem_cons_self
        · exact (ih h).imp id (List.mem_cons_of_mem _)

/-- No lane stays free while a message waits. -/
theorem refill_full {ls : List BatchLane} {q : List Job} (h : (refill ls q).2 ≠ []) : ∀ l ∈ (refill ls q).1, l.active = true := by
  induction ls generalizing q with
  | nil => simp [refill]
  | cons k ls ih =>
    unfold refill at h ⊢
    split
    · rename_i hk
      rw [if_pos hk] at h
      intro l hl
      rcases List.mem_cons.1 hl with rfl | hl
      · exact hk
      · exact ih h l hl
    · rename_i hk
      rw [if_neg hk] at h
      cases q with
      | nil => simp at h
      | cons j q =>
        intro l hl
        rcases List.mem_cons.1 hl with rfl | hl
        · rfl
        · exact ih h l hl

end Sys2Proof.Machine
end

