-- ==== Sys2Proof/Laws/BatLoop.lean ====
section
/-! SUPPORT. The loop of BAT_CALCULATE: what an iteration and a whole schedule can touch, that the loop ends with every lane free and an empty backlog, and
how a lane carries its message through the iterations. -/

namespace Sys2Proof.Machine

/-- Every active lane's message index lies below a bound. -/
def IdxBelow (n : Nat) (ls : List BatchLane) : Prop := ∀ l ∈ ls, l.active = true → l.idx < n

theorem gathered_idxBelow {s : State} {r n : Nat} {ls ls' : List BatchLane} (h : Gathered s r ls ls') (hn : IdxBelow n ls) :
    IdxBelow n ls' := by
  induction h with
  | nil => exact hn
  | @cons l l' ls ls' reader staged h h' t ih =>
    intro k hk hka
    rcases List.mem_cons.1 hk with rfl | hk
    · subst h'
      have hl := hn l List.mem_cons_self
      rcases gatherLane_spec h with ⟨ha, e⟩ | ⟨ha, -, b, -, e⟩ | ⟨ha, -, m, -, e⟩ <;> rw [e] at hka ⊢
      · exact hl hka
      · simpa using hl ha
      · simpa using hl ha
    · exact ih (fun x hx => hn x (List.mem_cons_of_mem _ hx)) k hk hka

theorem gathered_length {s : State} {r : Nat} {ls ls' : List BatchLane} (h : Gathered s r ls ls') : ls'.length = ls.length := by
  induction h with
  | nil => rfl
  | cons _ _ _ _ _ ih => simp [ih]

theorem settle_active {l : BatchLane} (h : (settle l).active = true) : settle l = l ∧ l.active = true := by
  unfold settle at h ⊢
  split
  · rename_i hc; rw [if_pos hc] at h; simp [BatchLane.free] at h
  · rename_i hc; rw [if_neg hc] at h; exact ⟨rfl, h⟩

theorem settled_idxBelow {n : Nat} {ls : List BatchLane} (h : IdxBelow n ls) : IdxBelow n (ls.map settle) := by
  intro l hl ha
  obtain ⟨k, hk, rfl⟩ := List.mem_map.1 hl
  obtain ⟨e, hka⟩ := settle_active ha
  rw [e]; exact h k hk hka

/-- A successful iteration: every lane gathers and absorbs its block in a state with the same memory, and the finished lanes are retired into the output. -/
theorem batIteration_ok {dst : Nat} {w : Option Width} {s t : State} (h : batIteration dst (widthBits w) s = .ok t) :
    ∃ ls u v, Gathered s (rate (widthBits w)) s.bat.lanes ls ∧ (∃ e f, u = { s with env := e, free := f }) ∧
      retire dst (widthBits w) ls u = .ok (ls.map settle, v) ∧ t = v.setLanes (ls.map settle) := by
  unfold batIteration at h
  split at h
  · cases h
  · rename_i staged hg
    split at h
    · cases h
    · rename_i t1 h1
      split at h
      · cases h
      · rename_i u h2
        split at h
        · cases h
        · rename_i ls' v h3
          cases h
          have hl := retire_lanes h3
          have e1 := ({ s with free := s.free + 1 } : State).draw_state .batTransfer
          rw [h1] at e1
          obtain ⟨e, f, rfl⟩ := e1
          have e2 := ({ s with env := e, free := f } : State).draw_state .batKernel
          simp only at h2
          rw [h2] at e2
          obtain ⟨e', f', rfl⟩ := e2
          simp only at hl
          rw [hl] at h3 ⊢
          exact ⟨_, _, v, gather_gathered hg, ⟨e', f', rfl⟩, h3, rfl⟩

/-- A failed iteration carries a resource code and has touched the output region only. -/
theorem batIteration_error {dst n : Nat} {w : Option Width} {s : State} {e : ErrCode × State}
    (h : batIteration dst (widthBits w) s = .error e) :
    e.1.isResource = true ∧ (IdxBelow n s.bat.lanes → OnlyOutput s e.2 dst (n * dlen (widthBits w))) := by
  unfold batIteration at h
  split at h
  · cases h; exact ⟨rfl, fun _ => .refl _ _ _⟩
  · rename_i staged hg
    have o1 := (OnlyOutput.tick s (s.free + 1) dst (n * dlen (widthBits w))).trans
      (OnlyOutput.draw { s with free := s.free + 1 } .batTransfer dst (n * dlen (widthBits w)))
    split at h
    · rename_i c t hc
      cases h
      rw [hc] at o1
      exact ⟨State.draw_resource (s := { s with free := s.free + 1 }) (p := .batTransfer) (by rw [hc]), fun _ => o1⟩
    · rename_i t hc
      rw [hc] at o1
      have o2 := o1.trans (OnlyOutput.draw t .batKernel dst (n * dlen (widthBits w)))
      split at h
      · rename_i c u hd
        cases h
        rw [hd] at o2
        exact ⟨State.draw_resource (s := t) (p := .batKernel) (by rw [hd]), fun _ => o2⟩
      · rename_i u hd
        rw [hd] at o2
        split at h
        · rename_i e' hr
          cases h
          refine ⟨retire_error hr, fun hn => ?_⟩
          have hb := gathered_idxBelow (gather_gathered hg) hn
          have := retire_only dst n w _ u fun l hl ha _ => hb l hl ha
          rw [hr] at this
          exact o2.trans this
        · cases h

/-- `t` is `s` with other lanes and, at most, other bytes in a region. -/
def OnlyBat (s t : State) (a n : Nat) : Prop := ∃ v ls, OnlyOutput s v a n ∧ t = v.setLanes ls

theorem OnlyBat.trans {s t u : State} {a n : Nat} (h : OnlyBat s t a n) (h' : OnlyBat t u a n) : OnlyBat s u a n := by
  obtain ⟨v, ls, ov, rfl⟩ := h
  obtain ⟨v', ls', ov', rfl⟩ := h'
  obtain ⟨m, e, f, rfl⟩ := ov.shape
  obtain ⟨m', e', f', rfl⟩ := ov'.shape
  exact ⟨{ s with mem := m', env := e', free := f' }, ls',
    ⟨⟨m', e', f', rfl⟩, fun b hb => (ov'.outside b hb).trans (ov.outside b hb), fun hw => ov'.wf (ov.wf hw)⟩, rfl⟩

theorem OnlyBat.setLanes (s : State) (ls : List BatchLane) (a n : Nat) : OnlyBat s (s.setLanes ls) a n :=
  ⟨s, ls, .refl _ _ _, rfl⟩

theorem OnlyBat.ofOutput {s t : State} {a n : Nat} (h : OnlyOutput s t a n) : OnlyBat s t a n := by
  obtain ⟨m, e, f, rfl⟩ := h.shape
  exact ⟨_, s.bat.lanes, h, rfl⟩

/-- The loop, in success or failure, touches the lanes and the output region only; a failure carries a resource code. -/
theorem batLoop_only {dst n : Nat} {w : Option Width} (fuel : Nat) (q : List Job) (s : State) (hl : IdxBelow n s.bat.lanes)
    (hq : ∀ job ∈ q, job.idx < n) :
    OnlyBat s (endState id (batLoop dst (widthBits w) fuel q s)) dst (n * dlen (widthBits w)) := by
  induction fuel generalizing q s with
  | zero => exact .ofOutput (.refl _ _ _)
  | succ fuel ih =>
    unfold batLoop
    split
    · split
      · rename_i e he
        exact .ofOutput ((batIteration_error he).2 hl)
      · rename_i t ht
        obtain ⟨ls, u, v, hg, ⟨e, f, rfl⟩, hr, rfl⟩ := batIteration_ok ht
        have hb := gathered_idxBelow hg hl
        have ho := retire_only dst n w ls { s with env := e, free := f } fun l hl ha _ => hb l hl ha
        rw [hr] at ho
        have h0 : OnlyOutput s { s with env := e, free := f } dst (n * dlen (widthBits w)) :=
          ⟨⟨_, _, _, rfl⟩, fun _ _ => rfl, id⟩
        have h1 : OnlyBat s ((v.setLanes (ls.map settle)).setLanes (refill (ls.map settle) q).1) dst
            (n * dlen (widthBits w)) := ⟨v, _, h0.trans ho, rfl⟩
        refine h1.trans (ih _ _ ?_ fun job hj => hq job (refill_backlog hj))
        intro l hl ha
        rcases mem_refill hl with hl | ⟨job, hj, rfl⟩
        · exact settled_idxBelow hb l hl ha
        · exact hq job hj
    · exact .ofOutput (.refl _ _ _)

theorem batLoop_error {dst : Nat} {w : Option Width} {fuel : Nat} {q : List Job} {s : State} {e : ErrCode × State}
    (h : batLoop dst (widthBits w) fuel q s = .error e) : e.1.isResource = true := by
  induction fuel generalizing q s with
  | zero => cases h
  | succ fuel ih =>
    unfold batLoop at h
    split at h
    · split at h
      · rename_i he; cases h; exact (batIteration_error (n := 0) he).1
      · exact ih h
    · cases h

theorem workLeft_zero {r : Nat} {ls : List BatchLane} {q : List Job} (h : workLeft r ls q = 0) :
    anyActive ls = false ∧ q = [] := by
  unfold workLeft at h
  constructor
  · unfold anyActive
    rw [List.any_eq_false]
    intro l hl ha
    have : ∃ x ∈ ((ls.filter fun l => l.active).map fun l => blocksOf r l.rem), 0 < x :=
      ⟨blocksOf r l.rem, List.mem_map.2 ⟨l, List.mem_filter.2 ⟨hl, ha⟩, rfl⟩, by simp [blocksOf]⟩
    obtain ⟨x, hx, h0⟩ := this
    have := List.single_le_sum (fun _ _ => Nat.zero_le _) x hx
    omega
  · cases q with
    | nil => rfl
    | cons job q =>
      simp [blocksOf] at h

/-- The work falls in every iteration, refill included. -/
theorem iteration_work {s : State} {r : Nat} {ls : List BatchLane} (q : List Job) (hr : 0 < r)
    (hg : Gathered s r s.bat.lanes ls) (ha : anyActive s.bat.lanes = true) :
    workLeft r (refill (ls.map settle) q).1 (refill (ls.map settle) q).2 + 1 ≤ workLeft r s.bat.lanes q := by
  have h1 := refill_work r (ls.map settle) q
  have h2 := gathered_work hr hg
  rw [if_pos ha] at h2
  rw [workLeft_eq r (ls.map settle) q] at h1
  rw [workLeft_eq r s.bat.lanes q]
  omega

/-- When the loop ends without a failure every lane is free (R240), since the fuel covers the work; the lane count is as before. -/
theorem batLoop_done {dst : Nat} {w : Option Width} {fuel : Nat} {q : List Job} {s t : State}
    (h : batLoop dst (widthBits w) fuel q s = .ok t) (hf : workLeft (rate (widthBits w)) s.bat.lanes q ≤ fuel) :
    anyActive t.bat.lanes = false ∧ t.bat.lanes.length = s.bat.lanes.length := by
  induction fuel generalizing q s with
  | zero =>
    cases h
    exact ⟨(workLeft_zero (Nat.le_zero.1 hf)).1, rfl⟩
  | succ fuel ih =>
    unfold batLoop at h
    split at h
    · rename_i ha
      split at h
      · cases h
      · rename_i t1 ht
        obtain ⟨ls, u, v, hg, -, -, rfl⟩ := batIteration_ok ht
        have hw := iteration_work q (rate_widthBits_pos w) hg ha
        have := ih h (by simpa using (by omega : workLeft (rate (widthBits w)) (refill (ls.map settle) q).1
          (refill (ls.map settle) q).2 ≤ fuel))
        refine ⟨this.1, this.2.trans ?_⟩
        simp [refill_length, gathered_length hg]
    · rename_i ha
      cases h
      exact ⟨by simpa using ha, rfl⟩

/-! ### A lane and its message -/

/-- A lane that has absorbed the first `k` blocks of a message's bytes and has the rest before it. -/
structure CarriesMessage (r : Nat) (msg : List Byte) (ptr k : Nat) (l : BatchLane) : Prop where
  within : r * k ≤ msg.length
  cur : l.cur = ptr + r * k
  rem : l.rem = msg.length - r * k
  lanes : l.lanes = (absorbBlocks r k zeroLanes msg).1
  notFinal : l.final = false

theorem assign_carries (r : Nat) (msg : List Byte) (job : Job) (h : job.len = msg.length) :
    CarriesMessage r msg job.ptr 0 (BatchLane.assign job) :=
  ⟨by simp, by simp [BatchLane.assign], by simp [BatchLane.assign, h], by simp [BatchLane.assign, absorbBlocks], rfl⟩

/-- A full block: the lane has absorbed one block more. -/
theorem advance_carries {r k ptr : Nat} {msg : List Byte} {l : BatchLane} (h : CarriesMessage r msg ptr k l)
    (hl : r ≤ l.rem) : CarriesMessage r msg ptr (k + 1) (advance r l ((msg.drop (r * k)).take r)) := by
  have hk : r * (k + 1) = r * k + r := by ring
  have hrem := h.rem
  have hwithin := h.within
  unfold advance
  rw [if_pos hl]
  refine ⟨by omega, by simp only [h.cur]; omega, by simp only; omega, ?_, h.notFinal⟩
  rw [absorbBlocks_add r k 1, absorbBlocks_rest, ← h.lanes]
  rfl

/-- The last, padded block: the lane's state squeezes to the digest of its message (R146, R236, R238). -/
theorem advance_digest {d k ptr : Nat} {msg : List Byte} {l : BatchLane}
    (h : CarriesMessage (rate d) msg ptr k l) (hl : l.rem < rate d) :
    (advance (rate d) l (pad (rate d) (msg.drop (rate d * k)))).final = true ∧
      squeeze (advance (rate d) l (pad (rate d) (msg.drop (rate d * k)))).lanes d = sha3 d msg := by
  have hrem := h.rem
  have hwithin := h.within
  have hq : msg.length / rate d = k := by
    apply Nat.div_eq_of_lt_le
    · rw [Nat.mul_comm]; exact hwithin
    · have : (k + 1) * rate d = rate d * k + rate d := by ring
      omega
  unfold advance
  rw [if_neg (by omega)]
  refine ⟨rfl, ?_⟩
  simp only [sha3, absorbFull, hq, absorbBlocks_rest, h.lanes]

end Sys2Proof.Machine
end

