-- ==== Sys2Proof/Laws/BatCall.lean ====
section
/-! SUPPORT. A whole call of BAT_CALCULATE: what its effect is with and without a race, and the ways one run of it can end. -/

namespace Sys2Proof.Machine

/-- Without a race the effect is the one run. -/
theorem effectBatCalculate_quiet {s : State} (h : s.race = []) :
    effectBatCalculate s = match batRun s with
      | .ok t => t.complete
      | .error t => t := by
  unfold effectBatCalculate
  split
  · rfl
  · rename_i hr; simp [hr] at h

/-- With a race the run without it decides how the call ends; the raced run's bytes show where it ends as well, and the output region is unspecified where it
does not. -/
theorem effectBatCalculate_raced {s : State} (h : s.race ≠ []) :
    (∃ u t, batRun { s with race := [] } = .ok u ∧ batRun s = .ok t ∧ effectBatCalculate s = t.complete) ∨
    (∃ u, batRun { s with race := [] } = .ok u ∧ effectBatCalculate s =
      { (u.freeRegion (s.argNat 4) (s.argNat 1 * s.bat.dlen)).complete with race := s.race }) ∨
    ∃ u, batRun { s with race := [] } = .error u ∧ effectBatCalculate s = { u with race := s.race } := by
  unfold effectBatCalculate
  split
  · rename_i hr; exact absurd hr h
  · split
    · rename_i u t hu ht; exact .inl ⟨u, t, hu, ht, rfl⟩
    · rename_i u t hu ht; exact .inr (.inl ⟨u, hu, rfl⟩)
    · rename_i u hu; exact .inr (.inr ⟨u, hu, rfl⟩)

/-- A run that writes every digest: an empty list, or a schedule that ended, on descriptors whose checks pass. -/
theorem batRun_ok {s t : State} (h : batRun s = .ok t) :
    (s.argNat 1 = 0 ∧ t = s) ∨
    ∃ jobs, s.argNat 1 ≠ 0 ∧ readJobs s = some jobs ∧ checksMessages s jobs = .pass ∧
      batSchedule (s.argNat 4) (widthBits s.bat.width) jobs s = .ok t := by
  unfold batRun at h
  simp only at h
  split at h
  · rename_i hn; cases h; exact .inl ⟨hn, rfl⟩
  · rename_i hn
    split at h
    · cases h
    · rename_i jobs hj
      split at h
      · cases h
      · cases h
      · rename_i hc
        split at h
        · cases h
        · rename_i hs; cases h; exact .inr ⟨jobs, hn, hj, hc, hs⟩

/-- A run that ends otherwise: a bus error at a table, a check on the messages, or a failure of the schedule. -/
theorem batRun_error {s t : State} (h : batRun s = .error t) :
    s.argNat 1 ≠ 0 ∧
    ((readJobs s = none ∧ t = s.batFails (s.argNat 4) (s.argNat 1 * s.bat.dlen) .busError) ∨
    ∃ jobs, readJobs s = some jobs ∧
      ((∃ c, checksMessages s jobs = .err c ∧ t = s.raise c) ∨
      (∃ m, checksMessages s jobs = .refuse m ∧ t = s.refuse m) ∨
      ∃ c u, checksMessages s jobs = .pass ∧
        batSchedule (s.argNat 4) (widthBits s.bat.width) jobs s = .error (c, u) ∧
        t = u.batFails (s.argNat 4) (s.argNat 1 * s.bat.dlen) c)) := by
  unfold batRun at h
  simp only at h
  split at h
  · cases h
  · rename_i hn
    refine ⟨hn, ?_⟩
    split at h
    · rename_i hj; cases h; exact .inl ⟨hj, rfl⟩
    · rename_i jobs hj
      refine .inr ⟨jobs, hj, ?_⟩
      split at h
      · rename_i c hc; cases h; exact .inl ⟨c, hc, rfl⟩
      · rename_i m hc; cases h; exact .inr (.inl ⟨m, hc, rfl⟩)
      · rename_i hc
        split at h
        · rename_i c u hs; cases h; exact .inr (.inr ⟨c, u, hc, hs, rfl⟩)
        · cases h

/-- Without a race both tables are read from memory. -/
theorem readJobs_quiet {s : State} (h : s.race = []) : readJobs s =
    if s.platform.admitsAll (s.argNat 0) (8 * s.argNat 1) = true ∧ s.platform.admitsAll (s.argNat 2) (8 * s.argNat 1) = true then
      some (jobsOf (tableEntries (s.mem.readBytes (s.argNat 0) (8 * s.argNat 1)) (s.argNat 1))
        (tableEntries (s.mem.readBytes (s.argNat 2) (8 * s.argNat 1)) (s.argNat 1)))
    else none := by
  unfold readJobs
  rw [State.memRead_quiet h, State.memRead_quiet h]
  by_cases h1 : s.platform.admitsAll (s.argNat 0) (8 * s.argNat 1) = true <;>
    by_cases h2 : s.platform.admitsAll (s.argNat 2) (8 * s.argNat 1) = true <;> simp [h1, h2]

end Sys2Proof.Machine
end

