-- ==== Sys2Proof/Laws/BatDraws.lean ====
section
/-! SUPPORT. The draws of a batch call: the scheduler's lanes and backlog, seen as numbers of blocks, run as `callPoints` says. -/

namespace Sys2Proof.Machine

/-- Refill on lanes and messages is `refillCounts` on their blocks. -/
theorem refill_counts (r : Nat) (ls : List BatchLane) (q : List Job) :
    refillCounts (ls.map (laneWork r)) (q.map fun job => blocksOf r job.len) =
      ((refill ls q).1.map (laneWork r), (refill ls q).2.map fun job => blocksOf r job.len) := by
  induction ls generalizing q with
  | nil => rfl
  | cons l ls ih =>
    unfold refill
    split
    · rename_i ha
      simp [laneWork, ha, blocksOf, refillCounts] at ih ⊢
      simp [ih]
    · rename_i ha
      cases q with
      | nil => simp [laneWork, ha, refillCounts]
      | cons job q => simp [laneWork, ha, refillCounts, BatchLane.assign] at ih ⊢; simp [ih]

/-- No active lane has absorbed its last block: what holds between iterations. -/
def NoneFinal (ls : List BatchLane) : Prop := ∀ l ∈ ls, l.active = true → l.final = false

theorem settled_noneFinal (ls : List BatchLane) : NoneFinal (ls.map settle) := by
  intro l hl ha
  obtain ⟨k, -, rfl⟩ := List.mem_map.1 hl
  obtain ⟨e, hk⟩ := settle_active ha
  rw [e]
  cases hf : k.final
  · rfl
  · simp [settle, hk, hf, BatchLane.free] at ha

theorem refill_noneFinal {ls : List BatchLane} (q : List Job) (h : NoneFinal ls) : NoneFinal (refill ls q).1 := by
  intro l hl ha
  rcases mem_refill hl with hl | ⟨job, -, rfl⟩
  · exact h l hl ha
  · rfl

/-- One lane's gather and kernel: a block less to gather, and the lane is to be retired exactly if that block was its last. -/
theorem laneWork_gathered {s : State} {r reader : Nat} {l : BatchLane} {staged : BatchLane × List Byte} (hr : 0 < r)
    (hf : l.active = true → l.final = false) (h : gatherLane s r reader l = some staged) :
    laneWork r (settle (kernelLane r staged)) = laneWork r l - 1 ∧
      (((kernelLane r staged).active && (kernelLane r staged).final) = true ↔ laneWork r l = 1) := by
  rcases gatherLane_spec h with ⟨ha, e⟩ | ⟨ha, hl, b, -, e⟩ | ⟨ha, hl, m, -, e⟩
  · simp [e, laneWork, settle, ha]
  · have hd : (l.rem - r) / r + 1 = l.rem / r := by rw [Nat.div_eq l.rem r, if_pos ⟨hr, hl⟩]
    have hn : (advance r l b).final = false := by simp [advance, hl, hf ha]
    have hm : (advance r l b).rem = l.rem - r := by simp [advance, hl]
    have hs : settle (advance r l b) = advance r l b := by simp [settle, hn]
    rw [e, hs]
    simp only [laneWork, advance_active, ha, hm, hn, blocksOf, if_true, Bool.and_false]
    have hp := Nat.div_pos hl hr
    exact ⟨by omega, ⟨fun h => absurd h (by simp), fun h => by omega⟩⟩
  · have hz : l.rem / r = 0 := Nat.div_eq_of_lt hl
    have hn : (advance r l (pad r m)).final = true := by simp [advance, Nat.not_le.2 hl]
    simp [e, settle, hn, laneWork, ha, BatchLane.free, blocksOf, hz]

/-- An iteration on the lanes' blocks: one less each, and as many lanes to retire as had one block left. -/
theorem gathered_counts {s : State} {r : Nat} {ls ls' : List BatchLane} (hr : 0 < r) (hf : NoneFinal ls) (h : Gathered s r ls ls') :
    (ls'.map settle).map (laneWork r) = (ls.map (laneWork r)).map (· - 1) ∧
      ls'.countP (fun l => l.active && l.final) = (ls.map (laneWork r)).count 1 := by
  induction h with
  | nil => exact ⟨rfl, rfl⟩
  | @cons l l' ls ls' reader staged h h' t ih =>
    subst h'
    obtain ⟨h1, h2⟩ := laneWork_gathered hr (hf l List.mem_cons_self) h
    obtain ⟨i1, i2⟩ := ih fun x hx => hf x (List.mem_cons_of_mem _ hx)
    constructor
    · simp only [List.map_cons, h1, i1]
    · simp only [List.map_cons, List.countP_cons, List.count_cons, i2, h2, beq_iff_eq]

/-- No lane is active exactly if no lane has a block to gather. -/
theorem anyActive_counts (r : Nat) (ls : List BatchLane) :
    ((ls.map (laneWork r)).all fun b => b == 0) = !anyActive ls := by
  induction ls with
  | nil => rfl
  | cons l ls ih =>
    simp only [List.map_cons, List.all_cons, ih, anyActive, List.any_cons]
    cases ha : l.active <;> simp [laneWork, ha, blocksOf]

/-- Free lanes have nothing to gather: the lanes a call starts from. -/
theorem free_counts (r : Nat) {ls : List BatchLane} (h : ∀ l ∈ ls, l.active = false) :
    ls.map (laneWork r) = List.replicate ls.length 0 := by
  rw [List.eq_replicate_iff]
  refine ⟨by simp, fun b hb => ?_⟩
  obtain ⟨l, hl, rfl⟩ := List.mem_map.1 hb
  simp [laneWork, h l hl]

end Sys2Proof.Machine
end

