-- ==== Sys2Proof/Laws/PerInstr.lean ====
section
/-! SUPPORT. One lemma per command for the statements made about commands as syntax. -/

namespace Sys2Proof.Laws.OpcodeMap

/-- The fields that the encoder gives a command are a row of the opcode map: RSVD is zero, UNIT and FUNC are known (R81-R83). -/
def Statement (i : Instr) : Prop := i.fields.wf = true ∧ i.wf = true

theorem kfPermute : Statement .kfPermute := ⟨rfl, rfl⟩
theorem kfLoad : Statement .kfLoad := ⟨rfl, rfl⟩
theorem kfStore : Statement .kfStore := ⟨rfl, rfl⟩
theorem spInit : Statement .spInit := ⟨rfl, rfl⟩
theorem spAbsorb : Statement .spAbsorb := ⟨rfl, rfl⟩
theorem spPad : Statement .spPad := ⟨rfl, rfl⟩
theorem spSqueeze : Statement .spSqueeze := ⟨rfl, rfl⟩
theorem seqConstruct : Statement .seqConstruct := ⟨rfl, rfl⟩
theorem seqInit : Statement .seqInit := ⟨rfl, rfl⟩
theorem seqAdd : Statement .seqAdd := ⟨rfl, rfl⟩
theorem seqDigest : Statement .seqDigest := ⟨rfl, rfl⟩
theorem seqDestroy : Statement .seqDestroy := ⟨rfl, rfl⟩
theorem accConstruct : Statement .accConstruct := ⟨rfl, rfl⟩
theorem accInit : Statement .accInit := ⟨rfl, rfl⟩
theorem accAdd : Statement .accAdd := ⟨rfl, rfl⟩
theorem accDigest : Statement .accDigest := ⟨rfl, rfl⟩
theorem accDestroy : Statement .accDestroy := ⟨rfl, rfl⟩
theorem batConstruct : Statement .batConstruct := ⟨rfl, rfl⟩
theorem batCalculate : Statement .batCalculate := ⟨rfl, rfl⟩
theorem batSize : Statement .batSize := ⟨rfl, rfl⟩
theorem batDestroy : Statement .batDestroy := ⟨rfl, rfl⟩

end Sys2Proof.Laws.OpcodeMap
end

