-- ==== Sys2Proof/Tests/Slice0.lean ====
section
/-! SUPPORT. Tests of the model: words written out from the encoding, ill-formed terms refused, one-step tests against the values of
95_test_vectors.md, and for every statement with hypotheses a state that meets them. -/

set_option Elab.async false

namespace Sys2Proof.Tests

open Sys2Proof.Machine

/-! ### Small states -/

/-- A platform that admits every address, with two batch lanes and the window at 0x12300. -/
def plat : Platform := { regPage := 0x123, regions := [⟨0, 2 ^ 64⟩], extraLanes := 1, extraRingSlots := 0, extraBufferBlocks := 0 }

/-- A platform that admits the addresses below 0x8000 only. -/
def holed : Platform := { plat with regions := [⟨0, 0x8000⟩] }

/-- A block right after reset. -/
def start : State := State.powerOn plat

/-- The operand registers stored with the given values, the rest stored with 0. -/
def withArgs (s : State) (a b c d e : Word) : State :=
  { s with args := ⟨#[a, b, c, d, e], rfl⟩, argWritten := Vector.replicate 5 true }

/-- Bytes placed in host memory. -/
def withBytes (s : State) (a : Nat) (bs : List Byte) : State := { s with mem := Memory.writeBytes s.mem a bs }

/-- The RAW unit with a valid zero state and a width. -/
def rawOf (w : Option Width) (s : State) : State := { s with raw := { lanes := zeroLanes, svalid := true, width := w } }

/-- An engine in a lifecycle state. -/
def engineOf (st : EngineState) (w : Width) (buf : List Byte) : Engine := { st := st, width := some w, lanes := zeroLanes, buf := buf }

/-- The BAT engine READY with two free lanes. -/
def batOf (st : BatState) (w : Width) (s : State) : State :=
  { s with bat := { st := st, width := some w, lanes := List.replicate 2 BatchLane.idle } }

/-- The next state's view, `none` if the machine stops. -/
def view {α : Type} (f : State → α) (o : Host.Outcome State Fault Refusal) : Option α := (nextOf o).map f

/-- A next state with a decidable property, found by evaluating the outcome. -/
theorem exists_next {o : Host.Outcome State Fault Refusal} {p : State → Prop} [DecidablePred p]
    (h : (view (fun t => decide (p t)) o) = some true) : ∃ t, o = .next t ∧ p t := by
  cases o with
  | next t => exact ⟨t, rfl, by simpa [view, nextOf] using h⟩
  | fault _ => simp [view, nextOf] at h
  | refused _ => simp [view, nextOf] at h

/-- Every command answers a next state. -/
theorem answers (i : Instr) (s : State) : ∃ t, exec i s = .next t := ⟨_, exec_eq i s⟩

/-- A state's invariant, found by evaluation. -/
theorem inv_of {s : State} (h : decide (s.Inv) = true) : s.Inv := of_decide_eq_true h

/-- A word as its eight little-endian bytes, several in a row. -/
def table (ws : List Word) : List Byte := ws.flatMap bytes64

/-! ### Decoding: words written out from R81 and R83 (RSVD zero, then UNIT, then FUNC) -/

theorem test_decode_kf :
    decode 0b00000001#64 = .ok .kfPermute ∧ decode 0b00000010#64 = .ok .kfLoad ∧ decode 0b00000011#64 = .ok .kfStore := by decide

theorem test_decode_sp :
    decode 0b00010000#64 = .ok .spInit ∧ decode 0b00010001#64 = .ok .spAbsorb ∧ decode 0b00010010#64 = .ok .spPad ∧
      decode 0b00010011#64 = .ok .spSqueeze := by decide

theorem test_decode_seq :
    decode 0b00100000#64 = .ok .seqConstruct ∧ decode 0b00100001#64 = .ok .seqInit ∧ decode 0b00100010#64 = .ok .seqAdd ∧
      decode 0b00100011#64 = .ok .seqDigest ∧ decode 0b00101111#64 = .ok .seqDestroy := by decide

theorem test_decode_acc :
    decode 0b00110000#64 = .ok .accConstruct ∧ decode 0b00110001#64 = .ok .accInit ∧ decode 0b00110010#64 = .ok .accAdd ∧
      decode 0b00110011#64 = .ok .accDigest ∧ decode 0b00111111#64 = .ok .accDestroy := by decide

theorem test_decode_bat :
    decode 0b01000000#64 = .ok .batConstruct ∧ decode 0b01000001#64 = .ok .batCalculate ∧ decode 0b01000010#64 = .ok .batSize ∧
      decode 0b01001111#64 = .ok .batDestroy := by decide

/-- 95_test_vectors.md V80-V82. -/
theorem test_decode_illegal :
    decode 0 = .error .noSuchFunction ∧ decode 0x122 = .error .reservedNotZero ∧ decode 0x04 = .error .noSuchFunction ∧
      decode 0x14 = .error .noSuchFunction ∧ decode 0x24 = .error .noSuchFunction ∧ decode 0x43 = .error .noSuchFunction ∧
      decode 0x50 = .error .noSuchUnit ∧ decode 0xFF = .error .noSuchUnit ∧ decodeBytes [0x22] = .error .shortWord := by decide

theorem test_table_word : decodeTableWord 64 0x41 = some .batCalculate ∧ decodeTableWord 64 0x122 = none := by decide

/-- A line's encoding is its register stores, ARGs first (R90). -/
theorem test_asm_line :
    (AsmLine.command .seqAdd [(0, 0x1000), (1, 1)]).stores plat = [(0x12308, 0x1000), (0x12310, 1), (0x12300, 0x22)] := by decide

/-! ### Ill-formed terms are refused -/

theorem test_wf_reserved : ({ rsvd := 1, unit := 2, func := 2 } : CmdFields).wf = false := by decide
theorem test_wf_unit : ({ rsvd := 0, unit := 5, func := 0 } : CmdFields).wf = false := by decide
theorem test_wf_function : ({ rsvd := 0, unit := 4, func := 3 } : CmdFields).wf = false := by decide
theorem test_wf_store : (HostOp.store 0xFFFFFFFFFFFFFFFF [1, 2]).wf = false := by decide
theorem test_wf_load : (HostOp.load 0xFFFFFFFFFFFFFFF9 8).wf = false := by decide

/-! ### The steps of the permutation (V12) -/

theorem test_theta : theta (tabulate fun k => if k = 0 then 1 else 0) =
    tabulate fun k => [1, 1, 0, 0, 2, 0, 1, 0, 0, 2, 0, 1, 0, 0, 2, 0, 1, 0, 0, 2, 0, 1, 0, 0, 2].getD k 0 := by decide +kernel

theorem test_pi : piStep (tabulate fun k => BitVec.ofNat 64 k) =
    tabulate fun k => [0, 6, 12, 18, 24, 3, 9, 10, 16, 22, 1, 7, 13, 19, 20, 4, 5, 11, 17, 23, 2, 8, 14, 15, 21].getD k 0 := by
  decide +kernel

theorem test_chi : chi (tabulate fun k => if k = 2 then 0xffffffffffffffff else 0) =
    tabulate fun k => if k = 0 ∨ k = 2 then 0xffffffffffffffff else 0 := by decide +kernel

theorem test_iota : laneK (iota zeroLanes 23) 0 = 0x8000000080008008 := by decide +kernel

/-! ### One step of each command (expected values from 95_test_vectors.md) -/

/-- V10. -/
theorem test_kfPermute :
    view (fun t => (laneK t.raw.lanes 0, laneK t.raw.lanes 24, t.err)) (exec .kfPermute (rawOf none start)) =
      some (0xf1258f7940e1dde7, 0xeaf1ff7b5ceca249, false) := by decide +kernel

/-- V15 (a), through a step. -/
theorem test_kfPermute_invalid : view State.status (step (start.withFetchWord 64 0x01)) = some 0x0903 := by decide +kernel

/-- V14. -/
theorem test_kfLoad :
    view (fun t => (laneK t.raw.lanes 0, laneK t.raw.lanes 24, t.raw.svalid))
      (exec .kfLoad (withArgs (withBytes start 0x5000 ((List.range 200).map (BitVec.ofNat 8))) 0x5000 0 0 0 0)) =
      some (0x0706050403020100, 0xc7c6c5c4c3c2c1c0, true) := by decide +kernel

/-- V15 (c). -/
theorem test_kfLoad_range :
    view State.status (exec .kfLoad (withArgs start 0xffffffffffffff40 0 0 0 0)) = some 0x0C03 ∧
      rangeOk 0xffffffffffffff38 200 = true := by decide +kernel

theorem test_kfStore :
    view (fun t => (t.mem.read 0x6007, t.mem.read 0x6000, t.mem.read 0x60c8))
      (exec .kfStore (withArgs { start with
        raw := ⟨tabulate fun k => if k = 0 then 0x8000000000000005 else 0, true, none⟩ } 0x6000 0 0 0 0)) = some (0x80, 5, 0) := by decide +kernel

/-- V15 (b). -/
theorem test_kfStore_invalid : view (fun t => (t.status, t.mem)) (exec .kfStore (withArgs start 0x1000 0 0 0 0)) =
    some (0x0903, []) := by decide +kernel

/-- R150's example. -/
theorem test_spInit : view (fun t => (t.regValue .rawWidth, t.status, laneK t.raw.lanes 3))
    (exec .spInit (withArgs start 256 0 0 0 0)) = some (256, 0x30000000, 0) := by decide +kernel

/-- V35 (d). -/
theorem test_spInit_width : view State.status (exec .spInit (withArgs start 0x1000000E0 0 0 0 0)) = some 0x0203 := by decide +kernel

/-- V35 (b). -/
theorem test_spAbsorb_noWidth : view State.status (exec .spAbsorb (withArgs (rawOf none start) 0 0 0 0 0)) = some 0x10000A03 := by
  decide +kernel

/-- V31a: the padded block of "abc" at width 256. -/
theorem test_spPad :
    view (fun t => (t.mem.readBytes 0x3000 5, t.mem.readBytes 0x3086 3))
      (exec .spPad (withArgs (withBytes (rawOf (some .w256) start) 0x1000 [0x61, 0x62, 0x63]) 0x1000 3 0x3000 0 0)) =
      some ([0x61, 0x62, 0x63, 0x06, 0], [0, 0x80, 0]) := by decide +kernel

/-- V35 (f): the refusal mark, and nothing else. -/
theorem test_spPad_overlap :
    view (fun t => (t.mark, t.status, t.mem)) (exec .spPad (withArgs (rawOf (some .w224) start) 0x1000 3 0x1002 0 0)) =
      some (some .operandOverlap, 0x30000000, []) := by decide +kernel

/-- V33. -/
theorem test_spSqueeze :
    view (fun t => t.mem.readBytes 0x2000 33)
      (exec .spSqueeze (withArgs (withBytes (rawOf (some .w256) start) 0x2000 (List.replicate 33 0xAA)) 0x2000 0 0 0 0)) =
      some (List.replicate 32 0 ++ [0xAA]) := by decide +kernel

/-- R171's example. -/
theorem test_seqConstruct : view (fun t => (t.status, t.regValue .seqWidth)) (exec .seqConstruct (withArgs start 224 0 0 0 0)) =
    some (0x10000, 224) := by decide +kernel

/-- V57. -/
theorem test_seqConstruct_twice :
    view State.status (exec .seqConstruct (withArgs { start with seq := engineOf .fresh .w224 [] } 224 0 0 0 0)) = some 0x10403 := by
  decide +kernel

theorem test_seqInit : view (fun t => (t.status, t.seq.buf)) (exec .seqInit { start with seq := engineOf .absorbing .w224 [1, 2] }) =
    some (0x10000, []) := by decide +kernel

/-- V53: a zero-length ADD at the last address. -/
theorem test_seqAdd_empty :
    view State.status (exec .seqAdd (withArgs { start with seq := engineOf .fresh .w224 [] } 0xffffffffffffffff 0 0 0 0)) =
      some 0x20000 := by decide +kernel

/-- V62. -/
theorem test_seqAdd_busError :
    view State.status (exec .seqAdd (withArgs { State.powerOn holed with seq := engineOf .fresh .w224 [] } 0x7fff 2 0 0 0)) =
      some 0x41003 := by decide +kernel

/-- V1, the document's known answer. -/
theorem test_seqDigest :
    view (fun t => (t.mem.readBytes 0x2000 28, t.status))
      (exec .seqDigest (withArgs { start with seq := engineOf .absorbing .w224 [0x31, 0x32, 0x33] } 0x2000 0 0 0 0)) =
      some ([0x60, 0x2b, 0xdc, 0x20, 0x41, 0x40, 0xdb, 0x01, 0x6b, 0xee, 0x53, 0x74, 0x89, 0x5e, 0x55, 0x68, 0xce, 0x42, 0x2f,
        0xab, 0xe1, 0x7e, 0x06, 0x40, 0x61, 0xd8, 0x00, 0x97], 0x30000) := by decide +kernel

/-- V55. -/
theorem test_seqDigest_twice :
    view State.status (exec .seqDigest (withArgs { start with seq := engineOf .finalized .w224 [] } 0x2000 0 0 0 0)) =
      some 0x30703 := by decide +kernel

/-- V62, its end. -/
theorem test_seqDestroy :
    view (fun t => (t.status, t.regValue .seqWidth))
      (exec .seqDestroy { start with seq := engineOf .failed .w224 [], faultSeen := true }) = some (0x0002, 0) := by decide +kernel

/-- V72. -/
theorem test_accConstruct :
    view (fun t => (t.status, t.regValue .accWidth)) (exec .accConstruct (withArgs { start with env := [.allocFailure] } 512 0 0 0 0)) =
      some (0x1103, 0) := by decide +kernel

/-- V77. -/
theorem test_accInit :
    view State.status (exec .accInit { start with acc := engineOf .fresh .w256 [], env := [.transferFailure] }) = some 0x401203 := by
  decide +kernel

/-- V73. -/
theorem test_accAdd :
    view (fun t => (t.status, t.regValue .accWidth))
      (exec .accAdd (withArgs { start with acc := engineOf .fresh .w224 [], env := [.transferFailure] } 0x1000 1 0 0 0)) =
      some (0x401203, 224) := by decide +kernel

theorem test_accAdd_noFailure :
    view (fun t => (t.status, t.acc.buf))
      (exec .accAdd (withArgs (withBytes { start with acc := engineOf .fresh .w224 [], env := [.noFailure] } 0x1000 [7, 8]) 0x1000 2 0 0 0)) =
      some (0x200000, [7, 8]) := by decide +kernel

/-- V70 with V1. -/
theorem test_accDigest :
    view (fun t => (t.mem.readBytes 0x2000 4, t.status))
      (exec .accDigest (withArgs { start with acc := engineOf .absorbing .w224 [0x31, 0x32, 0x33], env := [.noFailure] } 0x2000 0 0 0 0)) =
      some ([0x60, 0x2b, 0xdc, 0x20], 0x300000) := by decide +kernel

/-- V76: the status of a failed digest. -/
theorem test_accDigest_failure :
    view State.status
      (exec .accDigest (withArgs { start with acc := engineOf .absorbing .w256 [0x31], env := [.kernelFailure] } 0x2000 0 0 0 0)) =
      some 0x401303 := by decide +kernel

/-- R206's example. -/
theorem test_accDestroy : view (fun t => t.acc.st) (exec .accDestroy { start with acc := engineOf .failed .w512 [] }) =
    some .unconstructed := by decide +kernel

/-- R231's example. -/
theorem test_batConstruct :
    view (fun t => (t.status, t.regValue .batWidth)) (exec .batConstruct (withArgs { start with env := [.noFailure] } 256 0 0 0 0)) =
      some (0x5000000, 256) := by decide +kernel

/-- A batch of "abc" and the empty message at width 256 (V26, V2b): the pointer of the empty message is not admitted. -/
def batchState : State :=
  withArgs (withBytes (withBytes (withBytes (batOf .ready .w256 { State.powerOn holed with env := List.replicate 8 .noFailure })
    0x1000 [0x61, 0x62, 0x63]) 0x2000 (table [0x1000, 0xDEADBEEF])) 0x2100 (table [3, 0])) 0x2000 2 0x2100 2 0x3000

theorem test_batCalculate :
    view (fun t => (t.mem.readBytes 0x3000 4, t.mem.readBytes 0x3020 4, t.status, t.env.length)) (exec .batCalculate batchState) =
      some ([0x3a, 0x98, 0x5d, 0xa7], [0xa7, 0xff, 0xc6, 0xf8], 0x5000000, 4) := by decide +kernel

/-- V22. -/
theorem test_batCalculate_mismatch :
    view State.status (exec .batCalculate (withArgs (batOf .ready .w512 start) 0x11000 3 0x11100 4 0x12000)) = some 0x5000803 := by
  decide +kernel

/-- V25 with C = 2. -/
theorem test_batSize : view (fun t => (t.result, t.status)) (exec .batSize (batOf .ready .w256 start)) = some (2, 0x5000000) := by
  decide +kernel

/-- V28. -/
theorem test_batSize_unconstructed : view (fun t => (t.result, t.status)) (exec .batSize start) = some (0, 0x0303) := by decide +kernel

/-- V29b, its end. -/
theorem test_batDestroy : view (fun t => t.bat.st) (exec .batDestroy (batOf .failed .w256 start)) = some .unconstructed := by
  decide +kernel

/-! ### The host interface -/

/-- V85: the operand ARG1 was never stored. -/
theorem test_argUnwritten :
    view (fun t => (t.mark, t.status, t.cmd)) (step { start with pending := [regStoreOp .cmd 0x22] }) =
      some (some .argUnwritten, 0, 0x22) := by decide +kernel

/-- V80 through a physical store at REG_BASE. -/
theorem test_illegal : view State.status (step { start with pending := [.store 0x12300 (bytes64 0)] }) = some 0x0103 := by decide +kernel

/-- R32: a 32-bit access, and an access to a reserved offset. -/
theorem test_regAccessError :
    view State.mark (step { start with pending := [.regLoad 0x30 4] }) = some (some .regAccessError) ∧
      view State.mark (step { start with pending := [.regStore 0x60 (bytes64 0)] }) = some (some .regAccessError) := by decide +kernel

/-- V91: reset clears FAULTSEEN and leaves memory. -/
theorem test_reset :
    view (fun t => (t.status, t.mem)) (step { withBytes start 0x10 [9] with faultSeen := true, pending := [.reset] }) =
      some (0, [(0x10, 9)]) := by decide +kernel

/-- R234, R301: a BAT_CALCULATE whose message wraps (V29c's kind) writes nothing, so reset during it leaves its output region. -/
theorem test_reset_range :
    view (fun t => t.mem.read 0x3000) (perform (.issueReset 0x41) (withArgs (withBytes (withBytes (withBytes (batOf .ready .w256 start)
      0x2000 (table [0xfffffffffffffffe])) 0x2100 (table [5])) 0x3000 [0x77]) 0x2000 1 0x2100 1 0x3000)) = some 0x77 := by
  decide +kernel

/-- A host access past the last address is no access: the machine stops. -/
theorem test_past_memory : (nextOf (step { start with pending := [.load 0xFFFFFFFFFFFFFFFF 2] })).isNone = true := by decide +kernel

/-! ### Witnesses: every statement's hypotheses can be met together -/

/-- A state in the middle of a message, an ACC engine finalized, the RAW unit set, the BAT engine READY. -/
def busy : State :=
  withArgs (batOf .ready .w256 (rawOf (some .w224) { start with
    seq := engineOf .absorbing .w512 [1], acc := engineOf .finalized .w384 [], env := [.noFailure] })) 0x1000 8 0x2000 8 0x3000

theorem witness_inv : busy.Inv ∧ start.Inv := ⟨inv_of (by decide +kernel), inv_of (by decide +kernel)⟩

theorem witness_IllegalWordChangesStatusOnly : ∀ i, decode 0x122 ≠ .ok i := by intro i; cases i <;> decide

theorem witness_StepRunsDecodedCommand :
    decode 0x22 = .ok .seqAdd ∧ ({ start with pending := [regStoreOp .cmd 0x22] } : State).pending = .regStore 0 (bytes64 0x22) :: [] ∧
      (0x12300 : Word).toNat = start.platform.regBase ∧
      ({ start with pending := [.store 0x12300 (bytes64 0x22)] } : State).pending = .store 0x12300 (bytes64 0x22) :: [] := by
  decide +kernel

theorem witness_CmdRegister : ({ start with pending := [regStoreOp .cmd 0x122] } : State).pending = .regStore 0 (bytes64 0x122) :: [] ∧
    ∀ i, decode 0x122 ≠ .ok i := ⟨by decide +kernel, witness_IllegalWordChangesStatusOnly⟩

theorem witness_ResetState : ({ busy with pending := [.reset] } : State).pending = .reset :: [] := by decide +kernel

theorem witness_ArgRegisters : start.lacksArgs .batCalculate = true ∧ ∃ t, exec .kfPermute busy = .next t :=
  ⟨by decide +kernel, answers _ _⟩

theorem witness_WidthRegisters : busy.seq.width = some .w512 ∧ busy.acc.width = some .w384 ∧ busy.bat.width = some .w256 ∧
    busy.raw.width = some .w224 ∧ start.seq.st = .unconstructed ∧ start.raw.width = none := by decide +kernel

theorem witness_OtherWindowAccessesRefused : (¬(4 = 8 ∧ 0x30 % 8 = 0 ∧ 0x30 ≤ 0x58)) ∧ (¬(8 = 8 ∧ 0x5c % 8 = 0 ∧ 0x5c ≤ 0x58)) ∧
    ¬(8 = 8 ∧ 0x60 % 8 = 0 ∧ 0x60 ≤ 0x58) := by decide

theorem witness_ResetAbandonsCommand : decode 0x03 = .ok .kfStore ∧ ∀ i, decode 0 ≠ .ok i := ⟨by decide, by intro i; cases i <;> decide⟩

theorem witness_RacedReads : (∃ c ∈ [((5 : Word), (7 : Byte))], c.1.toNat = 5) ∧ (∀ c ∈ [((5 : Word), (7 : Byte))], c.1.toNat ≠ 6) ∧
    (∃ t, exec .kfPermute { busy with race := [(5, 7)] } = .next t) ∧ ∃ u, exec .kfPermute { busy with race := [] } = .next u :=
  ⟨by decide, by simp, answers _ _, answers _ _⟩

/-- The corner indices of the per-lane statements, and their inner ones. -/
theorem witness_lane_indices : (4 < 5 ∧ 0 < 5) ∧ 24 < 25 ∧ 23 < 24 ∧ (0 = 0 ∧ 0 = 0) ∧ ¬(4 = 0 ∧ 4 = 0) ∧ 63 < 64 := by decide

theorem witness_SerializationRoundTrip : (List.replicate 200 (0 : Byte)).length = 200 := by decide +kernel

theorem witness_BlockBytesEnterLanes : (List.replicate 72 (0 : Byte)).length = rate Width.w512.bits ∧ 71 < rate Width.w512.bits ∧
    rate Width.w512.bits / 8 ≤ 9 ∧ 9 < 25 := by decide +kernel

theorem witness_PaddedBlockBytes : (List.replicate 143 (0 : Byte)).length < rate Width.w224.bits ∧
    ([] : List Byte).length < rate Width.w224.bits ∧ 143 < rate Width.w224.bits ∧ 143 = rate Width.w224.bits - 1 := by decide +kernel

theorem witness_KfPermute : busy.Ready .kfPermute ∧ busy.raw.svalid = true ∧ start.Ready .kfPermute ∧ start.raw.svalid = false := by
  decide +kernel

/-- KF_LOAD at the last 200 addresses, one past them, and at addresses not admitted. -/
theorem witness_KfLoad :
    (withArgs start 0xffffffffffffff38 0 0 0 0).Ready .kfLoad ∧ (withArgs start 0xffffffffffffff38 0 0 0 0).Accessible 0xffffffffffffff38 200 ∧
      2 ^ 64 < (withArgs start 0xffffffffffffff39 0 0 0 0).argNat 0 + 200 ∧
      rangeOk 0x8000 200 = true ∧ (State.powerOn holed).platform.admitsAll 0x8000 200 = false := by decide +kernel

theorem witness_KfStore : busy.Ready .kfStore ∧ Memory.wf busy.mem ∧ busy.raw.svalid = true ∧ busy.Accessible (busy.argNat 0) 200 := by
  decide +kernel

theorem witness_SpInit : (withArgs start 224 0 0 0 0).Ready .spInit ∧ ((withArgs start 224 0 0 0 0).arg 0).toNat = Width.w224.bits ∧
    ∀ w : Width, ((withArgs start 0 0 0 0 0).arg 0).toNat ≠ w.bits :=
  ⟨by decide +kernel, by decide +kernel, by intro w; cases w <;> decide +kernel⟩

theorem witness_SpAbsorb : busy.Ready .spAbsorb ∧ busy.raw.svalid = true ∧ busy.raw.width = some .w224 ∧
    busy.Accessible (busy.argNat 0) (rate Width.w224.bits) := by decide +kernel

theorem witness_SpPad : busy.Ready .spPad ∧ Memory.wf busy.mem ∧ busy.raw.width = some .w224 ∧ busy.argNat 1 < rate Width.w224.bits ∧
    busy.Accessible (busy.argNat 0) (busy.argNat 1) ∧ busy.Accessible (busy.argNat 2) (rate Width.w224.bits) ∧
    overlaps (busy.argNat 0) (busy.argNat 1) (busy.argNat 2) (rate Width.w224.bits) = false := by decide +kernel

theorem witness_SpSqueeze : busy.Ready .spSqueeze ∧ Memory.wf busy.mem ∧ busy.raw.svalid = true ∧ busy.raw.width = some .w224 ∧
    busy.Accessible (busy.argNat 0) (dlen Width.w224.bits) := by decide +kernel

/-- One state for each clause of the order of checks. -/
theorem witness_RawUnitChecks :
    let at0 (s : State) : State := withArgs s 0 0 0 0 0
    let top (s : State) : State := withArgs s 0xffffffffffffffff 0 0 0 0
    ((at0 start).Ready .kfStore ∧ (at0 start).Ready .spAbsorb ∧ (at0 start).Ready .spSqueeze ∧ (at0 start).raw.svalid = false) ∧
    ((at0 (rawOf none start)).Ready .spAbsorb ∧ (at0 (rawOf none start)).raw.svalid = true ∧ (at0 (rawOf none start)).raw.width = none) ∧
    ((at0 start).Ready .spPad ∧ (at0 start).raw.width = none) ∧
    ((top (rawOf none start)).Ready .kfStore ∧ 2 ^ 64 < (top (rawOf none start)).argNat 0 + 200) ∧
    ((top (rawOf (some .w512) start)).Ready .spAbsorb ∧ 2 ^ 64 < (top (rawOf (some .w512) start)).argNat 0 + rate Width.w512.bits) ∧
    2 ^ 64 < (top (rawOf (some .w512) start)).argNat 0 + dlen Width.w512.bits ∧
    rate Width.w224.bits ≤ (withArgs (rawOf (some .w224) start) 0 144 0 0 0).argNat 1 ∧
    (rangeOk 0xffffffffffffffff 2 = false ∧ 2 < rate Width.w224.bits) ∧
    (rangeOk 0x1000 3 = true ∧ rangeOk 0x1002 (rate Width.w224.bits) = true ∧ overlaps 0x1000 3 0x1002 (rate Width.w224.bits) = true) := by
  decide +kernel

theorem witness_RawUnitBusError :
    ∃ t, exec .kfLoad (withArgs (State.powerOn holed) 0x8000 0 0 0 0) = .next t ∧
      (withArgs (State.powerOn holed) 0x8000 0 0 0 0).errCode ≠ .busError ∧ t.errCode = .busError := exists_next (by decide +kernel)

/-- One state for each clause of the bus errors: the addresses from 0x8000 on are not admitted. -/
theorem witness_RawUnitBusErrors :
    let s : State := withArgs (rawOf (some .w224) (State.powerOn holed)) 0x8000 3 0x1000 0 0
    (s.Ready .kfLoad ∧ s.Ready .kfStore ∧ s.Ready .spAbsorb ∧ s.Ready .spSqueeze ∧ s.Ready .spPad) ∧ s.raw.svalid = true ∧
      s.raw.width = some .w224 ∧ s.NotAdmitted (s.argNat 0) 200 ∧ s.NotAdmitted (s.argNat 0) (rate Width.w224.bits) ∧
      s.NotAdmitted (s.argNat 0) (dlen Width.w224.bits) ∧ s.argNat 1 < rate Width.w224.bits ∧ s.NotAdmitted (s.argNat 0) (s.argNat 1) ∧
      rangeOk (s.argNat 2) (rate Width.w224.bits) = true ∧
      overlaps (s.argNat 0) (s.argNat 1) (s.argNat 2) (rate Width.w224.bits) = false := by decide +kernel

theorem witness_StreamBusErrors :
    let s : State := withArgs { State.powerOn holed with seq := engineOf .fresh .w224 [] } 0x7fff 2 0 0 0
    s.Ready EngineSel.seq.add ∧ s.Ready EngineSel.seq.digest ∧ (s.engine .seq).st = .fresh ∧ (s.engine .seq).width = some .w224 ∧
      s.NotAdmitted (s.argNat 0) (s.argNat 1) ∧ s.NotAdmitted (s.argNat 0) (dlen Width.w224.bits) := by decide +kernel

/-- Two states that agree at every observation point and differ in the SEQ engine's buffer. -/
theorem witness_SameObserved : busy.SameObserved { busy with seq := engineOf .absorbing .w512 [2] } ∧
    busy ≠ { busy with seq := engineOf .absorbing .w512 [2] } :=
  ⟨⟨fun r _ => by cases r <;> rfl, rfl, rfl, rfl, rfl⟩, fun h => by
    have := congrArg (fun s : State => s.seq.buf) h
    simp [busy, withArgs, batOf, rawOf, engineOf] at this⟩

theorem witness_Construct :
    let s := withArgs { start with env := [.noFailure] } 384 0 0 0 0
    s.Ready EngineSel.acc.construct ∧ (s.engine .acc).st = .unconstructed ∧ (s.arg 0).toNat = Width.w384.bits ∧
      s.NoFailureAt .acc .accAlloc := by decide +kernel

theorem witness_Init : busy.Ready EngineSel.acc.init ∧ (busy.engine .acc).st ≠ .unconstructed ∧ (busy.engine .acc).st ≠ .failed ∧
    busy.NoFailureAt .acc .accInit := by decide +kernel

/-- An ACC engine in the middle of a message with one answer at hand. -/
def accBusy (answer : EnvAnswer) : State := withArgs { start with acc := engineOf .absorbing .w512 [1], env := [answer] } 0x1000 8 0 0 0

theorem witness_Add : (accBusy .noFailure).Ready EngineSel.acc.add ∧ ((accBusy .noFailure).engine .acc).st = .absorbing ∧
    ((accBusy .noFailure).engine .acc).width = some .w512 ∧ (accBusy .noFailure).Accessible 0x1000 8 ∧
    (∀ x : Engine, ((accBusy .noFailure).setEngine .acc x).NoFailureAt .acc .accAdd) ∧
    busy.Ready EngineSel.seq.add ∧ (∀ x : Engine, (busy.setEngine .seq x).NoFailureAt .seq .accAdd) :=
  ⟨by decide +kernel, by decide, by decide, by decide +kernel, fun _ _ => rfl, by decide +kernel, fun _ h => by cases h⟩

theorem witness_Digest : (accBusy .noFailure).Ready EngineSel.acc.digest ∧ Memory.wf (accBusy .noFailure).mem ∧
    (accBusy .noFailure).Accessible 0x1000 (dlen Width.w512.bits) ∧
    (∀ x : Engine, ((accBusy .noFailure).setEngine .acc x).NoFailureAt .acc .accDigest) :=
  ⟨by decide +kernel, by decide, by decide +kernel, fun _ _ => rfl⟩

theorem witness_Destroy : busy.Ready EngineSel.seq.destroy ∧ (busy.engine .seq).st ≠ .unconstructed := by decide +kernel

theorem witness_StreamStateMachine :
    (busy.Ready EngineSel.seq.construct ∧ busy.seq.st ≠ .unconstructed) ∧
    (withArgs start 0 0 0 0 0).Ready EngineSel.seq.digest ∧ (start.engine .seq).st = .unconstructed ∧
    busy.Ready EngineSel.acc.add ∧ (busy.engine .acc).st = .finalized ∧
    (∃ t, exec .seqInit busy = .next t ∧ t.err = false) ∧
    ∃ t, exec .seqAdd (withArgs { State.powerOn holed with seq := engineOf .fresh .w224 [] } 0x7fff 2 0 0 0) = .next t ∧
      t.errCode = .busError :=
  ⟨by decide +kernel, by decide +kernel, by decide, by decide +kernel, by decide, exists_next (by decide +kernel),
    exists_next (by decide +kernel)⟩

/-- A run INIT, ADDs, DIGEST of an engine that meets every hypothesis, its last state's property found by evaluation. -/
theorem streamed_run {e : EngineSel} {s : State} {w : Width} {chunks : List (Word × Word)} {dst : Word}
    (h : ((nextOf (exec e.init s)).map fun fresh => (fresh.err, (fresh.engine e).width,
      (addChunks e chunks fresh).map fun added => view State.err (exec e.digest (added.withArg0 dst)))) =
        some (false, some w, some (some false))) :
    ∃ fresh added final, exec e.init s = .next fresh ∧ fresh.err = false ∧ (fresh.engine e).width = some w ∧
      addChunks e chunks fresh = some added ∧ exec e.digest (added.withArg0 dst) = .next final ∧ final.err = false := by
  obtain ⟨fresh, h0, h⟩ := Option.map_eq_some_iff.mp h
  simp only [Prod.mk.injEq] at h
  obtain ⟨added, h1, h2⟩ := Option.map_eq_some_iff.mp h.2.2
  obtain ⟨final, h3, h4⟩ := Option.map_eq_some_iff.mp h2
  rw [exec_eq] at h0 h3
  exact ⟨fresh, added, final, by rw [exec_eq]; simpa [nextOf] using h0, h.1, h.2.1, h1, by rw [exec_eq]; simpa [nextOf] using h3, h4⟩

/-- INIT, two ADDs and a DIGEST of the SEQ engine, all successful. -/
theorem witness_StreamedDigest : Memory.wf busy.mem ∧ busy.race = [] ∧ ∃ fresh added final,
    exec EngineSel.seq.init busy = .next fresh ∧ fresh.err = false ∧
      (fresh.engine .seq).width = some .w512 ∧ addChunks .seq [(0x1000, 1), (0x1001, 2)] fresh = some added ∧
      exec EngineSel.seq.digest (added.withArg0 0x2000) = .next final ∧ final.err = false :=
  ⟨by decide +kernel, rfl, streamed_run (by decide +kernel)⟩

theorem witness_AccMatchesSeq : (∀ x : Engine, ({ accBusy .noFailure with acc := x }.drawIf (some .accAdd)).1 = none) ∧
    ∃ t u, exec .accAdd (accBusy .noFailure) = .next t ∧
      exec .seqAdd { accBusy .noFailure with seq := (accBusy .noFailure).acc, acc := (accBusy .noFailure).seq } = .next u :=
  ⟨fun _ => rfl, _, _, exec_eq _ _, exec_eq _ _⟩

theorem witness_AccDrawnFailures :
    (let s := withArgs { start with env := [.allocFailure] } 384 0 0 0 0
     s.Ready .accConstruct ∧ s.acc.st = .unconstructed ∧ (s.arg 0).toNat = Width.w384.bits ∧ (s.draw .accAlloc).1 = some .allocFailure) ∧
    ((accBusy .transferFailure).Ready .accInit ∧ ((accBusy .transferFailure).draw .accInit).1 = some .transferFailure) ∧
    (∀ x : Engine, ({ accBusy .kernelFailure with acc := x }.draw .accAdd).1 = some .kernelFailure) ∧
    (∀ x : Engine, ({ accBusy .kernelFailure with acc := x }.draw .accDigest).1 = some .kernelFailure) ∧
    (accBusy .kernelFailure).Accessible 0x1000 8 ∧ rangeOk 0x1000 (accBusy .kernelFailure).acc.dlen = true :=
  ⟨by decide +kernel, by decide +kernel, fun _ => rfl, fun _ => rfl, by decide +kernel, by decide +kernel⟩

theorem witness_FailedEngine :
    (let s := withArgs { start with seq := engineOf .failed .w224 [] } 224 0 0 0 0
     (s.engine .seq).st = .failed ∧ s.Ready EngineSel.seq.digest ∧ s.Ready EngineSel.seq.construct ∧ s.Ready EngineSel.seq.destroy) ∧
    (let s := withArgs (batOf .failed .w224 start) 224 0 0 0 0
     s.bat.st = .failed ∧ s.Ready .batCalculate ∧ s.Ready .batConstruct ∧ s.Ready .batDestroy) ∧
    ∃ t, exec .batSize busy = .next t := ⟨by decide +kernel, by decide +kernel, _, exec_eq _ _⟩

theorem witness_BatConstruct :
    let s (a : EnvAnswer) : State := withArgs { start with env := [a] } 256 0 0 0 0
    ((s .noFailure).Ready .batConstruct ∧ (s .noFailure).bat.st = .unconstructed ∧ ((s .noFailure).arg 0).toNat = Width.w256.bits ∧
      ((s .noFailure).draw .batAlloc).1 = none) ∧ ((s .allocFailure).draw .batAlloc).1 ≠ none := by decide +kernel

theorem witness_BatSize : busy.Ready .batSize ∧ busy.bat.st = .ready ∧ start.bat.st = .unconstructed ∧
    (batOf .failed .w224 start).bat.st = .failed ∧ busy.platform.laneCapacity ≤ 2 := by decide +kernel

theorem witness_BatDestroy : busy.Ready .batDestroy ∧ busy.bat.st ≠ .unconstructed ∧ start.Ready .batDestroy := by decide +kernel

theorem witness_BatEmptyList :
    let s := withArgs (batOf .ready .w256 start) 0 0 0 0 0
    s.Ready .batCalculate ∧ s.bat.st = .ready ∧ s.arg 1 = 0 ∧ s.arg 3 = 0 := by decide +kernel

/-- A message of 5 bytes at the last but one address, and an output over the pointer table (V29c, V27). -/
theorem witness_BatChecks :
    (let s := withArgs (withBytes (withBytes (batOf .ready .w256 start) 0x2000 (table [0xfffffffffffffffe])) 0x2100 (table [5])) 0x2000 1 0x2100 1 0x3000
     s.Ready .batCalculate ∧ s.Accessible 0x2000 8 ∧ s.Accessible 0x2100 8 ∧ rangeOk 0x3000 (1 * s.bat.dlen) = true ∧
     ∃ job ∈ jobsOf (tableEntries (s.mem.readBytes 0x2000 8) 1) (tableEntries (s.mem.readBytes 0x2100 8) 1),
       0 < job.len ∧ 2 ^ 64 < job.ptr + job.len) ∧
    (let s := withArgs (batOf .ready .w256 start) 0x2000 1 0x2100 1 0x2000
     s.Ready .batCalculate ∧ overlaps (s.argNat 4) (s.argNat 1 * s.bat.dlen) (s.argNat 0) (8 * s.argNat 1) = true) ∧
    (let s := withArgs (batOf .ready .w256 start) 0 1 0 2 0
     s.Ready .batCalculate ∧ s.arg 1 ≠ s.arg 3) ∧
    (let s := withArgs (batOf .ready .w256 start) 0xffffffffffffffff 1 0 1 0
     s.Ready .batCalculate ∧ rangeOk (s.argNat 0) (8 * s.argNat 1) = false) := by decide +kernel

theorem witness_Refill : ∃ l : BatchLane, [l][0]? = some l ∧ l.active = true := ⟨BatchLane.assign ⟨0, 0, 0⟩, rfl, rfl⟩

/-- Three free lanes and two messages: the lowest two take them, the third stays as it was. -/
theorem witness_Refill_lowest :
    (refill (List.replicate 3 BatchLane.idle) [⟨0, 1, 2⟩, ⟨1, 3, 4⟩]).1 =
      [BatchLane.assign ⟨0, 1, 2⟩, BatchLane.assign ⟨1, 3, 4⟩, BatchLane.idle] := by decide +kernel

/-- The batch of two messages, its empty message at an address that is not admitted. -/
theorem witness_BatCalculateCompletes :
    batchState.Ready .batCalculate ∧ batchState.bat.st = .ready ∧ batchState.bat.width = some .w256 ∧
      batchState.arg 1 = batchState.arg 3 ∧ batchState.Accessible 0x2000 16 ∧ batchState.Accessible 0x2100 16 ∧
      batchState.Accessible 0x3000 64 ∧
      (∀ job ∈ jobsOf (tableEntries (batchState.mem.readBytes 0x2000 16) 2) (tableEntries (batchState.mem.readBytes 0x2100 16) 2),
        batchState.Accessible job.ptr job.len ∧ overlaps 0x3000 64 job.ptr job.len = false) ∧
      overlaps 0x3000 64 0x2000 16 = false ∧ overlaps 0x3000 64 0x2100 16 = false ∧
      batchState.env = List.replicate (2 * 2 + 2) EnvAnswer.noFailure ++ [.noFailure, .noFailure] := by decide +kernel

theorem witness_BatDigests : batchState.Inv ∧ batchState.bat.st = .ready ∧ batchState.bat.width = some .w256 ∧
    ∃ t, exec .batCalculate batchState = .next t ∧ t.err = false ∧ t.mark = none :=
  ⟨inv_of (by decide +kernel), rfl, rfl, exists_next (by decide +kernel)⟩

/-- A kernel failure in the first iteration (V29's kind). -/
theorem witness_BatFailure : State.Inv { batchState with env := [.noFailure, .kernelFailure] } ∧
    ∃ t, exec .batCalculate { batchState with env := [.noFailure, .kernelFailure] } = .next t ∧
      batchState.errCode.isResource = false ∧ t.errCode.isResource = true :=
  ⟨inv_of (by decide +kernel), exists_next (by decide +kernel)⟩

/-- A table that is not admitted, and one message that is not, no failure being answered. -/
theorem witness_BatBusErrors :
    (let s := withArgs (batOf .ready .w256 (State.powerOn holed)) 0x8000 1 0x2100 1 0x3000
     s.Ready .batCalculate ∧ s.arg 1 = s.arg 3 ∧ s.NotAdmitted (s.argNat 0) 8 ∧ rangeOk (s.argNat 4) 32 = true) ∧
    (let s := withArgs (withBytes (withBytes (batOf .ready .w256 { State.powerOn holed with env := List.replicate 3 .noFailure })
       0x2000 (table [0x9000])) 0x2100 (table [3])) 0x2000 1 0x2100 1 0x3000
     s.Ready .batCalculate ∧ s.bat.st = .ready ∧ s.bat.width = some .w256 ∧ s.Accessible 0x2000 8 ∧ s.Accessible 0x2100 8 ∧
     s.env = List.replicate (2 * 1 + 1) EnvAnswer.noFailure ++ [] ∧ rangeOk 0x9000 3 = true ∧ overlaps 0x3000 32 0x9000 3 = false ∧
     overlaps 0x3000 32 0x2000 8 = false ∧ overlaps 0x3000 32 0x2100 8 = false ∧ s.NotAdmitted 0x9000 3 ∧
     jobsOf (tableEntries (s.mem.readBytes 0x2000 8) 1) (tableEntries (s.mem.readBytes 0x2100 8) 1) = [⟨0, 0x9000, 3⟩]) := by
  decide +kernel

/-- V29's kind, at the last draw of a call: the batch of two messages takes one transfer, one kernel and two read-backs, and each of them can fail. -/
theorem witness_BatDrawnFailures : callPoints batchState.platform.laneCapacity [3 / 136 + 1, 0 / 136 + 1] =
      [.batTransfer, .batKernel, .batReadback, .batReadback] ∧
    State.Inv { batchState with env := List.replicate 3 .noFailure ++ .transferFailure :: [] } ∧
    State.Inv { batchState with env := List.replicate 0 .noFailure ++ .transferFailure :: [] } ∧
    State.Inv { batchState with env := List.replicate 1 .noFailure ++ .kernelFailure :: [] } :=
  ⟨by decide, inv_of (by decide +kernel), inv_of (by decide +kernel), inv_of (by decide +kernel)⟩

/-- R239's read-back of the second lane fails: TRANSFER_FAILURE, the engine FAILED. -/
theorem witness_BatDrawnFailure_readback :
    view (fun t => (t.err, t.errCode, t.bat.st))
      (exec .batCalculate { batchState with env := List.replicate 3 .noFailure ++ .transferFailure :: [] }) =
      some (true, .transferFailure, .failed) := by decide +kernel

/-- V20's shape: C = 2, width 512, lengths 150, 0, 72, 10 (3, 1, 2 and 1 blocks) take 4 iterations. -/
theorem test_callPoints_V20 : (callPoints 2 [3, 1, 2, 1]).count .batTransfer = 4 ∧ (callPoints 2 [3, 1, 2, 1]).count .batReadback = 4 := by
  decide

theorem witness_BatBusErrors_inv :
    (withArgs (withBytes (withBytes (batOf .ready .w256 { State.powerOn holed with env := List.replicate 3 .noFailure })
      0x2000 (table [0x9000])) 0x2100 (table [3])) 0x2000 1 0x2100 1 0x3000).Inv ∧
    (withArgs (batOf .ready .w256 (State.powerOn holed)) 0x8000 1 0x2100 1 0x3000).Inv :=
  ⟨inv_of (by decide +kernel), inv_of (by decide +kernel)⟩

theorem witness_ContractViolation : ∃ t, exec .batSize start = .next t ∧ t.errCode.isContract = true :=
  exists_next (by decide +kernel)

theorem witness_ResultOnly : ∃ t, exec .batSize (batOf .ready .w256 start) = .next t ∧ t.result ≠ start.result :=
  exists_next (by decide +kernel)

/-- Every form a frame names has states in which it answers a next state: it always does. -/
theorem witness_Frames (i : Instr) (s : State) : ∃ t, exec i s = .next t := answers i s

theorem witness_StepKeepsTheInvariant :
    State.Inv { busy with pending := [regStoreOp .cmd 0x23] } ∧
      ∃ t, step { busy with pending := [regStoreOp .cmd 0x23] } = .next t ∧ t.cmd = 0x23 :=
  ⟨inv_of (by decide +kernel), exists_next (by decide +kernel)⟩

end Sys2Proof.Tests
end

section
/-! SUPPORT. What the checks of a command can report, and what its effect and its issue leave alone. -/

namespace Sys2Proof.Machine

/-! ### What checks can report -/

theorem Verdict.first_eq_pass {vs : List Verdict} : Verdict.first vs = .pass ↔ ∀ v ∈ vs, v = .pass := by
  induction vs with
  | nil => simp
  | cons v vs ih => cases v <;> simp [ih]

/-- Where the checks pass, each of them does. -/
theorem Verdict.passed {vs : List Verdict} {b : Bool} {c : ErrCode} (h : Verdict.first vs = .pass)
    (hm : Verdict.when b (.err c) ∈ vs) : b = false := by
  have := Verdict.first_eq_pass.1 h _ hm
  cases b with
  | false => rfl
  | true => cases this

/-- Every error that a verdict reports is of the contract-violation class (R272). -/
def Verdict.OnlyContract (v : Verdict) : Prop := ∀ c, v = .err c → c.isContract = true

@[simp] theorem Verdict.onlyContract_pass : Verdict.OnlyContract .pass := nofun

@[simp] theorem Verdict.onlyContract_refuse (m : Mark) : Verdict.OnlyContract (.refuse m) := nofun

@[simp] theorem Verdict.onlyContract_err {c : ErrCode} : Verdict.OnlyContract (.err c) ↔ c.isContract = true :=
  ⟨fun h => h c rfl, fun h _ e => Verdict.err.inj e ▸ h⟩

@[simp] theorem Verdict.onlyContract_when {b : Bool} {v : Verdict} :
    (Verdict.when b v).OnlyContract ↔ (b = true → v.OnlyContract) := by
  cases b <;> simp

theorem Verdict.OnlyContract.first {vs : List Verdict} (h : ∀ v ∈ vs, v.OnlyContract) : (Verdict.first vs).OnlyContract := by
  induction vs with
  | nil => simp
  | cons v vs ih =>
    rw [List.forall_mem_cons] at h
    cases v with
    | pass => simpa using ih h.2
    | err c => simpa using h.1
    | refuse m => simp

/-- A check before a command's first state change reports contract violations only (R272). -/
theorem checksOf_onlyContract (i : Instr) (s : State) : (checksOf i s).OnlyContract := by
  cases i <;> exact .first (by simp [State.argCheck, ErrCode.isContract, ErrCode.code])

theorem checksMessages_onlyContract (s : State) (jobs : List Job) : (checksMessages s jobs).OnlyContract :=
  .first (by simp [ErrCode.isContract, ErrCode.code])

theorem ErrCode.ne_ok_of_isContract {c : ErrCode} (h : c.isContract = true) : c ≠ .ok := by
  rintro rfl; cases h

theorem ErrCode.ne_ok_of_isResource {c : ErrCode} (h : c.isResource = true) : c ≠ .ok := by
  rintro rfl; cases h

/-- The check on the operand registers comes first in every command (R92, R275). -/
theorem checksOf_lacksArgs {i : Instr} {s : State} (h : s.lacksArgs i = true) : checksOf i s = .refuse .argUnwritten := by
  have hc : s.argCheck i = .refuse .argUnwritten := by simp [State.argCheck, h]
  have hf (vs : List Verdict) : Verdict.first (s.argCheck i :: vs) = .refuse .argUnwritten := by simp [hc]
  cases i <;> exact hf _

/-! ### What a command leaves alone -/

/-- Everything outside the five units, STATUS, host memory, the mark and the draws is as before. -/
structure State.SameOutsideUnits (s t : State) : Prop where
  host : s.SameHostSide t
  result : t.result = s.result

theorem State.SameOutsideUnits.refl (s : State) : s.SameOutsideUnits s := ⟨⟨rfl, rfl, rfl, rfl, rfl, rfl, rfl⟩, rfl⟩

theorem State.SameOutsideUnits.trans {s t u : State} (h : s.SameOutsideUnits t) (h' : t.SameOutsideUnits u) :
    s.SameOutsideUnits u := by
  obtain ⟨⟨h1, h2, h3, h4, h5, h6, h7⟩, h8⟩ := h
  obtain ⟨⟨k1, k2, k3, k4, k5, k6, k7⟩, k8⟩ := h'
  exact ⟨⟨k1.trans h1, k2.trans h2, k3.trans h3, k4.trans h4, k5.trans h5, k6.trans h6, k7.trans h7⟩, k8.trans h8⟩

/-- STATUS, the mark and the units are no part of the frame. -/
theorem State.SameOutsideUnits.complete {s t : State} (h : s.SameOutsideUnits t) : s.SameOutsideUnits t.complete := ⟨h.host, h.result⟩

theorem State.SameOutsideUnits.raise {s t : State} (h : s.SameOutsideUnits t) (c : ErrCode) : s.SameOutsideUnits (t.raise c) :=
  ⟨h.host, h.result⟩

theorem State.SameOutsideUnits.refuse {s t : State} (h : s.SameOutsideUnits t) (m : Mark) : s.SameOutsideUnits (t.refuse m) :=
  ⟨h.host, h.result⟩

theorem State.SameOutsideUnits.freeRegion {s t : State} (h : s.SameOutsideUnits t) (a n : Nat) :
    s.SameOutsideUnits (t.freeRegion a n) := ⟨h.host, h.result⟩

theorem State.SameOutsideUnits.rawBusError {s t : State} (h : s.SameOutsideUnits t) : s.SameOutsideUnits t.rawBusError :=
  ⟨h.host, h.result⟩

theorem State.SameOutsideUnits.batFails {s t : State} (h : s.SameOutsideUnits t) (a n : Nat) (c : ErrCode) :
    s.SameOutsideUnits (t.batFails a n c) := ⟨h.host, h.result⟩

theorem State.SameOutsideUnits.setEngine {s t : State} (h : s.SameOutsideUnits t) (e : EngineSel) (x : Engine) :
    s.SameOutsideUnits (t.setEngine e x) := by
  cases e <;> exact ⟨h.host, h.result⟩

theorem State.SameOutsideUnits.engineFails {s t : State} (h : s.SameOutsideUnits t) (e : EngineSel) (c : ErrCode) :
    s.SameOutsideUnits (t.engineFails e c) := (h.setEngine e _).raise c

theorem State.SameOutsideUnits.drawIf {s t u : State} (h : s.SameOutsideUnits t) {p : Option DrawPoint} {a : Option ErrCode}
    (hd : t.drawIf p = (a, u)) : s.SameOutsideUnits u := by
  obtain ⟨e, f, hu⟩ := t.drawIf_state p
  rw [hd] at hu
  subst hu
  exact ⟨h.host, h.result⟩

theorem State.SameOutsideUnits.memWrite {s t u : State} (h : s.SameOutsideUnits t) {a : Nat} {bs : List Byte}
    (hw : t.memWrite a bs = some u) : s.SameOutsideUnits u := by
  obtain ⟨-, rfl⟩ := State.memWrite_some hw
  exact ⟨h.host, h.result⟩

/-- A run made without the race, its race put back afterwards. -/
theorem State.SameOutsideUnits.restoreRace {s u : State} {r : List (Word × Byte)} (h : ({ s with race := r } : State).SameOutsideUnits u) :
    s.SameOutsideUnits { u with race := s.race } := by
  obtain ⟨⟨h1, h2, h3, h4, h5, h6, -⟩, h8⟩ := h
  exact ⟨⟨h1, h2, h3, h4, h5, h6, rfl⟩, h8⟩

theorem OnlyBat.sameOutsideUnits {s t : State} {a n : Nat} (h : OnlyBat s t a n) : s.SameOutsideUnits t := by
  obtain ⟨v, ls, ho, rfl⟩ := h
  obtain ⟨m, e, f, rfl⟩ := ho.shape
  exact ⟨⟨rfl, rfl, rfl, rfl, rfl, rfl, rfl⟩, rfl⟩

/-! ### The streaming effects -/

theorem effectConstruct_frame (e : EngineSel) (p : Option DrawPoint) (s : State) :
    s.SameOutsideUnits (effectConstruct e p s) := by
  unfold effectConstruct
  split
  next hd => exact ((State.SameOutsideUnits.refl s).drawIf hd).raise _
  next hd => exact (((State.SameOutsideUnits.refl s).drawIf hd).setEngine e _).complete

theorem effectInit_frame (e : EngineSel) (p : Option DrawPoint) (s : State) : s.SameOutsideUnits (effectInit e p s) := by
  unfold effectInit
  split
  next hd => exact ((State.SameOutsideUnits.refl s).drawIf hd).engineFails e _
  next hd => exact (((State.SameOutsideUnits.refl s).drawIf hd).setEngine e _).complete

theorem effectAdd_frame (e : EngineSel) (p : Option DrawPoint) (s : State) : s.SameOutsideUnits (effectAdd e p s) := by
  unfold effectAdd
  split
  · exact (State.SameOutsideUnits.refl s).engineFails e _
  · dsimp only
    split
    next hd => exact (((State.SameOutsideUnits.refl s).setEngine e _).drawIf hd).engineFails e _
    next hd => exact ((((State.SameOutsideUnits.refl s).setEngine e _).drawIf hd).setEngine e _).complete

theorem effectDigest_frame (e : EngineSel) (p : Option DrawPoint) (s : State) : s.SameOutsideUnits (effectDigest e p s) := by
  unfold effectDigest
  dsimp only
  split
  next hd => exact ((((State.SameOutsideUnits.refl s).setEngine e _).drawIf hd).freeRegion _ _).engineFails e _
  next hd =>
    have ht := ((State.SameOutsideUnits.refl s).setEngine e _).drawIf hd
    split
    · exact (ht.freeRegion _ _).engineFails e _
    next hw => exact ((ht.memWrite hw).setEngine e _).complete

theorem effectDestroy_frame (e : EngineSel) (s : State) : s.SameOutsideUnits (effectDestroy e s) := by
  have h : s.SameOutsideUnits { s with free := s.free + 1 } := ⟨⟨rfl, rfl, rfl, rfl, rfl, rfl, rfl⟩, rfl⟩
  exact (h.setEngine e _).complete

/-! ### The schedule of a batch call -/

/-- Some number lies above every message index of a list of lanes and a backlog. -/
theorem exists_idx_bound (ls : List BatchLane) (q : List Job) : ∃ n, IdxBelow n ls ∧ ∀ job ∈ q, job.idx < n := by
  have below {l : List Nat} {k : Nat} (hk : k ∈ l) : k ≤ l.sum := List.le_sum_of_mem hk
  refine ⟨(ls.map BatchLane.idx).sum + (q.map Job.idx).sum + 1, fun l hl _ => ?_, fun job hj => ?_⟩
  · have := below (List.mem_map_of_mem (f := BatchLane.idx) hl)
    omega
  · have := below (List.mem_map_of_mem (f := Job.idx) hj)
    omega

/-- Refill assigns messages of the backlog only, so it keeps a bound on the indexes. -/
theorem refill_idxBelow {n : Nat} {ls : List BatchLane} {q : List Job} (hl : IdxBelow n ls) (hq : ∀ job ∈ q, job.idx < n) :
    IdxBelow n (refill ls q).1 := by
  intro l hm ha
  rcases mem_refill hm with hm | ⟨job, hj, rfl⟩
  · exact hl l hm ha
  · exact hq job hj

/-- A schedule, in success or failure, touches the lanes and the output region only. -/
theorem batSchedule_only {dst n : Nat} {w : Option Width} {jobs : List Job} {s : State} (hl : IdxBelow n s.bat.lanes)
    (hj : ∀ job ∈ jobs, job.idx < n) :
    OnlyBat s (endState id (batSchedule dst (widthBits w) jobs s)) dst (n * dlen (widthBits w)) :=
  (OnlyBat.setLanes s _ _ _).trans
    (batLoop_only _ _ _ (refill_idxBelow hl hj) fun job hjob => hj job (refill_backlog hjob))

/-- The same for every state, whatever its lanes hold. -/
theorem batSchedule_onlyBat (dst : Nat) (w : Option Width) (jobs : List Job) (s : State) :
    ∃ n, OnlyBat s (endState id (batSchedule dst (widthBits w) jobs s)) dst n := by
  obtain ⟨n, hl, hj⟩ := exists_idx_bound s.bat.lanes jobs
  exact ⟨_, batSchedule_only hl hj⟩

theorem batSchedule_ok_onlyBat {dst : Nat} {w : Option Width} {jobs : List Job} {s t : State}
    (h : batSchedule dst (widthBits w) jobs s = .ok t) : ∃ n, OnlyBat s t dst n := by
  simpa [h, endState] using batSchedule_onlyBat dst w jobs s

theorem batSchedule_error_onlyBat {dst : Nat} {w : Option Width} {jobs : List Job} {s u : State} {c : ErrCode}
    (h : batSchedule dst (widthBits w) jobs s = .error (c, u)) : ∃ n, OnlyBat s u dst n := by
  simpa [h, endState] using batSchedule_onlyBat dst w jobs s

theorem batSchedule_error_isResource {dst : Nat} {w : Option Width} {jobs : List Job} {s u : State} {c : ErrCode}
    (h : batSchedule dst (widthBits w) jobs s = .error (c, u)) : c.isResource = true := batLoop_error h

theorem batRun_ok_frame {s t : State} (h : batRun s = .ok t) : s.SameOutsideUnits t := by
  rcases batRun_ok h with ⟨-, rfl⟩ | ⟨jobs, -, -, -, hs⟩
  · exact .refl _
  · obtain ⟨n, ho⟩ := batSchedule_ok_onlyBat hs
    exact ho.sameOutsideUnits

theorem batRun_error_frame {s t : State} (h : batRun s = .error t) : s.SameOutsideUnits t := by
  obtain ⟨-, ⟨-, rfl⟩ | ⟨jobs, -, ⟨c, -, rfl⟩ | ⟨m, -, rfl⟩ | ⟨c, u, -, hs, rfl⟩⟩⟩ := batRun_error h
  · exact (State.SameOutsideUnits.refl s).batFails _ _ _
  · exact (State.SameOutsideUnits.refl s).raise c
  · exact (State.SameOutsideUnits.refl s).refuse m
  · obtain ⟨n, ho⟩ := batSchedule_error_onlyBat hs
    exact ho.sameOutsideUnits.batFails _ _ _

theorem effectBatCalculate_frame (s : State) : s.SameOutsideUnits (effectBatCalculate s) := by
  by_cases hr : s.race = []
  · rw [effectBatCalculate_quiet hr]
    split
    next h => exact (batRun_ok_frame h).complete
    next h => exact batRun_error_frame h
  · rcases effectBatCalculate_raced hr with ⟨u, t, -, ht, e⟩ | ⟨u, hu, e⟩ | ⟨u, hu, e⟩ <;> rw [e]
    · exact (batRun_ok_frame ht).complete
    · exact ((batRun_ok_frame hu).freeRegion _ _).complete.restoreRace
    · exact (batRun_error_frame hu).restoreRace

theorem effectBatConstruct_frame (s : State) : s.SameOutsideUnits (effectBatConstruct s) := by
  unfold effectBatConstruct
  split
  next hd => exact ((State.SameOutsideUnits.refl s).drawIf (p := some .batAlloc) hd).raise _
  next hd =>
    obtain ⟨hh, hr⟩ := (State.SameOutsideUnits.refl s).drawIf (p := some .batAlloc) hd
    exact ⟨hh, hr⟩

/-! ### The effects of KF and SP -/

theorem effectKfLoad_frame (s : State) : s.SameOutsideUnits (effectKfLoad s) := by
  unfold effectKfLoad
  split
  · exact (State.SameOutsideUnits.refl s).rawBusError
  · exact ⟨(State.SameOutsideUnits.refl s).host, rfl⟩

theorem effectKfStore_frame (s : State) : s.SameOutsideUnits (effectKfStore s) := by
  unfold effectKfStore
  split
  · exact ((State.SameOutsideUnits.refl s).freeRegion _ _).rawBusError
  next hw => exact ((State.SameOutsideUnits.refl s).memWrite hw).complete

theorem effectSpAbsorb_frame (s : State) : s.SameOutsideUnits (effectSpAbsorb s) := by
  unfold effectSpAbsorb
  split
  · exact (State.SameOutsideUnits.refl s).rawBusError
  · exact ⟨(State.SameOutsideUnits.refl s).host, rfl⟩

theorem effectSpPad_frame (s : State) : s.SameOutsideUnits (effectSpPad s) := by
  unfold effectSpPad
  split
  · exact ((State.SameOutsideUnits.refl s).freeRegion _ _).rawBusError
  · split
    · exact ((State.SameOutsideUnits.refl s).freeRegion _ _).rawBusError
    next hw => exact ((State.SameOutsideUnits.refl s).memWrite hw).complete

theorem effectSpSqueeze_frame (s : State) : s.SameOutsideUnits (effectSpSqueeze s) := by
  unfold effectSpSqueeze
  split
  · exact ((State.SameOutsideUnits.refl s).freeRegion _ _).rawBusError
  next hw => exact ((State.SameOutsideUnits.refl s).memWrite hw).complete

/-! ### Every command -/

/-- Outside the units, STATUS, host memory, the mark and the draws, an effect can change RESULT only, and only BAT_SIZE's does. -/
theorem effectOf_frame {i : Instr} (s : State) (hi : i ≠ .batSize) : s.SameOutsideUnits (effectOf i s) := by
  have keep : s.SameOutsideUnits s := .refl s
  cases i with
  | kfPermute => exact ⟨keep.host, rfl⟩
  | kfLoad => exact effectKfLoad_frame s
  | kfStore => exact effectKfStore_frame s
  | spInit => exact ⟨keep.host, rfl⟩
  | spAbsorb => exact effectSpAbsorb_frame s
  | spPad => exact effectSpPad_frame s
  | spSqueeze => exact effectSpSqueeze_frame s
  | seqConstruct => exact effectConstruct_frame .seq none s
  | seqInit => exact effectInit_frame .seq none s
  | seqAdd => exact effectAdd_frame .seq none s
  | seqDigest => exact effectDigest_frame .seq none s
  | seqDestroy => exact effectDestroy_frame .seq s
  | accConstruct => exact effectConstruct_frame .acc (some .accAlloc) s
  | accInit => exact effectInit_frame .acc (some .accInit) s
  | accAdd => exact effectAdd_frame .acc (some .accAdd) s
  | accDigest => exact effectDigest_frame .acc (some .accDigest) s
  | accDestroy => exact effectDestroy_frame .acc s
  | batConstruct => exact effectBatConstruct_frame s
  | batCalculate => exact effectBatCalculate_frame s
  | batSize => exact absurd rfl hi
  | batDestroy => exact ⟨keep.host, rfl⟩

/-- No command writes CMD, an ARG register or what belongs to the host (R22, R23). -/
theorem effectOf_sameHostSide (i : Instr) (s : State) : s.SameHostSide (effectOf i s) := by
  by_cases hi : i = .batSize
  · subst hi; exact (State.SameOutsideUnits.refl s).host
  · exact (effectOf_frame s hi).host

theorem exec_sameHostSide {i : Instr} {s t : State} (h : exec i s = .next t) : s.SameHostSide t := by
  rw [exec_next h]
  cases checksOf i s with
  | pass => exact effectOf_sameHostSide i s
  | err c => exact ((State.SameOutsideUnits.refl s).raise c).host
  | refuse m => exact ((State.SameOutsideUnits.refl s).refuse m).host

/-- A command store always answers a next state (R22, R84). -/
theorem issue_answers (w : Word) (s : State) : ∃ t, issue w s = .next t := by
  unfold issue
  split
  · exact ⟨_, exec_eq _ _⟩
  · exact ⟨_, rfl⟩

theorem issue_sameHostSide {w : Word} {s t : State} (h : issue w s = .next t) : ({ s with cmd := w } : State).SameHostSide t := by
  unfold issue at h
  split at h
  · exact exec_sameHostSide h
  · cases h
    exact ((State.SameOutsideUnits.refl _).raise _).host

end Sys2Proof.Machine
end

section
/-! SUPPORT. The invariant (R38), piece by piece: what each engine needs, what each effect keeps, and that every command and every host operation keeps it. -/

namespace Sys2Proof.Machine

/-! ### The invariant in two parts -/

/-- The invariant of host memory and the engines: what a command must keep whatever its STATUS result. -/
structure State.UnitsInv (s : State) : Prop where
  mem : Memory.wf s.mem
  seq : s.seq.Inv
  acc : s.acc.Inv
  bat : s.bat.Inv s.platform.laneCapacity

/-- The invariant of the block itself, with other agents' writes left out: it also holds while a raced command runs (R311). -/
structure State.BlockInv (s : State) : Prop where
  units : s.UnitsInv
  status : s.StatusInv

theorem State.inv_iff {s : State} : s.Inv ↔ s.BlockInv ∧ s.race = [] :=
  ⟨fun ⟨m, q, a, b, st, r⟩ => ⟨⟨⟨m, q, a, b⟩, st⟩, r⟩, fun ⟨⟨⟨m, q, a, b⟩, st⟩, r⟩ => ⟨m, q, a, b, st, r⟩⟩

theorem State.BlockInv.raced {s : State} (h : s.BlockInv) (writes : List (Word × Byte)) :
    ({ s with race := writes } : State).BlockInv := ⟨⟨h.units.mem, h.units.seq, h.units.acc, h.units.bat⟩, h.status⟩

/-- However a command ends, it leaves STATUS consistent (R25-R27). -/
theorem State.UnitsInv.complete {s : State} (h : s.UnitsInv) : s.complete.BlockInv :=
  ⟨⟨h.mem, h.seq, h.acc, h.bat⟩, by simp, by simp⟩

theorem State.UnitsInv.raise {s : State} (h : s.UnitsInv) {c : ErrCode} (hc : c ≠ .ok) : (s.raise c).BlockInv :=
  ⟨⟨h.mem, h.seq, h.acc, h.bat⟩, by simp [hc], by simp⟩

theorem State.BlockInv.refuse {s : State} (h : s.BlockInv) (m : Mark) : (s.refuse m).BlockInv :=
  ⟨⟨h.units.mem, h.units.seq, h.units.acc, h.units.bat⟩, h.status⟩

theorem State.UnitsInv.freeRegion {s : State} (h : s.UnitsInv) (a n : Nat) : (s.freeRegion a n).UnitsInv :=
  ⟨Memory.writeBytes_wf _ _ h.mem, h.seq, h.acc, h.bat⟩

theorem State.UnitsInv.memWrite {s t : State} (h : s.UnitsInv) {a : Nat} {bs : List Byte} (hw : s.memWrite a bs = some t) :
    t.UnitsInv := by
  obtain ⟨-, rfl⟩ := State.memWrite_some hw
  exact ⟨Memory.writeBytes_wf _ _ h.mem, h.seq, h.acc, h.bat⟩

theorem State.UnitsInv.drawIf {s t : State} (h : s.UnitsInv) {p : Option DrawPoint} {a : Option ErrCode}
    (hd : s.drawIf p = (a, t)) : t.UnitsInv := by
  obtain ⟨e, f, ht⟩ := s.drawIf_state p
  rw [hd] at ht
  subst ht
  exact ⟨h.mem, h.seq, h.acc, h.bat⟩

theorem State.UnitsInv.rawBusError {s : State} (h : s.UnitsInv) : s.rawBusError.BlockInv :=
  ⟨⟨h.mem, h.seq, h.acc, h.bat⟩, by simp, by simp⟩

theorem State.UnitsInv.engine {s : State} (h : s.UnitsInv) (e : EngineSel) : (s.engine e).Inv := by
  cases e
  · exact h.seq
  · exact h.acc

theorem State.UnitsInv.setEngine {s : State} (h : s.UnitsInv) (e : EngineSel) {x : Engine} (hx : x.Inv) :
    (s.setEngine e x).UnitsInv := by
  cases e
  · exact ⟨h.mem, hx, h.acc, h.bat⟩
  · exact ⟨h.mem, h.seq, hx, h.bat⟩

/-- A failed draw is a resource failure, so it is never the code OK. -/
theorem State.drawIf_error_ne_ok {s t : State} {p : Option DrawPoint} {c : ErrCode} (h : s.drawIf p = (some c, t)) : c ≠ .ok := by
  cases p with
  | none => cases h
  | some p =>
    have hd : (s.draw p).1 = some c := congrArg Prod.fst h
    exact ErrCode.ne_ok_of_isResource (State.draw_resource hd)

/-! ### The streaming engines -/

theorem Engine.inv_unconstructed (S : Lanes) (b : List Byte) :
    Engine.Inv { st := .unconstructed, width := none, lanes := S, buf := b } := by simp [Engine.Inv]

theorem Engine.inv_fresh {w : Option Width} (hw : w ≠ none) :
    Engine.Inv { st := .fresh, width := w, lanes := zeroLanes, buf := [] } := by
  simp [Engine.Inv, hw, Engine.rate, rate_widthBits_pos]

theorem Engine.inv_absorbing {w : Option Width} (hw : w ≠ none) (S : Lanes) {b : List Byte}
    (hb : b.length < Sys2Proof.rate (widthBits w)) : Engine.Inv { st := .absorbing, width := w, lanes := S, buf := b } := by
  simp [Engine.Inv, hw, Engine.rate, hb]

theorem Engine.inv_finalized {w : Option Width} (hw : w ≠ none) (S : Lanes) (b : List Byte) :
    Engine.Inv { st := .finalized, width := w, lanes := S, buf := b } := by simp [Engine.Inv, hw]

theorem Engine.inv_failed {w : Option Width} (hw : w ≠ none) (S : Lanes) (b : List Byte) :
    Engine.Inv { st := .failed, width := w, lanes := S, buf := b } := by simp [Engine.Inv, hw]

/-- A constructed engine has a width (R31). -/
theorem Engine.Inv.width_ne_none {x : Engine} (h : x.Inv) (hx : x.st ≠ .unconstructed) : x.width ≠ none :=
  fun hw => hx (h.1.2 hw)

theorem State.setEngine_engine_other (s : State) {e e' : EngineSel} (x : Engine) (h : e' ≠ e) :
    (s.setEngine e x).engine e' = s.engine e' :=
  match e, e', h with
  | .seq, .acc, _ | .acc, .seq, _ => rfl
  | .seq, .seq, h | .acc, .acc, h => absurd rfl h

/-- The state while a command works on the engine `e`: its width is set, what else it holds may be half written, the rest is as between commands. -/
structure State.WorkingInv (s : State) (e : EngineSel) : Prop where
  mem : Memory.wf s.mem
  width : (s.engine e).width ≠ none
  others : ∀ e', e' ≠ e → (s.engine e').Inv
  bat : s.bat.Inv s.platform.laneCapacity

theorem State.UnitsInv.working {s : State} (h : s.UnitsInv) {e : EngineSel} (hw : (s.engine e).width ≠ none) : s.WorkingInv e :=
  ⟨h.mem, hw, fun e' _ => h.engine e', h.bat⟩

theorem State.WorkingInv.writeLanes {s : State} {e : EngineSel} (h : s.WorkingInv e) (S : Lanes) :
    (s.setEngine e { s.engine e with lanes := S }).WorkingInv e :=
  ⟨by simpa using h.mem, by simpa using h.width, fun e' he => by rw [s.setEngine_engine_other _ he]; exact h.others e' he,
    by simpa using h.bat⟩

theorem State.WorkingInv.drawIf {s t : State} {e : EngineSel} (h : s.WorkingInv e) {p : Option DrawPoint} {a : Option ErrCode}
    (hd : s.drawIf p = (a, t)) : t.WorkingInv e := by
  obtain ⟨env, f, ht⟩ := s.drawIf_state p
  rw [hd] at ht
  subst ht
  exact ⟨h.mem, by cases e <;> exact h.width, fun e' he => by cases e' <;> exact h.others _ he, h.bat⟩

theorem State.WorkingInv.memWrite {s t : State} {e : EngineSel} (h : s.WorkingInv e) {a : Nat} {bs : List Byte}
    (hw : s.memWrite a bs = some t) : t.WorkingInv e := by
  obtain ⟨-, rfl⟩ := State.memWrite_some hw
  exact ⟨Memory.writeBytes_wf _ _ h.mem, by cases e <;> exact h.width, fun e' he => by cases e' <;> exact h.others _ he, h.bat⟩

theorem State.WorkingInv.freeRegion {s : State} {e : EngineSel} (h : s.WorkingInv e) (a n : Nat) :
    (s.freeRegion a n).WorkingInv e :=
  ⟨Memory.writeBytes_wf _ _ h.mem, by cases e <;> exact h.width, fun e' he => by cases e' <;> exact h.others _ he, h.bat⟩

/-- The command ends its work with the engine in a state of the invariant. -/
theorem State.WorkingInv.setEngine {s : State} {e : EngineSel} (h : s.WorkingInv e) {x : Engine} (hx : x.Inv) :
    (s.setEngine e x).UnitsInv := by
  cases e
  · exact ⟨h.mem, hx, h.others .acc nofun, h.bat⟩
  · exact ⟨h.mem, h.others .seq nofun, hx, h.bat⟩

/-- The command ends its work with the engine FAILED, its width kept (R31, R273). -/
theorem State.WorkingInv.engineFails {s : State} {e : EngineSel} (h : s.WorkingInv e) {c : ErrCode} (hc : c ≠ .ok) :
    (s.engineFails e c).BlockInv :=
  (h.setEngine (Engine.inv_failed h.width _ _)).raise hc

theorem effectConstruct_inv {s : State} (h : s.UnitsInv) (e : EngineSel) (p : Option DrawPoint)
    (hw : Width.ofWord (s.arg 0) ≠ none) : (effectConstruct e p s).BlockInv := by
  unfold effectConstruct
  split
  next hd => exact (h.drawIf hd).raise (State.drawIf_error_ne_ok hd)
  next hd => exact ((h.drawIf hd).setEngine e (Engine.inv_fresh hw)).complete

theorem effectInit_inv {s : State} (h : s.UnitsInv) {e : EngineSel} (p : Option DrawPoint) (hw : (s.engine e).width ≠ none) :
    (effectInit e p s).BlockInv := by
  unfold effectInit
  split
  next hd => exact ((h.working hw).drawIf hd).engineFails (State.drawIf_error_ne_ok hd)
  next hd => exact ((h.drawIf hd).setEngine e (Engine.inv_fresh hw)).complete

theorem effectAdd_inv {s : State} (h : s.UnitsInv) {e : EngineSel} (p : Option DrawPoint) (hw : (s.engine e).width ≠ none) :
    (effectAdd e p s).BlockInv := by
  unfold effectAdd
  split
  · exact (h.working hw).engineFails nofun
  · dsimp only
    split
    next hd => exact (((h.working hw).writeLanes _).drawIf hd).engineFails (State.drawIf_error_ne_ok hd)
    next hd =>
      have tail := length_absorbFull_rest (rate_widthBits_pos (s.engine e).width)
      exact ((((h.working hw).writeLanes _).drawIf hd).setEngine (Engine.inv_absorbing hw _ (tail _ _))).complete

theorem effectDigest_inv {s : State} (h : s.UnitsInv) {e : EngineSel} (p : Option DrawPoint) (hw : (s.engine e).width ≠ none) :
    (effectDigest e p s).BlockInv := by
  unfold effectDigest
  dsimp only
  split
  next hd => exact ((((h.working hw).writeLanes _).drawIf hd).freeRegion _ _).engineFails (State.drawIf_error_ne_ok hd)
  next hd =>
    have ht := ((h.working hw).writeLanes _).drawIf hd
    split
    · exact (ht.freeRegion _ _).engineFails nofun
    next hm => exact ((ht.memWrite hm).setEngine (Engine.inv_finalized hw _ _)).complete

theorem effectDestroy_inv {s : State} (h : s.UnitsInv) (e : EngineSel) : (effectDestroy e s).BlockInv := by
  have ht : ({ s with free := s.free + 1 } : State).UnitsInv := ⟨h.mem, h.seq, h.acc, h.bat⟩
  exact (ht.setEngine e (Engine.inv_unconstructed _ _)).complete

/-! ### The RAW unit -/

theorem effectKfLoad_inv {s : State} (h : s.UnitsInv) : (effectKfLoad s).BlockInv := by
  unfold effectKfLoad
  split
  · exact h.rawBusError
  · exact State.UnitsInv.complete ⟨h.mem, h.seq, h.acc, h.bat⟩

theorem effectKfStore_inv {s : State} (h : s.UnitsInv) : (effectKfStore s).BlockInv := by
  unfold effectKfStore
  split
  · exact (h.freeRegion _ _).rawBusError
  next hw => exact (h.memWrite hw).complete

theorem effectSpAbsorb_inv {s : State} (h : s.UnitsInv) : (effectSpAbsorb s).BlockInv := by
  unfold effectSpAbsorb
  split
  · exact h.rawBusError
  · exact State.UnitsInv.complete ⟨h.mem, h.seq, h.acc, h.bat⟩

theorem effectSpPad_inv {s : State} (h : s.UnitsInv) : (effectSpPad s).BlockInv := by
  unfold effectSpPad
  split
  · exact (h.freeRegion _ _).rawBusError
  · split
    · exact (h.freeRegion _ _).rawBusError
    next hw => exact (h.memWrite hw).complete

theorem effectSpSqueeze_inv {s : State} (h : s.UnitsInv) : (effectSpSqueeze s).BlockInv := by
  unfold effectSpSqueeze
  split
  · exact (h.freeRegion _ _).rawBusError
  next hw => exact (h.memWrite hw).complete

/-! ### The BAT engine -/

/-- A constructed engine has a width (R36). -/
theorem BatEngine.Inv.width_ne_none {b : BatEngine} {capacity : Nat} (h : b.Inv capacity) (hb : b.st ≠ .unconstructed) :
    b.width ≠ none := fun hw => hb (h.1.2 hw)

theorem BatEngine.Inv.length {b : BatEngine} {capacity : Nat} (h : b.Inv capacity) : b.lanes.length = capacity := h.2.1

/-- Lanes that were freed are idle (R38 c), as many as before. -/
theorem BatEngine.inv_freed {ls : List BatchLane} {capacity : Nat} (hl : ls.length = capacity) {st : BatState} {w : Option Width}
    (hw : st = .unconstructed ↔ w = none) : BatEngine.Inv { st := st, width := w, lanes := ls.map BatchLane.free } capacity := by
  refine ⟨hw, by simpa using hl, fun l hm => ?_⟩
  obtain ⟨k, -, rfl⟩ := List.mem_map.1 hm
  rfl

theorem State.UnitsInv.setBat {s : State} (h : s.UnitsInv) {b : BatEngine} (hb : b.Inv s.platform.laneCapacity) :
    ({ s with bat := b } : State).UnitsInv := ⟨h.mem, h.seq, h.acc, hb⟩

theorem effectBatConstruct_inv {s : State} (h : s.UnitsInv) (hw : Width.ofWord (s.arg 0) ≠ none) :
    (effectBatConstruct s).BlockInv := by
  unfold effectBatConstruct
  split
  next hd => exact (h.drawIf (p := some .batAlloc) hd).raise (State.drawIf_error_ne_ok (p := some .batAlloc) hd)
  next t hd =>
    obtain ⟨⟨-, -, -, hp, -, -, -⟩, -⟩ := (State.SameOutsideUnits.refl s).drawIf (p := some .batAlloc) hd
    have hb : s.bat.lanes.length = t.platform.laneCapacity := by rw [h.bat.length, hp]
    exact ((h.drawIf (p := some .batAlloc) hd).setBat (BatEngine.inv_freed hb (by simp [hw]))).complete

theorem effectBatDestroy_inv {s : State} (h : s.UnitsInv) : (effectBatDestroy s).BlockInv :=
  (h.setBat (BatEngine.inv_freed h.bat.length (by simp))).complete

/-- A failed iteration leaves the lanes as they were before it. -/
theorem batIteration_error_bat {dst : Nat} {w : Option Width} {s : State} {e : ErrCode × State}
    (h : batIteration dst (widthBits w) s = .error e) : e.2.bat = s.bat := by
  obtain ⟨n, hl, -⟩ := exists_idx_bound s.bat.lanes []
  obtain ⟨m, env, f, hu⟩ := ((batIteration_error h).2 hl).shape
  rw [hu]

/-- A loop that fails has as many lanes as before. -/
theorem batLoop_error_length {dst : Nat} {w : Option Width} {fuel : Nat} {q : List Job} {s u : State} {c : ErrCode}
    (h : batLoop dst (widthBits w) fuel q s = .error (c, u)) : u.bat.lanes.length = s.bat.lanes.length := by
  induction fuel generalizing q s with
  | zero => cases h
  | succ fuel ih =>
    unfold batLoop at h
    split at h
    · split at h
      next he =>
        cases h
        rw [batIteration_error_bat he]
      next ht =>
        obtain ⟨ls, t, v, hg, -, -, rfl⟩ := batIteration_ok ht
        rw [ih h]
        simp [refill_length, gathered_length hg]
    · cases h

/-- A schedule in a state of the invariant keeps all of it but the lanes, whatever they are after it. -/
theorem OnlyBat.unitsInv {s t : State} {a n : Nat} (h : OnlyBat s t a n) (hs : s.UnitsInv)
    (hb : t.bat.Inv s.platform.laneCapacity) : t.UnitsInv := by
  obtain ⟨v, ls, ho, rfl⟩ := h
  have hm := ho.wf hs.mem
  obtain ⟨m, e, f, rfl⟩ := ho.shape
  exact ⟨hm, hs.seq, hs.acc, hb⟩

theorem OnlyBat.bat {s t : State} {a n : Nat} (h : OnlyBat s t a n) : t.bat.st = s.bat.st ∧ t.bat.width = s.bat.width := by
  obtain ⟨v, ls, ho, rfl⟩ := h
  obtain ⟨m, e, f, rfl⟩ := ho.shape
  exact ⟨rfl, rfl⟩

/-- A successful schedule ends with every lane free (R240). -/
theorem batSchedule_ok_inv {dst : Nat} {jobs : List Job} {s t : State} (h : s.UnitsInv)
    (hs : batSchedule dst (widthBits s.bat.width) jobs s = .ok t) : t.UnitsInv := by
  obtain ⟨n, ho⟩ := batSchedule_ok_onlyBat hs
  obtain ⟨hst, hw⟩ := ho.bat
  obtain ⟨hidle, hlen⟩ := batLoop_done hs le_rfl
  refine ho.unitsInv h ⟨by rw [hst, hw]; exact h.bat.1, ?_, ?_⟩
  · rw [hlen, State.setLanes_bat, refill_length]
    exact h.bat.length
  · simpa [anyActive] using hidle

/-- A call that fails leaves the engine FAILED with its width, every lane freed (R245). -/
theorem OnlyBat.batFails {s u : State} {a n : Nat} (h : OnlyBat s u a n) (hs : s.UnitsInv) (hc : s.bat.st ≠ .unconstructed)
    (hlen : u.bat.lanes.length = s.bat.lanes.length) (dst m : Nat) {c : ErrCode} (hok : c ≠ .ok) :
    (u.batFails dst m c).BlockInv := by
  have hw : u.bat.width ≠ none := h.bat.2 ▸ hs.bat.width_ne_none hc
  have hb : BatEngine.Inv { st := .failed, width := u.bat.width, lanes := u.bat.lanes.map BatchLane.free }
      s.platform.laneCapacity := BatEngine.inv_freed (hlen.trans hs.bat.length) (by simp [hw])
  obtain ⟨v, ls, ho, rfl⟩ := h
  have hm := ho.wf hs.mem
  obtain ⟨m, e, f, rfl⟩ := ho.shape
  exact ⟨⟨Memory.writeBytes_wf _ _ hm, hs.seq, hs.acc, hb⟩, by simp [State.batFails, hok], by simp [State.batFails]⟩

theorem batSchedule_error_length {dst : Nat} {w : Option Width} {jobs : List Job} {s u : State} {c : ErrCode}
    (h : batSchedule dst (widthBits w) jobs s = .error (c, u)) : u.bat.lanes.length = s.bat.lanes.length := by
  rw [batLoop_error_length h, State.setLanes_bat, refill_length]

theorem batRun_ok_inv {s t : State} (h : s.UnitsInv) (ht : batRun s = .ok t) : t.UnitsInv := by
  rcases batRun_ok ht with ⟨-, rfl⟩ | ⟨jobs, -, -, -, hs⟩
  · exact h
  · exact batSchedule_ok_inv h hs

theorem batRun_error_inv {s t : State} (h : s.BlockInv) (hc : s.bat.st ≠ .unconstructed) (ht : batRun s = .error t) :
    t.BlockInv := by
  obtain ⟨-, ⟨-, rfl⟩ | ⟨jobs, -, ⟨c, hm, rfl⟩ | ⟨m, -, rfl⟩ | ⟨c, u, -, hs, rfl⟩⟩⟩ := batRun_error ht
  · exact (OnlyBat.ofOutput (.refl s 0 0)).batFails h.units hc rfl _ _ nofun
  · exact h.units.raise (ErrCode.ne_ok_of_isContract (checksMessages_onlyContract s jobs c hm))
  · exact h.refuse m
  · obtain ⟨n, ho⟩ := batSchedule_error_onlyBat hs
    exact ho.batFails h.units hc (batSchedule_error_length hs) _ _ (ErrCode.ne_ok_of_isResource (batSchedule_error_isResource hs))

theorem effectBatCalculate_inv {s : State} (h : s.BlockInv) (hc : s.bat.st ≠ .unconstructed) : (effectBatCalculate s).BlockInv := by
  by_cases hr : s.race = []
  · rw [effectBatCalculate_quiet hr]
    split
    next ht => exact (batRun_ok_inv h.units ht).complete
    next ht => exact batRun_error_inv h hc ht
  · have hq := h.raced []
    rcases effectBatCalculate_raced hr with ⟨u, t, -, ht, e⟩ | ⟨u, hu, e⟩ | ⟨u, hu, e⟩ <;> rw [e]
    · exact (batRun_ok_inv h.units ht).complete
    · exact (((batRun_ok_inv hq.units hu).freeRegion _ _).complete).raced _
    · exact (batRun_error_inv hq hc hu).raced _

/-! ### Every command -/

/-- A command that checks its width operand runs only on one that names a width (R86). -/
theorem width_of_pass {vs : List Verdict} {s : State} (h : Verdict.first vs = .pass)
    (hm : Verdict.when (Width.ofWord (s.arg 0)).isNone (.err .unsupportedWidth) ∈ vs) : Width.ofWord (s.arg 0) ≠ none := by
  rw [← Option.isSome_iff_ne_none]
  simpa using Verdict.passed h hm

/-- A command that checks for NOT_CONSTRUCTED runs only on an engine of the invariant that has a width (R31, R170). -/
theorem State.UnitsInv.width_of_pass {s : State} (hs : s.UnitsInv) {e : EngineSel} {vs : List Verdict} (h : Verdict.first vs = .pass)
    (hm : Verdict.when ((s.engine e).st == .unconstructed) (.err .notConstructed) ∈ vs) : (s.engine e).width ≠ none :=
  (hs.engine e).width_ne_none (by simpa using Verdict.passed h hm)

theorem checksBatCalculate_constructed {s : State} (h : checksBatCalculate s = .pass) : s.bat.st ≠ .unconstructed := by
  simpa using Verdict.passed (b := s.bat.st == .unconstructed) (c := .notConstructed) h (by simp)

/-- Where the checks of a command pass, its effect keeps the invariant. -/
theorem effectOf_inv {i : Instr} {s : State} (h : s.BlockInv) (hc : checksOf i s = .pass) : (effectOf i s).BlockInv := by
  have hu := h.units
  cases i with
  | kfPermute => exact State.UnitsInv.complete ⟨hu.mem, hu.seq, hu.acc, hu.bat⟩
  | kfLoad => exact effectKfLoad_inv hu
  | kfStore => exact effectKfStore_inv hu
  | spInit => exact State.UnitsInv.complete ⟨hu.mem, hu.seq, hu.acc, hu.bat⟩
  | spAbsorb => exact effectSpAbsorb_inv hu
  | spPad => exact effectSpPad_inv hu
  | spSqueeze => exact effectSpSqueeze_inv hu
  | seqConstruct => exact effectConstruct_inv hu .seq none (width_of_pass hc (by simp))
  | seqInit => exact effectInit_inv hu none (hu.width_of_pass hc (by simp))
  | seqAdd => exact effectAdd_inv hu none (hu.width_of_pass hc (by simp))
  | seqDigest => exact effectDigest_inv hu none (hu.width_of_pass hc (by simp))
  | seqDestroy => exact effectDestroy_inv hu .seq
  | accConstruct => exact effectConstruct_inv hu .acc (some .accAlloc) (width_of_pass hc (by simp))
  | accInit => exact effectInit_inv hu (some .accInit) (hu.width_of_pass hc (by simp))
  | accAdd => exact effectAdd_inv hu (some .accAdd) (hu.width_of_pass hc (by simp))
  | accDigest => exact effectDigest_inv hu (some .accDigest) (hu.width_of_pass hc (by simp))
  | accDestroy => exact effectDestroy_inv hu .acc
  | batConstruct => exact effectBatConstruct_inv hu (width_of_pass hc (by simp))
  | batCalculate => exact effectBatCalculate_inv h (checksBatCalculate_constructed hc)
  | batSize => exact State.UnitsInv.complete ⟨hu.mem, hu.seq, hu.acc, hu.bat⟩
  | batDestroy => exact effectBatDestroy_inv hu

theorem exec_keeps_blockInv {i : Instr} {s t : State} (h : s.BlockInv) (ht : exec i s = .next t) : t.BlockInv := by
  rw [exec_next ht]
  cases hc : checksOf i s with
  | pass => exact effectOf_inv h hc
  | err c => exact h.units.raise (ErrCode.ne_ok_of_isContract (checksOf_onlyContract i s c hc))
  | refuse m => exact h.refuse m

theorem issue_keeps_blockInv {w : Word} {s t : State} (h : s.BlockInv) (ht : issue w s = .next t) : t.BlockInv := by
  have hs : ({ s with cmd := w } : State).BlockInv := ⟨⟨h.units.mem, h.units.seq, h.units.acc, h.units.bat⟩, h.status⟩
  unfold issue at ht
  split at ht
  · exact exec_keeps_blockInv hs ht
  · cases ht
    exact hs.units.raise nofun

/-! ### Every operation of the host -/

theorem issue_keeps_inv {w : Word} {s t : State} (h : s.Inv) (ht : issue w s = .next t) : t.Inv := by
  obtain ⟨hb, hr⟩ := State.inv_iff.1 h
  obtain ⟨-, -, -, -, -, -, hrace⟩ := issue_sameHostSide ht
  exact State.inv_iff.2 ⟨issue_keeps_blockInv hb ht, hrace.trans hr⟩

theorem storeReg_keeps_inv {r : Reg} {v : Word} {s t : State} (h : s.Inv) (ht : storeReg r v s = .next t) : t.Inv := by
  cases r with
  | cmd => exact issue_keeps_inv h ht
  | arg k => cases ht; exact h
  | status | result | seqWidth | accWidth | batWidth | rawWidth => cases ht; exact h

theorem storeWindow_keeps_inv {offset : Nat} {data : List Byte} {s t : State} (h : s.Inv)
    (ht : storeWindow offset data s = .next t) : t.Inv := by
  unfold storeWindow at ht
  split at ht
  · exact storeReg_keeps_inv h ht
  · cases ht; exact h

theorem regLoad_keeps_inv {s : State} (h : s.Inv) (r : Reg) : (s.regLoad r).2.Inv := by
  unfold State.regLoad
  split
  · split <;> exact h
  · exact h

theorem loadWindow_keeps_inv {s : State} (h : s.Inv) (offset n : Nat) : (loadWindow offset n s).Inv := by
  unfold loadWindow
  split
  next r _ => exact regLoad_keeps_inv h r
  next => exact h

theorem State.Inv.writeBytes {s : State} (h : s.Inv) (a : Nat) (bs : List Byte) :
    State.Inv { s with mem := Memory.writeBytes s.mem a bs } :=
  ⟨Memory.writeBytes_wf a bs h.1, h.2⟩

theorem storePhysical_keeps_inv {a : Nat} {data : List Byte} {s t : State} (h : s.Inv)
    (ht : storePhysical a data s = .next t) : t.Inv := by
  unfold storePhysical at ht
  split at ht
  · cases ht
  · split at ht
    · exact storeWindow_keeps_inv h ht
    · cases ht; exact h.writeBytes a data

theorem loadPhysical_keeps_inv {a n : Nat} {s t : State} (h : s.Inv) (ht : loadPhysical a n s = .next t) : t.Inv := by
  unfold loadPhysical at ht
  split at ht
  · cases ht
  · split at ht
    · cases ht; exact loadWindow_keeps_inv h _ n
    · cases ht; exact h

/-- What a raced command leaves in memory is canonical, whichever bytes stay there (R311). -/
theorem settleRace_inv {s : State} (h : s.BlockInv) (region : Nat × Nat) : (settleRace region s).Inv := by
  refine State.inv_iff.2 ⟨⟨⟨?_, h.units.seq, h.units.acc, h.units.bat⟩, h.status⟩, rfl⟩
  refine List.foldlRecOn s.race _ h.units.mem fun m hm c _ => ?_
  dsimp only
  split
  · split
    · exact hm
    · exact Memory.write_wf _ _ hm
  · exact Memory.write_wf _ _ hm

theorem issueRaced_keeps_inv {w : Word} {writes : List (Word × Byte)} {s t : State} (h : s.Inv)
    (ht : issueRaced w writes s = .next t) : t.Inv := by
  obtain ⟨u, hu⟩ := issue_answers w { s with race := writes }
  rw [issueRaced, hu] at ht
  cases ht
  exact settleRace_inv (issue_keeps_blockInv ((State.inv_iff.1 h).1.raced writes) hu) _

/-- A block in its reset state meets the invariant, whatever its parameters (R300). -/
theorem powerOn_inv (p : Platform) : (State.powerOn p).Inv := by
  have hl (l : BatchLane) (hm : l ∈ List.replicate p.laneCapacity BatchLane.idle) : l.active = false := by
    rw [List.eq_of_mem_replicate hm]; rfl
  exact ⟨⟨.nil, nofun⟩, Engine.inv_unconstructed _ _, Engine.inv_unconstructed _ _,
    ⟨by simp [State.powerOn], List.length_replicate, hl⟩, ⟨⟨nofun, absurd rfl⟩, nofun⟩, rfl⟩

/-- Reset gives the block its reset state and keeps host memory (R300), so only memory must have been canonical. -/
theorem applyReset_inv {s : State} (h : Memory.wf s.mem) : s.applyReset.Inv := ⟨h, (powerOn_inv s.platform).2⟩

theorem issueReset_inv {s : State} (h : Memory.wf s.mem) (w : Word) : (issueReset w s).Inv := by
  have hm (a n : Nat) : Memory.wf (s.freeRegion a n).mem := Memory.writeBytes_wf _ _ h
  unfold issueReset
  dsimp only
  split
  · exact applyReset_inv (hm _ _)
  · split <;> exact applyReset_inv (hm _ _)

theorem perform_keeps_inv {op : HostOp} {s t : State} (h : s.Inv) (ht : perform op s = .next t) : t.Inv := by
  cases op with
  | regStore offset data => exact storeWindow_keeps_inv h ht
  | regLoad offset n => cases ht; exact loadWindow_keeps_inv h offset n
  | store a data => exact storePhysical_keeps_inv h ht
  | load a n => exact loadPhysical_keeps_inv h ht
  | issueRaced w writes => exact issueRaced_keeps_inv h ht
  | issueReset w => cases ht; exact issueReset_inv h.1 w
  | reset => cases ht; exact applyReset_inv h.1

/-- Settles O58: the step is the host's next operation on the block, and every operation keeps the invariant; a command does because its checks and its effect
do (`exec_keeps_blockInv`), raced or not. -/
theorem stepKeepsTheInvariant : Obligations.StepKeepsTheInvariant := by
  intro s t h ht
  unfold step at ht
  split at ht
  · cases ht; exact h
  next op rest _ => exact perform_keeps_inv (s := { s with pending := rest }) h ht

/-- Settles O59: power-on meets the invariant on every platform. -/
theorem resetMeetsTheInvariant : Obligations.ResetMeetsTheInvariant := powerOn_inv Config.platform

end Sys2Proof.Machine
end

section
/-! SUPPORT. The register window (R22-R32): which register an access reaches, what a load shows and a store does, the fields of STATUS, and the statements about
the registers. -/

namespace Sys2Proof.Machine

/-! ### Which register an access reaches -/

/-- A naturally aligned 64-bit access at a register's offset reaches that register (R32). -/
@[simp] theorem accessedReg_offset (r : Reg) : accessedReg r.offset 8 = some r := by
  cases r with
  | arg k => fin_cases k <;> rfl
  | cmd | status | result | seqWidth | accWidth | batWidth | rawWidth => rfl

theorem offset_of_ofOffset {offset : Nat} {r : Reg} (h : Reg.ofOffset offset = some r) : offset = r.offset := by
  unfold Reg.ofOffset at h
  split at h <;> cases h <;> rfl

theorem Reg.offset_aligned (r : Reg) : r.offset % 8 = 0 ∧ r.offset ≤ 0x58 := by
  cases r with
  | arg k => simp only [Reg.offset]; omega
  | cmd | status | result | seqWidth | accWidth | batWidth | rawWidth => decide

/-- Only an aligned 64-bit access to offsets 0x00-0x58 reaches a register (R32). -/
theorem accessedReg_eq_none {offset n : Nat} (h : ¬(n = 8 ∧ offset % 8 = 0 ∧ offset ≤ 0x58)) : accessedReg offset n = none := by
  rw [Option.eq_none_iff_forall_ne_some]
  intro r hr
  unfold accessedReg at hr
  split at hr
  next hn =>
    rw [offset_of_ofOffset hr] at h
    exact h ⟨hn, Reg.offset_aligned r⟩
  · cases hr

theorem storeWindow_offset (r : Reg) {data : List Byte} (h : data.length = 8) (s : State) :
    storeWindow r.offset data s = storeReg r (leWord data) s := by
  simp [storeWindow, h]

theorem storeWindow_bytes64 (r : Reg) (v : Word) (s : State) : storeWindow r.offset (bytes64 v) s = storeReg r v s := by
  rw [storeWindow_offset r (length_bytes64 v), leWord_bytes64]

/-- A load of a register other than an unwritten ARG shows its value and has no effect on the block (R22-R24, R30, R31). -/
theorem loadWindow_offset {r : Reg} {s : State} (h : ∀ k, r = .arg k → s.argWritten.get k = true) :
    loadWindow r.offset 8 s = { s with loads := bytes64 (s.regValue r) :: s.loads } := by
  have hl : s.regLoad r = (s.regValue r, s) := by
    cases r with
    | arg k => simp [State.regLoad, State.regValue, h k rfl]
    | cmd | status | result | seqWidth | accWidth | batWidth | rawWidth => rfl
  simp [loadWindow, hl]

/-- The registers that ignore a store: STATUS, RESULT and the width registers (R24, R30, R31). -/
def isReadOnly : Reg → Bool
  | .cmd | .arg _ => false
  | .status | .result | .seqWidth | .accWidth | .batWidth | .rawWidth => true

theorem storeWindow_readOnly {r : Reg} (hr : isReadOnly r = true) {data : List Byte} (h : data.length = 8) (s : State) :
    storeWindow r.offset data s = .next s := by
  rw [storeWindow_offset r h]
  cases r with
  | cmd | arg k => cases hr
  | status | result | seqWidth | accWidth | batWidth | rawWidth => rfl

theorem loadWindow_readOnly {r : Reg} (hr : isReadOnly r = true) (s : State) :
    loadWindow r.offset 8 s = { s with loads := bytes64 (s.regValue r) :: s.loads } :=
  loadWindow_offset fun k hk => by subst hk; cases hr

/-- STATUS, RESULT and the width registers read 0 after reset (R300). -/
theorem reset_readOnly {r : Reg} (hr : isReadOnly r = true) : State.reset.regValue r = 0 := by
  cases r with
  | cmd | arg k => cases hr
  | status | result | seqWidth | accWidth | batWidth | rawWidth => rfl

/-- Settles O10: no register lies at such an access. -/
theorem otherWindowAccessesRefused : Obligations.OtherWindowAccessesRefused := by
  intro s offset n h
  have ha := accessedReg_eq_none h
  refine ⟨by simp only [loadWindow, ha]; rfl, ?_⟩
  rintro data rfl
  simp only [storeWindow, ha]
  rfl

/-! ### CMD -/

/-- A pending 64-bit store at the window's offset 0 issues its word (R22). -/
theorem step_cmdStore {s : State} {w : Word} {rest : List HostOp} (h : s.pending = .regStore 0 (bytes64 w) :: rest) :
    step s = issue w { s with pending := rest } := by
  rw [step, h]
  exact storeWindow_bytes64 .cmd w _

/-- The window lies in the address space (R8). -/
theorem regBase_add_window (p : Platform) : p.regBase + 0x100 ≤ 2 ^ 64 := by
  have := p.regPage.isLt
  unfold Platform.regBase
  omega

/-- A 64-bit store at the physical address REG_BASE is a store to CMD (R70). -/
theorem storePhysical_regBase (w : Word) (s : State) : storePhysical s.platform.regBase (bytes64 w) s = issue w s := by
  have hb := regBase_add_window s.platform
  have ht : touchesWindow s.platform s.platform.regBase 8 = true := by simp [touchesWindow, overlaps]
  have ho : windowOffset s.platform s.platform.regBase = Reg.cmd.offset := by simp [windowOffset, Reg.offset]
  have hf : ¬ 2 ^ 64 < s.platform.regBase + 8 := by omega
  simp only [storePhysical, length_bytes64, if_neg hf, ht, if_true, ho]
  exact storeWindow_bytes64 .cmd w s

theorem issue_legal {w : Word} {i : Instr} (h : decode w = .ok i) (s : State) : issue w s = exec i { s with cmd := w } := by
  rw [issue, h]

theorem issue_illegal {w : Word} (h : ∀ i, decode w ≠ .ok i) (s : State) :
    issue w s = .next ({ s with cmd := w }.raise .illegalCommand) := by
  unfold issue
  split
  next hd => exact absurd hd (h _)
  · rfl

/-- Settles O5: both kinds of store reach CMD and issue the word. -/
theorem stepRunsDecodedCommand : Obligations.StepRunsDecodedCommand := by
  intro s w i rest hd
  refine ⟨fun h => ?_, fun a ha h => ?_⟩
  · rw [step_cmdStore h, issue_legal hd]
  · have hp : perform (.store a (bytes64 w)) { s with pending := rest } = issue w { s with pending := rest } := by
      rw [perform, ha]
      exact storePhysical_regBase w { s with pending := rest }
    rw [step, h]
    exact hp.trans (issue_legal hd _)

/-- Settles O6: the store issues the word, and no command writes CMD (`issue_sameHostSide`). -/
theorem cmdRegisterHoldsLastStore : Obligations.CmdRegisterHoldsLastStore := by
  refine ⟨rfl, fun s w rest h => ?_⟩
  obtain ⟨t, ht⟩ := issue_answers w { s with pending := rest }
  obtain ⟨hcmd, -, -, -, hpending, -, -⟩ := issue_sameHostSide ht
  have hcmd : t.cmd = w := hcmd
  refine ⟨t, (step_cmdStore h).trans ht, hcmd, hpending, ?_, fun hill => ?_⟩
  · have hl := loadWindow_offset (r := .cmd) (s := t) nofun
    rw [State.regValue, hcmd] at hl
    exact congrArg State.loads hl
  · rw [issue_illegal hill] at ht
    cases ht
    exact ⟨rfl, rfl, rfl⟩

/-! ### ARG0-ARG4 -/

theorem get_set_self {α : Type} {n : Nat} (xs : Vector α n) (k : Fin n) (x : α) : (xs.set k x).get k = x := by
  simp [Vector.get_eq_getElem]

theorem get_set_other {α : Type} {n : Nat} (xs : Vector α n) {j k : Fin n} (x : α) (h : j ≠ k) : (xs.set k x).get j = xs.get j := by
  have hv : k.val ≠ j.val := fun e => h (Fin.ext e.symm)
  simp [Vector.get_eq_getElem, Vector.getElem_set_ne _ _ hv]

/-- A store to ARGk (R23). -/
theorem storeWindow_arg (s : State) (k : Fin 5) (v : Word) : storeWindow (8 + 8 * k.val) (bytes64 v) s =
    .next { s with args := s.args.set k v, argWritten := s.argWritten.set k true } :=
  storeWindow_bytes64 (.arg k) v s

/-- Settles O7: a store to ARGk writes one entry of each vector; no command writes them (`exec_sameHostSide`), and the check on the operand registers comes
first (`checksOf_lacksArgs`). -/
theorem argRegisters : Obligations.ArgRegisters := by
  refine ⟨fun k => Vector.get_replicate 5 false k, fun s k => Vector.get_replicate 5 false k, fun s k v => ?_, fun i s t h => ?_,
    fun i s h => ?_⟩
  · refine ⟨_, storeWindow_arg s k v, ?_, ?_, fun j hj => ⟨?_, ?_⟩, rfl, ?_⟩
    · exact get_set_self s.args k v
    · exact get_set_self s.argWritten k true
    · exact get_set_other s.args v hj
    · exact get_set_other s.argWritten true hj
    · have hload := loadWindow_offset (r := .arg k) (s := { s with args := s.args.set k v, argWritten := s.argWritten.set k true })
        (by rintro j ⟨⟩; exact get_set_self s.argWritten k true)
      rw [State.regValue, State.arg, get_set_self] at hload
      exact congrArg State.loads hload
  · obtain ⟨-, hargs, hwritten, -, -, -, -⟩ := exec_sameHostSide h
    exact ⟨hargs, hwritten⟩
  · rw [exec_eq, checksOf_lacksArgs h]
    rfl

/-! ### STATUS -/

theorem flag_eq_toNat (b : Bool) : flag b = (BitVec.ofBool b).toNat := by cases b <;> rfl

/-- STATUS as a natural, the sum of its fields at their places (R24). -/
def State.statusNat (s : State) : Nat :=
  flag s.err + 2 ^ 1 * flag s.faultSeen + 2 ^ 8 * s.errCode.code.toNat + 2 ^ 16 * s.seq.st.code.toNat
    + 2 ^ 20 * s.acc.st.code.toNat + 2 ^ 24 * s.bat.st.code.toNat + 2 ^ 28 * flag s.raw.svalid
    + 2 ^ 29 * flag s.raw.width.isSome

theorem State.status_eq (s : State) : s.status = BitVec.ofNat 64 s.statusNat := rfl

/-- A bit field of a word given as a natural is read off by division. -/
theorem extract_ofNat {n start len : Nat} {x : BitVec len} (hn : n < 2 ^ 64) (h : n / 2 ^ start % 2 ^ len = x.toNat) :
    BitVec.extractLsb' start len (BitVec.ofNat 64 n) = x := by
  apply BitVec.eq_of_toNat_eq
  rw [BitVec.extractLsb'_toNat, BitVec.toNat_ofNat, Nat.mod_eq_of_lt hn, Nat.shiftRight_eq_div_pow, h]

/-- Every field of STATUS at its bits, every reserved bit zero (R24): each field fits its place, so none reaches the next. -/
theorem status_fields (s : State) :
    BitVec.extractLsb' 0 1 s.status = BitVec.ofBool s.err ∧ BitVec.extractLsb' 1 1 s.status = BitVec.ofBool s.faultSeen ∧
    BitVec.extractLsb' 2 6 s.status = 0 ∧ BitVec.extractLsb' 8 8 s.status = s.errCode.code ∧
    BitVec.extractLsb' 16 3 s.status = s.seq.st.code ∧ BitVec.extractLsb' 19 1 s.status = 0 ∧
    BitVec.extractLsb' 20 3 s.status = s.acc.st.code ∧ BitVec.extractLsb' 23 1 s.status = 0 ∧
    BitVec.extractLsb' 24 3 s.status = s.bat.st.code ∧ BitVec.extractLsb' 27 1 s.status = 0 ∧
    BitVec.extractLsb' 28 1 s.status = BitVec.ofBool s.raw.svalid ∧
    BitVec.extractLsb' 29 1 s.status = BitVec.ofBool s.raw.width.isSome ∧ BitVec.extractLsb' 30 34 s.status = 0 := by
  have err := (BitVec.ofBool s.err).isLt
  have faultSeen := (BitVec.ofBool s.faultSeen).isLt
  have code := s.errCode.code.isLt
  have seq := s.seq.st.code.isLt
  have acc := s.acc.st.code.isLt
  have bat := s.bat.st.code.isLt
  have svalid := (BitVec.ofBool s.raw.svalid).isLt
  have wset := (BitVec.ofBool s.raw.width.isSome).isLt
  have hlt : s.statusNat < 2 ^ 64 := by simp only [State.statusNat, flag_eq_toNat]; omega
  have field {start len : Nat} {x : BitVec len} (h : s.statusNat / 2 ^ start % 2 ^ len = x.toNat) :
      BitVec.extractLsb' start len s.status = x := by
    rw [State.status_eq]
    exact extract_ofNat hlt h
  have reserved {start len : Nat} (h : s.statusNat / 2 ^ start % 2 ^ len = 0) : BitVec.extractLsb' start len s.status = 0 :=
    field (h.trans (BitVec.toNat_zero).symm)
  simp only [State.statusNat, flag_eq_toNat] at field reserved
  refine ⟨field ?_, field ?_, reserved ?_, field ?_, field ?_, reserved ?_, field ?_, reserved ?_, field ?_, reserved ?_,
    field ?_, field ?_, reserved ?_⟩ <;> omega

/-- Settles O8: the fields are `status_fields`; STATUS ignores stores and its load is recorded only. -/
theorem statusFields : Obligations.StatusFields := by
  refine ⟨reset_readOnly (r := .status) rfl, ?_, ?_, ?_, fun s => ?_⟩
  · intro st; cases st <;> decide
  · intro st; cases st <;> decide
  · intro c; cases c <;> decide
  · have fields := status_fields s
    simp only [← and_assoc] at fields ⊢
    exact ⟨⟨fields, fun data hd => storeWindow_readOnly (r := .status) rfl hd s⟩, loadWindow_readOnly (r := .status) rfl s⟩

/-! ### RESULT and the width registers -/

/-- A width fits its register (R31, R86). -/
theorem toNat_width_register (w : Option Width) : (BitVec.ofNat 64 (widthBits w)).toNat = widthBits w := by
  rcases w with _ | w
  · rfl
  · cases w <;> rfl

theorem width_register_eq_zero (w : Option Width) : BitVec.ofNat 64 (widthBits w) = 0 ↔ w = none := by
  rcases w with _ | w
  · simp [widthBits]
  · cases w <;> simp [widthBits, Width.bits]

/-- Settles O9: under the invariant an engine has no width exactly while it is UNCONSTRUCTED. -/
theorem widthRegisters : Obligations.WidthRegisters := by
  refine ⟨fun p hp => ?_, fun s ⟨_, hseq, hacc, hbat, _, _⟩ => ?_⟩
  · have rows : ∀ p ∈ [(0x38, Reg.result), (0x40, .seqWidth), (0x48, .accWidth), (0x50, .batWidth), (0x58, .rawWidth)],
        p.1 = p.2.offset ∧ isReadOnly p.2 = true := by decide
    obtain ⟨ho, hr⟩ := rows p hp
    rw [ho]
    exact ⟨reset_readOnly hr, fun s => ⟨fun data hd => storeWindow_readOnly hr hd s, loadWindow_readOnly hr s⟩⟩
  · have value {x : Option Width} {w : Width} (h : x = some w) : (BitVec.ofNat 64 (widthBits x)).toNat = w.bits := by
      rw [toNat_width_register, h]; rfl
    exact ⟨(width_register_eq_zero _).trans hseq.1.symm, (width_register_eq_zero _).trans hacc.1.symm,
      (width_register_eq_zero _).trans hbat.1.symm, width_register_eq_zero _, fun w => ⟨value, value, value, value⟩⟩

/-- Settles O53: outside BAT_SIZE an effect keeps RESULT (`effectOf_frame`), and a command whose check fails has no effect. -/
theorem resultOnlyByBatSize : Obligations.ResultOnlyByBatSize := by
  refine ⟨rfl, loadWindow_readOnly (r := .result) rfl, fun s data hd => storeWindow_readOnly (r := .result) rfl hd s,
    fun i s t h hne => ?_⟩
  rw [exec_next h] at hne ⊢
  cases hc : checksOf i s with
  | err c => rw [hc] at hne; exact absurd rfl hne
  | refuse m => rw [hc] at hne; exact absurd rfl hne
  | pass =>
    rw [hc] at hne
    by_cases hi : i = .batSize
    · subst hi; exact ⟨rfl, rfl, rfl⟩
    · exact absurd (effectOf_frame s hi).result hne

end Sys2Proof.Machine
end

section
/-! SUPPORT. Lanes as byte sequences (R11, R63, R64): which byte of a word, of a serialized state and of a block stands where, and the statements about the
serialization and about the block's bytes in the lanes. -/

namespace Sys2Proof.Machine

/-! ### Words and their bytes -/

/-- A word is its eight bytes (R11). -/
theorem word_ext {v w : Word} (h : ∀ j, j < 8 → BitVec.extractLsb' (8 * j) 8 v = BitVec.extractLsb' (8 * j) 8 w) : v = w := by
  apply BitVec.eq_of_getLsbD_eq
  intro i hi
  have bit (x : Word) : (BitVec.extractLsb' (8 * (i / 8)) 8 x).getLsbD (i % 8) = x.getLsbD i := by
    simp [Nat.div_add_mod, Nat.mod_lt]
  rw [← bit v, ← bit w, h (i / 8) (by omega)]

theorem getD_bytes64 (v : Word) {j : Nat} (hj : j < 8) : (bytes64 v).getD j 0 = BitVec.extractLsb' (8 * j) 8 v := by
  simp [bytes64, hj]

/-- `LE64` puts byte j at bits `[8j+7 : 8j]`; a byte past the end of the sequence counts as 0 (R11). -/
theorem extract_leWord (b : List Byte) {j : Nat} (hj : j < 8) : BitVec.extractLsb' (8 * j) 8 (leWord b) = b.getD j 0 := by
  induction b generalizing j with
  | nil => simp [leWord]
  | cons x b ih =>
    cases j with
    | zero =>
      ext i hi
      simp [leWord, hi, show i < 64 by omega]
    | succ j =>
      rw [List.getD_cons_succ, ← ih (by omega)]
      ext i hi
      have hlt : 8 * (j + 1) + i < 64 := by omega
      have hge : ¬8 * (j + 1) + i < 8 := by omega
      have hx : x.getLsbD (8 * (j + 1) + i) = false := BitVec.getLsbD_of_ge _ _ (by omega)
      simp [leWord, hlt, hge, hx, show 8 * (j + 1) + i - 8 = 8 * j + i by omega, ← BitVec.getLsbD_eq_getElem]

/-- Lane k of a byte sequence takes its bytes 8k to 8k+7 (R63, R64). -/
theorem extract_leWord_block (b : List Byte) (k : Nat) {j : Nat} (hj : j < 8) :
    BitVec.extractLsb' (8 * j) 8 (leWord ((b.drop (8 * k)).take 8)) = b.getD (8 * k + j) 0 := by
  rw [extract_leWord _ hj]
  simp [List.getD_eq_getElem?_getD, hj]

/-! ### The serialized state -/

/-- Byte `8k + j` of a sequence of words is byte j of word k. -/
theorem getD_flatMap_bytes64 (ws : List Word) (k : Nat) {j : Nat} (hj : j < 8) :
    (ws.flatMap bytes64).getD (8 * k + j) 0 = BitVec.extractLsb' (8 * j) 8 (ws.getD k 0) := by
  induction ws generalizing k with
  | nil => simp
  | cons w ws ih =>
    rw [List.flatMap_cons]
    cases k with
    | zero => rw [List.getD_append _ _ _ _ (by simpa using hj), Nat.mul_zero, Nat.zero_add, getD_bytes64 w hj, List.getD_cons_zero]
    | succ k =>
      rw [List.getD_append_right _ _ _ _ (by simp; omega), length_bytes64, show 8 * (k + 1) + j - 8 = 8 * k + j by omega, ih,
        List.getD_cons_succ]

theorem getD_stateToBytes (S : Lanes) (k : Nat) {j : Nat} (hj : j < 8) :
    (stateToBytes S).getD (8 * k + j) 0 = BitVec.extractLsb' (8 * j) 8 (laneK S k) := getD_flatMap_bytes64 _ k hj

theorem extract_bytesToState (b : List Byte) {k j : Nat} (hk : k < 25) (hj : j < 8) :
    BitVec.extractLsb' (8 * j) 8 (laneK (bytesToState b) k) = b.getD (8 * k + j) 0 := by
  rw [bytesToState, laneK_tabulate _ hk, extract_leWord_block b k hj]

/-- Both sides have the same bytes in every lane. -/
theorem bytesToState_stateToBytes (S : Lanes) : bytesToState (stateToBytes S) = S :=
  lanes_ext fun k hk => word_ext fun j hj => by rw [extract_bytesToState _ hk hj, getD_stateToBytes S k hj]

/-- Byte i of both sides is byte `i mod 8` of lane `i div 8`. -/
theorem stateToBytes_bytesToState {b : List Byte} (h : b.length = 200) : stateToBytes (bytesToState b) = b := by
  apply List.ext_getElem (by simp [h])
  intro i hi hb
  have byte : (stateToBytes (bytesToState b)).getD i 0 = b.getD i 0 := by
    rw [← Nat.div_add_mod i 8, getD_stateToBytes _ _ (Nat.mod_lt i (by decide)),
      extract_bytesToState b (by omega) (Nat.mod_lt i (by decide))]
  rwa [List.getD_eq_getElem _ _ hi, List.getD_eq_getElem _ _ hb] at byte

/-- Settles O20: a byte of the serialization is a byte of its lane (`getD_stateToBytes`), and lane k of the inverse takes those eight bytes back. -/
theorem serializationRoundTrip : Obligations.SerializationRoundTrip :=
  ⟨fun S => ⟨length_stateToBytes S, bytesToState_stateToBytes S, fun k _ _ hj => getD_stateToBytes S k hj⟩,
    fun _ h => stateToBytes_bytesToState h⟩

/-! ### A block in the lanes -/

/-- A lane of the block's part is XORed with its eight bytes (R63). -/
theorem laneK_xorBlock_of_lt {r k : Nat} (hr : r ≤ 200) (hk : k < r / 8) (S : Lanes) (blk : List Byte) :
    laneK (xorBlock r S blk) k = laneK S k ^^^ leWord ((blk.drop (8 * k)).take 8) := by
  rw [xorBlock, laneK_tabulate _ (by omega), if_pos hk]

/-- A lane of the capacity is not XORed (R63). -/
theorem laneK_xorBlock_of_ge {r k : Nat} (hk : r / 8 ≤ k) (h25 : k < 25) (S : Lanes) (blk : List Byte) :
    laneK (xorBlock r S blk) k = laneK S k := by
  rw [xorBlock, laneK_tabulate _ h25, if_neg (by omega)]

/-- A rate is a number of whole lanes, within the 25 (R140). -/
theorem rate_bits (w : Width) : rate w.bits % 8 = 0 ∧ rate w.bits ≤ 200 := by
  cases w <;> decide

/-- Settles O21: lane by lane a block is XORed in as words, and byte i of it is byte `i mod 8` of the word for lane `i div 8` (`extract_leWord_block`). -/
theorem blockBytesEnterLanes : Obligations.BlockBytesEnterLanes := by
  intro w S blk _
  obtain ⟨hw, hr⟩ := rate_bits w
  refine ⟨fun i hi => ?_, fun k hk => laneK_xorBlock_of_lt hr hk S blk, fun k hk h25 => laneK_xorBlock_of_ge hk h25 S blk, rfl⟩
  rw [laneK_xorBlock_of_lt hr (by omega), BitVec.extractLsb'_xor, extract_leWord_block blk _ (Nat.mod_lt i (by decide)),
    Nat.div_add_mod]

end Sys2Proof.Machine
end

section
/-! SUPPORT. The KF and SP commands that access host memory: when their checks pass, and how such a command ends where a byte is not admitted (R69, R273). -/

namespace Sys2Proof.Machine

/-! ### When the checks pass -/

@[simp] theorem Verdict.when_err_eq_pass {b : Bool} {c : ErrCode} : Verdict.when b (.err c) = .pass ↔ b = false := by
  cases b <;> simp

@[simp] theorem Verdict.when_refuse_eq_pass {b : Bool} {m : Mark} : Verdict.when b (.refuse m) = .pass ↔ b = false := by
  cases b <;> simp

@[simp] theorem argCheck_eq_pass {i : Instr} {s : State} : s.argCheck i = .pass ↔ s.lacksArgs i = false :=
  Verdict.when_refuse_eq_pass

theorem checksKfLoad_eq_pass {s : State} :
    checksKfLoad s = .pass ↔ s.lacksArgs .kfLoad = false ∧ rangeOk (s.argNat 0) 200 = true := by
  simp [checksKfLoad, Verdict.first_eq_pass]

theorem checksKfStore_eq_pass {s : State} :
    checksKfStore s = .pass ↔ s.lacksArgs .kfStore = false ∧ s.raw.svalid = true ∧ rangeOk (s.argNat 0) 200 = true := by
  simp [checksKfStore, Verdict.first_eq_pass]

theorem checksSpAbsorb_eq_pass {s : State} :
    checksSpAbsorb s = .pass ↔ s.lacksArgs .spAbsorb = false ∧ s.raw.svalid = true ∧ s.raw.width.isSome = true ∧
      rangeOk (s.argNat 0) s.raw.rate = true := by
  simp [checksSpAbsorb, Verdict.first_eq_pass]

theorem checksSpSqueeze_eq_pass {s : State} :
    checksSpSqueeze s = .pass ↔ s.lacksArgs .spSqueeze = false ∧ s.raw.svalid = true ∧ s.raw.width.isSome = true ∧
      rangeOk (s.argNat 0) s.raw.dlen = true := by
  simp [checksSpSqueeze, Verdict.first_eq_pass]

theorem checksSpPad_eq_pass {s : State} :
    checksSpPad s = .pass ↔ s.lacksArgs .spPad = false ∧ s.raw.width.isSome = true ∧ s.argNat 1 < s.raw.rate ∧
      (rangeOk (s.argNat 0) (s.argNat 1) = true ∧ rangeOk (s.argNat 2) s.raw.rate = true) ∧
      overlaps (s.argNat 0) (s.argNat 1) (s.argNat 2) s.raw.rate = false := by
  simp [checksSpPad, Verdict.first_eq_pass]

theorem exec_of_pass {i : Instr} {s : State} (h : checksOf i s = .pass) : exec i s = .next (effectOf i s) := by
  rw [exec_eq, h, State.conclude_pass]

theorem RawUnit.rate_of_width {u : RawUnit} {w : Width} (h : u.width = some w) : u.rate = Sys2Proof.rate w.bits := by
  rw [RawUnit.rate, h, widthBits]

theorem RawUnit.dlen_of_width {u : RawUnit} {w : Width} (h : u.width = some w) : u.dlen = Sys2Proof.dlen w.bits := by
  rw [RawUnit.dlen, h, widthBits]

/-! ### A bus error of the RAW unit -/

/-- How a KF or SP command leaves the block after a bus error: BUS_ERROR, RAW.SVALID cleared, RAW.W kept, no byte outside the region touched (R69, R273). -/
abbrev State.RawBusFailed (s t : State) (region : Nat × Nat) : Prop :=
  t.FailedWith .busError ∧ t.raw.svalid = false ∧ t.raw.width = s.raw.width ∧ s.SameOutsideRaw t ∧ s.SameMemoryOutside t region

/-- A bus error of a command that writes no host memory. -/
theorem State.rawBusError_failed (s : State) (region : Nat × Nat) : s.RawBusFailed s.rawBusError region :=
  ⟨⟨rfl, rfl, rfl⟩, rfl, rfl, ⟨⟨rfl, rfl, rfl, rfl, rfl, rfl, rfl⟩, ⟨rfl, rfl, rfl⟩, rfl, rfl⟩, fun _ _ => rfl⟩

/-- A bus error of a command that writes host memory: its output region is unspecified. -/
theorem State.freeRegion_rawBusError_failed (s : State) (a n : Nat) : s.RawBusFailed (s.freeRegion a n).rawBusError (a, n) :=
  ⟨⟨rfl, rfl, rfl⟩, rfl, rfl, ⟨⟨rfl, rfl, rfl, rfl, rfl, rfl, rfl⟩, ⟨rfl, rfl, rfl⟩, rfl, rfl⟩,
    fun _ hb => s.freeRegion_outside (by dsimp only at hb; omega)⟩

theorem State.memRead_some {s : State} {reader a n : Nat} {bs : List Byte} (h : s.memRead reader a n = some bs) :
    s.platform.admitsAll a n = true := by
  unfold State.memRead at h
  split at h
  next ha => exact ha
  · cases h

/-! ### Each effect either ends in a bus error or had every byte admitted -/

theorem effectKfLoad_cases (s : State) : s.RawBusFailed (effectKfLoad s) (outputRegion .kfLoad s) ∨
    (effectKfLoad s).errCode = .ok ∧ s.platform.admitsAll (s.argNat 0) 200 = true := by
  unfold effectKfLoad
  split
  · exact .inl (s.rawBusError_failed _)
  next hm => exact .inr ⟨rfl, State.memRead_some hm⟩

theorem effectKfStore_cases (s : State) : s.RawBusFailed (effectKfStore s) (outputRegion .kfStore s) ∨
    (effectKfStore s).errCode = .ok ∧ s.platform.admitsAll (s.argNat 0) 200 = true := by
  unfold effectKfStore
  split
  · exact .inl (s.freeRegion_rawBusError_failed _ _)
  next hw => exact .inr ⟨rfl, by simpa using (State.memWrite_some hw).1⟩

theorem effectSpAbsorb_cases (s : State) : s.RawBusFailed (effectSpAbsorb s) (outputRegion .spAbsorb s) ∨
    (effectSpAbsorb s).errCode = .ok ∧ s.platform.admitsAll (s.argNat 0) s.raw.rate = true := by
  unfold effectSpAbsorb
  split
  · exact .inl (s.rawBusError_failed _)
  next hm => exact .inr ⟨rfl, State.memRead_some hm⟩

theorem effectSpSqueeze_cases (s : State) : s.RawBusFailed (effectSpSqueeze s) (outputRegion .spSqueeze s) ∨
    (effectSpSqueeze s).errCode = .ok ∧ s.platform.admitsAll (s.argNat 0) s.raw.dlen = true := by
  unfold effectSpSqueeze
  split
  · exact .inl (s.freeRegion_rawBusError_failed _ _)
  next hw => exact .inr ⟨rfl, by simpa [RawUnit.dlen] using (State.memWrite_some hw).1⟩

/-- The padded block has rate bytes where the message leaves room in it, as the check for PAD_LENGTH asks. -/
theorem effectSpPad_cases (s : State) : s.RawBusFailed (effectSpPad s) (outputRegion .spPad s) ∨
    (effectSpPad s).errCode = .ok ∧ s.platform.admitsAll (s.argNat 0) (s.argNat 1) = true ∧
      (s.argNat 1 < s.raw.rate → s.platform.admitsAll (s.argNat 2) s.raw.rate = true) := by
  unfold effectSpPad
  split
  · exact .inl (s.freeRegion_rawBusError_failed _ _)
  next m hm =>
    split
    · exact .inl (s.freeRegion_rawBusError_failed _ _)
    next hw =>
      refine .inr ⟨rfl, State.memRead_some hm, fun hn => ?_⟩
      have hlen : (pad s.raw.rate m).length = s.raw.rate := length_pad (by rwa [State.memRead_length hm])
      exact hlen ▸ (State.memWrite_some hw).1

/-! ### The statement -/

/-- A command whose checks pass and whose effect is a bus error. -/
theorem exec_busError {i : Instr} {s : State} (hc : checksOf i s = .pass)
    (hf : s.RawBusFailed (effectOf i s) (outputRegion i s)) :
    ∃ t, exec i s = .next t ∧ s.RawBusFailed t (outputRegion i s) := ⟨_, exec_of_pass hc, hf⟩

/-- The effect of a KF or SP command that accesses host memory is a bus error or a success. -/
theorem effectOf_busError_or_ok {i : Instr} (hi : i ∈ [Instr.kfLoad, .kfStore, .spAbsorb, .spPad, .spSqueeze]) (s : State) :
    s.RawBusFailed (effectOf i s) (outputRegion i s) ∨ (effectOf i s).errCode = .ok := by
  simp only [List.mem_cons, List.not_mem_nil, or_false] at hi
  rcases hi with rfl | rfl | rfl | rfl | rfl
  · exact (effectKfLoad_cases s).imp_right And.left
  · exact (effectKfStore_cases s).imp_right And.left
  · exact (effectSpAbsorb_cases s).imp_right And.left
  · exact (effectSpPad_cases s).imp_right And.left
  · exact (effectSpSqueeze_cases s).imp_right And.left

/-- A check never reports BUS_ERROR, so a command that does had its checks pass. -/
theorem checksOf_pass_of_busError {i : Instr} {s t : State} (hs : s.errCode ≠ .busError) (h : exec i s = .next t)
    (ht : t.errCode = .busError) : checksOf i s = .pass := by
  rw [exec_next h] at ht
  cases hc : checksOf i s with
  | pass => rfl
  | err c =>
    rw [hc, State.conclude_err, State.raise_errCode] at ht
    subst ht
    cases checksOf_onlyContract i s _ hc
  | refuse m =>
    rw [hc, State.conclude_refuse, State.refuse_errCode] at ht
    exact absurd ht hs

/-- Settles O31: with the checks passed the command is its effect, which is a bus error unless every byte was admitted. -/
theorem rawUnitBusError : Obligations.RawUnitBusError := by
  refine ⟨fun s => ⟨?kfLoad, ?kfStore, fun w hw => ⟨?spAbsorb, ?spSqueeze, ?spPad⟩⟩, fun i s t hi hs h ht => ?converse⟩
  case kfLoad =>
    rintro ⟨hargs, -⟩ ⟨hrange, hadm⟩
    refine exec_busError (checksKfLoad_eq_pass.2 ⟨hargs, hrange⟩) ((effectKfLoad_cases s).resolve_right ?_)
    simp [hadm]
  case kfStore =>
    rintro ⟨hargs, -⟩ hsv ⟨hrange, hadm⟩
    refine exec_busError (checksKfStore_eq_pass.2 ⟨hargs, hsv, hrange⟩) ((effectKfStore_cases s).resolve_right ?_)
    simp [hadm]
  case spAbsorb =>
    rw [← RawUnit.rate_of_width hw]
    rintro ⟨hargs, -⟩ hsv ⟨hrange, hadm⟩
    refine exec_busError (checksSpAbsorb_eq_pass.2 ⟨hargs, hsv, by simp [hw], hrange⟩) ((effectSpAbsorb_cases s).resolve_right ?_)
    simp [hadm]
  case spSqueeze =>
    rw [← RawUnit.dlen_of_width hw]
    rintro ⟨hargs, -⟩ hsv ⟨hrange, hadm⟩
    refine exec_busError (checksSpSqueeze_eq_pass.2 ⟨hargs, hsv, by simp [hw], hrange⟩) ((effectSpSqueeze_cases s).resolve_right ?_)
    simp [hadm]
  case spPad =>
    rw [← RawUnit.rate_of_width hw]
    rintro ⟨hargs, -⟩ hn hsrc hblk hover hadm
    refine exec_busError (checksSpPad_eq_pass.2 ⟨hargs, by simp [hw], hn, ⟨hsrc, hblk⟩, hover⟩)
      ((effectSpPad_cases s).resolve_right ?_)
    rintro ⟨-, hread, hwrite⟩
    rcases hadm with ⟨-, hadm⟩ | ⟨-, hadm⟩
    · simp [hread] at hadm
    · simp [hwrite hn] at hadm
  case converse =>
    have hc := checksOf_pass_of_busError hs h ht
    have he : t = effectOf i s := by rw [exec_next h, hc, State.conclude_pass]
    subst he
    exact (effectOf_busError_or_ok hi s).resolve_right (by simp [ht])

end Sys2Proof.Machine
end

section
/-! SUPPORT. The encoding of command words (R80-R84): words and their fields, the opcode map read both ways, and the statements about legal and illegal words. -/

namespace Sys2Proof

/-! ### Words and their fields -/

/-- Each field of a packed word stands at its bits (R81). -/
@[simp] theorem fieldsOf_pack (f : CmdFields) : fieldsOf f.pack = f := by
  have hr : BitVec.extractLsb' 8 56 f.pack = f.rsvd :=
    (BitVec.extractLsb'_append_eq_of_le (by decide)).trans BitVec.extractLsb'_append_eq_left
  have hu : BitVec.extractLsb' 4 4 f.pack = f.unit :=
    (BitVec.extractLsb'_append_eq_of_le (by decide)).trans BitVec.extractLsb'_append_eq_right
  have hf : BitVec.extractLsb' 0 4 f.pack = f.func := BitVec.extractLsb'_append_eq_right
  rw [fieldsOf, hr, hu, hf]

/-- The three fields are all of the word (R81). -/
@[simp] theorem pack_fieldsOf (w : Word) : (fieldsOf w).pack = w := by
  have hi : BitVec.extractLsb' 8 56 w ++ BitVec.extractLsb' 4 4 w = BitVec.extractLsb' 4 60 w :=
    BitVec.extractLsb'_append_extractLsb'_eq_extractLsb' rfl
  calc (BitVec.extractLsb' 8 56 w ++ BitVec.extractLsb' 4 4 w) ++ BitVec.extractLsb' 0 4 w
    _ = BitVec.extractLsb' 4 60 w ++ BitVec.extractLsb' 0 4 w := by rw [hi]
    _ = BitVec.extractLsb' 0 64 w := BitVec.extractLsb'_append_extractLsb'_eq_extractLsb' rfl
    _ = w := BitVec.extractLsb'_eq_self

theorem fieldsOf_eq_iff {w : Word} {f : CmdFields} : fieldsOf w = f ↔ w = f.pack :=
  ⟨fun h => by rw [← h, pack_fieldsOf], fun h => by rw [h, fieldsOf_pack]⟩

/-! ### The opcode map, both ways -/

theorem CmdFields.eq_of_toNat {f g : CmdFields} (hr : f.rsvd = g.rsvd) (hu : f.unit.toNat = g.unit.toNat)
    (hf : f.func.toNat = g.func.toNat) : f = g := by
  cases f
  cases g
  simp_all [BitVec.toNat_inj]

/-- The decoder's rows are the encoder's (R83): a row matches the fields of its command and no others. -/
theorem decodeFields_eq_ok {f : CmdFields} {i : Instr} : decodeFields f = .ok i ↔ f = i.fields := by
  constructor
  · intro h
    unfold decodeFields at h
    split at h
    · cases h
    next hr =>
      have hr : f.rsvd = 0 := not_not.1 hr
      split at h
      case h_22 => split at h <;> cases h
      all_goals
        cases h
        exact CmdFields.eq_of_toNat hr ‹f.unit.toNat = _› ‹f.func.toNat = _›
  · rintro rfl
    cases i <;> rfl

/-- Decode is the inverse of encode on command words. -/
theorem decode_eq_ok {w : Word} {i : Instr} : decode w = .ok i ↔ w = encode i :=
  decodeFields_eq_ok.trans fieldsOf_eq_iff

@[simp] theorem decode_encode (i : Instr) : decode (encode i) = .ok i := decode_eq_ok.2 rfl

theorem decodeBytes_encodeBytes_append (i : Instr) (rest : List Byte) :
    decodeBytes (encodeBytes i ++ rest) = .ok (i, rest) := by
  have hlen : (encodeBytes i).length = 8 := length_bytes64 _
  have hword : leWord (encodeBytes i) = encode i := leWord_bytes64 _
  have hshort : ¬(encodeBytes i ++ rest).length < 8 := by simp [hlen]
  rw [decodeBytes, if_neg hshort, List.take_left' hlen, List.drop_left' hlen, hword, decode_encode]

/-- Settles O1: the fields of a word are all of it, and the decoder's row for a command is the one the encoder packs. -/
theorem decodeEncodeAgree : Obligations.DecodeEncodeAgree :=
  ⟨decodeBytes_encodeBytes_append, fun _ _ => decode_eq_ok⟩

/-! ### The legal words -/

theorem encode_mem_opcodeMap (i : Instr) : ((encode i).toNat, i) ∈ opcodeMap := by cases i <;> decide

/-- R83's OPC column is the encoder's. -/
theorem opcodeMap_eq_encode : ∀ row ∈ opcodeMap, row.1 = (encode row.2).toNat := by decide

theorem decode_eq_ok_iff_mem {w : Word} {i : Instr} : decode w = .ok i ↔ (w.toNat, i) ∈ opcodeMap := by
  rw [decode_eq_ok]
  constructor
  · rintro rfl
    exact encode_mem_opcodeMap i
  · exact fun h => BitVec.eq_of_toNat_eq (opcodeMap_eq_encode _ h)

/-- Settles O2: R83's table is the encoder's words. -/
theorem legalWordsAreTheOpcodeMap : Obligations.LegalWordsAreTheOpcodeMap := by
  refine ⟨fun _ _ => decode_eq_ok_iff_mem, rfl, fun i => ?_, fun i s => ?_⟩
  · cases i <;> decide
  · simp [Machine.State.lacksArgs]

/-! ### The illegal words -/

/-- A word is its RSVD field above its OPC (R81). -/
theorem toNat_eq_rsvd_opc (w : Word) :
    w.toNat = 2 ^ 8 * (BitVec.extractLsb' 8 56 w).toNat + (BitVec.extractLsb' 0 8 w).toNat := by
  have := w.isLt
  simp only [BitVec.extractLsb'_toNat, Nat.shiftRight_eq_div_pow]
  omega

theorem opcodeMap_lt : ∀ opc ∈ opcodeMap.map Prod.fst, opc < 2 ^ 8 := by decide

/-- A word is legal exactly if RSVD is zero and the low byte is an OPC (R84). -/
theorem legal_iff {w : Word} : (∃ i, decode w = .ok i) ↔
    BitVec.extractLsb' 8 56 w = 0 ∧ (BitVec.extractLsb' 0 8 w).toNat ∈ opcodeMap.map Prod.fst := by
  have hword := toNat_eq_rsvd_opc w
  have hopc := (BitVec.extractLsb' 0 8 w).isLt
  have hmap : (∃ i, decode w = .ok i) ↔ w.toNat ∈ opcodeMap.map Prod.fst := by simp [decode_eq_ok_iff_mem]
  rw [hmap]
  constructor
  · intro h
    have hlt := opcodeMap_lt _ h
    have hr : (BitVec.extractLsb' 8 56 w).toNat = 0 := by omega
    rw [hr] at hword
    refine ⟨BitVec.eq_of_toNat_eq hr, ?_⟩
    rwa [show (BitVec.extractLsb' 0 8 w).toNat = w.toNat by omega]
  · rintro ⟨hr, h⟩
    rw [hr] at hword
    rwa [show w.toNat = (BitVec.extractLsb' 0 8 w).toNat by simpa using hword]

/-- Settles O3: the words that are no row of R83 go the way of `issue_illegal`. -/
theorem illegalWordChangesStatusOnly : Obligations.IllegalWordChangesStatusOnly := by
  refine ⟨fun _ => legal_iff, fun i h => ?_, fun w s h => Machine.issue_illegal h s⟩
  exact absurd (legal_iff.1 ⟨i, h⟩).2 (by decide)

/-- Settles O4: each legal word is its command's, each illegal one fails in the field named. -/
theorem writtenOutWordsDecode : Obligations.WrittenOutWordsDecode :=
  ⟨decode_eq_ok.2 rfl, decode_eq_ok.2 rfl, decode_eq_ok.2 rfl, decode_eq_ok.2 rfl, decode_eq_ok.2 rfl, decode_eq_ok.2 rfl, rfl, rfl⟩

end Sys2Proof
end

section
/-! SUPPORT. The frames of the commands that store from the RAW unit and of the BAT commands (R89): what each leaves alone, however it ends. -/

namespace Sys2Proof.Machine

/-! ### Ends of a command, and FAULTSEEN -/

/-- A success leaves FAULTSEEN as it was (R26). -/
theorem State.StickyFault.complete {s t : State} (h : t.faultSeen = s.faultSeen) : s.StickyFault t.complete :=
  ⟨fun hs => h.trans hs, fun _ => h⟩

/-- A failure sets FAULTSEEN (R26, R270). -/
theorem State.StickyFault.of_failed {s t : State} {c : ErrCode} (h : t.FailedWith c) : s.StickyFault t := by
  obtain ⟨herr, -, hseen⟩ := h
  exact ⟨fun _ => hseen, fun hf => by simp [herr] at hf⟩

/-- Bytes written within a region leave the rest of memory alone. -/
theorem sameMemoryOutside_of_memWrite {s t : State} {a n : Nat} {bs : List Byte} (h : s.memWrite a bs = some t)
    (hn : bs.length = n) : s.SameMemoryOutside t (a, n) := by
  obtain ⟨-, rfl⟩ := State.memWrite_some h
  intro b hb
  dsimp only at hb
  exact Memory.read_writeBytes_outside _ _ _ (by omega)

/-! ### The RAW unit -/

/-- What a command that stores from the RAW unit leaves alone: all but STATUS, the mark and the bytes of its region, and, where no bus error is reported, the
RAW unit (R273). -/
structure State.RawStoreFrame (s t : State) (region : Nat × Nat) : Prop where
  host : s.SameHostSide t
  engines : s.SameEngines t
  result : t.result = s.result
  env : t.env = s.env
  sticky : s.StickyFault t
  width : t.raw.width = s.raw.width
  raw : t.errCode ≠ .busError → t.raw = s.raw
  memory : s.SameMemoryOutside t region

theorem State.rawStoreFrame_raise (s : State) (c : ErrCode) (region : Nat × Nat) : s.RawStoreFrame (s.raise c) region :=
  ⟨⟨rfl, rfl, rfl, rfl, rfl, rfl, rfl⟩, ⟨rfl, rfl, rfl⟩, rfl, rfl, .of_failed ⟨rfl, rfl, rfl⟩, rfl, fun _ => rfl, fun _ _ => rfl⟩

theorem State.rawStoreFrame_refuse (s : State) (m : Mark) (region : Nat × Nat) : s.RawStoreFrame (s.refuse m) region :=
  ⟨⟨rfl, rfl, rfl, rfl, rfl, rfl, rfl⟩, ⟨rfl, rfl, rfl⟩, rfl, rfl, ⟨id, fun _ => rfl⟩, rfl, fun _ => rfl, fun _ _ => rfl⟩

/-- The command ends in a bus error. -/
theorem State.rawStoreFrame_busError (s : State) (a n : Nat) : s.RawStoreFrame (s.freeRegion a n).rawBusError (a, n) := by
  obtain ⟨hfail, -, hwidth, ⟨hhost, hengines, hresult, -⟩, hmem⟩ := s.freeRegion_rawBusError_failed a n
  exact ⟨hhost, hengines, hresult, rfl, .of_failed hfail, hwidth, fun h => absurd hfail.2.1 h, hmem⟩

/-- The command completes with its bytes written. -/
theorem State.rawStoreFrame_memWrite {s t : State} {a n : Nat} {bs : List Byte} (h : s.memWrite a bs = some t)
    (hn : bs.length = n) : s.RawStoreFrame t.complete (a, n) := by
  have hmem : s.SameMemoryOutside t (a, n) := sameMemoryOutside_of_memWrite h hn
  obtain ⟨-, rfl⟩ := State.memWrite_some h
  exact ⟨⟨rfl, rfl, rfl, rfl, rfl, rfl, rfl⟩, ⟨rfl, rfl, rfl⟩, rfl, rfl, .complete rfl, rfl, fun _ => rfl, hmem⟩

theorem effectKfStore_storeFrame (s : State) : s.RawStoreFrame (effectKfStore s) (s.argNat 0, 200) := by
  unfold effectKfStore
  split
  · exact s.rawStoreFrame_busError _ _
  next hw => exact State.rawStoreFrame_memWrite hw (length_stateToBytes _)

/-- The check for PAD_LENGTH leaves room in the block for the message. -/
theorem effectSpPad_storeFrame {s : State} (h : s.argNat 1 < s.raw.rate) :
    s.RawStoreFrame (effectSpPad s) (s.argNat 2, s.raw.rate) := by
  unfold effectSpPad
  split
  · exact s.rawStoreFrame_busError _ _
  next m hm =>
    split
    · exact s.rawStoreFrame_busError _ _
    next hw => exact State.rawStoreFrame_memWrite hw (length_pad (by rwa [State.memRead_length hm]))

theorem effectSpSqueeze_storeFrame (s : State) : s.RawStoreFrame (effectSpSqueeze s) (s.argNat 0, s.raw.dlen) := by
  unfold effectSpSqueeze
  split
  · exact s.rawStoreFrame_busError _ _
  next hw => exact State.rawStoreFrame_memWrite hw (length_squeeze _ _)

theorem effectOf_rawStoreFrame {i : Instr} (hi : i ∈ [Instr.kfStore, .spPad, .spSqueeze]) {s : State}
    (hc : checksOf i s = .pass) : s.RawStoreFrame (effectOf i s) (outputRegion i s) := by
  simp only [List.mem_cons, List.not_mem_nil, or_false] at hi
  rcases hi with rfl | rfl | rfl
  · exact effectKfStore_storeFrame s
  · obtain ⟨-, -, hlen, -⟩ := checksSpPad_eq_pass.1 hc
    exact effectSpPad_storeFrame hlen
  · exact effectSpSqueeze_storeFrame s

theorem exec_rawStoreFrame {i : Instr} (hi : i ∈ [Instr.kfStore, .spPad, .spSqueeze]) {s t : State}
    (h : exec i s = .next t) : s.RawStoreFrame t (outputRegion i s) := by
  rw [exec_next h]
  cases hc : checksOf i s with
  | pass => exact effectOf_rawStoreFrame hi hc
  | err c => exact s.rawStoreFrame_raise c _
  | refuse m => exact s.rawStoreFrame_refuse m _

/-- Settles O55: the frame of each of the three is `State.RawStoreFrame` on its output region. -/
theorem rawStoreCommandsFrame : Obligations.RawStoreCommandsFrame := by
  intro i s t hi h
  have f := exec_rawStoreFrame hi h
  refine ⟨f.host, f.engines, f.result, f.env, f.sticky, f.width, f.raw, ?_, ?_, ?_⟩ <;>
    (rintro rfl; exact f.memory)

/-! ### The BAT engine -/

/-- While a BAT command works, nothing has changed outside the BAT engine, RESULT, the draws and the bytes of its region. -/
structure State.BatWorking (s u : State) (region : Nat × Nat) : Prop where
  outside : s.SameOutsideBat u
  faultSeen : u.faultSeen = s.faultSeen
  memory : s.SameMemoryOutside u region

theorem State.BatWorking.refl (s : State) (region : Nat × Nat) : s.BatWorking s region :=
  ⟨⟨⟨rfl, rfl, rfl, rfl, rfl, rfl, rfl⟩, rfl, rfl, rfl, rfl⟩, rfl, fun _ _ => rfl⟩

theorem OnlyBat.batWorking {s u : State} {a n : Nat} (h : OnlyBat s u a n) : s.BatWorking u (a, n) := by
  obtain ⟨v, ls, ho, rfl⟩ := h
  have hmem := ho.outside
  obtain ⟨m, e, f, rfl⟩ := ho.shape
  exact ⟨⟨⟨rfl, rfl, rfl, rfl, rfl, rfl, rfl⟩, rfl, rfl, rfl, rfl⟩, rfl, fun b hb => hmem b (by dsimp only at hb; omega)⟩

theorem State.BatWorking.setBat {s u : State} {region : Nat × Nat} (h : s.BatWorking u region) (b : BatEngine) :
    s.BatWorking { u with bat := b } region := ⟨h.outside, h.faultSeen, h.memory⟩

theorem State.BatWorking.freeRegion {s u : State} {a n : Nat} (h : s.BatWorking u (a, n)) :
    s.BatWorking (u.freeRegion a n) (a, n) :=
  ⟨h.outside, h.faultSeen, fun b hb => (u.freeRegion_outside (by dsimp only at hb; omega)).trans (h.memory b hb)⟩

/-- What a BAT command leaves alone, however it ends: all but the BAT engine, RESULT, STATUS, the mark, the draws and the bytes of its region. -/
structure State.BatFrame (s t : State) (region : Nat × Nat) : Prop where
  host : s.SameHostSide t
  raw : t.raw = s.raw
  seq : t.seq = s.seq
  acc : t.acc = s.acc
  sticky : s.StickyFault t
  memory : s.SameMemoryOutside t region

theorem State.BatWorking.complete {s u : State} {region : Nat × Nat} (h : s.BatWorking u region) : s.BatFrame u.complete region := by
  obtain ⟨hhost, hraw, hseq, hacc, -⟩ := h.outside
  exact ⟨hhost, hraw, hseq, hacc, .complete h.faultSeen, h.memory⟩

theorem State.BatWorking.raise {s u : State} {region : Nat × Nat} (h : s.BatWorking u region) (c : ErrCode) :
    s.BatFrame (u.raise c) region := by
  obtain ⟨hhost, hraw, hseq, hacc, -⟩ := h.outside
  exact ⟨hhost, hraw, hseq, hacc, .of_failed ⟨rfl, rfl, rfl⟩, h.memory⟩

theorem State.BatWorking.refuse {s u : State} {region : Nat × Nat} (h : s.BatWorking u region) (m : Mark) :
    s.BatFrame (u.refuse m) region := by
  obtain ⟨hhost, hraw, hseq, hacc, -⟩ := h.outside
  exact ⟨hhost, hraw, hseq, hacc, ⟨h.faultSeen.trans, fun _ => h.faultSeen⟩, h.memory⟩

theorem State.BatWorking.batFails {s u : State} {a n : Nat} (h : s.BatWorking u (a, n)) (c : ErrCode) :
    s.BatFrame (u.batFails a n c) (a, n) := (h.freeRegion.setBat _).raise c

/-- BAT_CONSTRUCT writes no host memory, so its frame holds for any region. -/
theorem effectBatConstruct_batFrame (s : State) (region : Nat × Nat) : s.BatFrame (effectBatConstruct s) region := by
  have hdraw : s.BatWorking (s.draw .batAlloc).2 region := (OnlyBat.ofOutput (OnlyOutput.draw s _ _ _)).batWorking
  unfold effectBatConstruct
  split
  next hd => rw [hd] at hdraw; exact hdraw.raise _
  next hd => rw [hd] at hdraw; exact (hdraw.setBat _).complete

/-! ### BAT_CALCULATE -/

/-- Each message has its index below the number of descriptors (R88). -/
theorem readJobs_idx_lt {s : State} {jobs : List Job} (h : readJobs s = some jobs) : ∀ job ∈ jobs, job.idx < s.argNat 1 := by
  unfold readJobs at h
  split at h
  · cases h
    simp [jobsOf, tableEntries]
  · cases h

/-- A schedule in a state of the invariant stores into the output region only (R89). -/
theorem batSchedule_output {s : State} (hs : s.Inv) {jobs : List Job} (hj : readJobs s = some jobs) :
    OnlyBat s (endState id (batSchedule (s.argNat 4) (widthBits s.bat.width) jobs s)) (s.argNat 4)
      (s.argNat 1 * s.bat.dlen) := by
  obtain ⟨-, -, -, ⟨-, -, hidle⟩, -, -⟩ := hs
  exact batSchedule_only (fun l hl ha => by simp [hidle l hl] at ha) (readJobs_idx_lt hj)

/-- How BAT_CALCULATE can end in a state of the invariant: by a check on its messages, or with its work in the output region, completed or failed. -/
theorem effectBatCalculate_cases {s : State} (hs : s.Inv) :
    (∃ c, effectBatCalculate s = s.raise c) ∨ (∃ m, effectBatCalculate s = s.refuse m) ∨
      ∃ u, OnlyBat s u (s.argNat 4) (s.argNat 1 * s.bat.dlen) ∧
        (effectBatCalculate s = u.complete ∨
          ∃ c, effectBatCalculate s = u.batFails (s.argNat 4) (s.argNat 1 * s.bat.dlen) c) := by
  obtain ⟨-, hrace⟩ := State.inv_iff.1 hs
  have start : OnlyBat s s (s.argNat 4) (s.argNat 1 * s.bat.dlen) := .ofOutput (.refl _ _ _)
  rw [effectBatCalculate_quiet hrace]
  split
  next t ht =>
    refine .inr (.inr ⟨t, ?_, .inl rfl⟩)
    rcases batRun_ok ht with ⟨-, rfl⟩ | ⟨jobs, -, hj, -, hrun⟩
    · exact start
    · simpa [hrun, endState] using batSchedule_output hs hj
  next t ht =>
    obtain ⟨-, ⟨-, rfl⟩ | ⟨jobs, hj, ⟨c, -, rfl⟩ | ⟨m, -, rfl⟩ | ⟨c, u, -, hrun, rfl⟩⟩⟩ := batRun_error ht
    · exact .inr (.inr ⟨s, start, .inr ⟨_, rfl⟩⟩)
    · exact .inl ⟨c, rfl⟩
    · exact .inr (.inl ⟨m, rfl⟩)
    · exact .inr (.inr ⟨u, by simpa [hrun, endState] using batSchedule_output hs hj, .inr ⟨c, rfl⟩⟩)

theorem effectBatCalculate_batFrame {s : State} (hs : s.Inv) :
    s.BatFrame (effectBatCalculate s) (s.argNat 4, s.argNat 1 * s.bat.dlen) := by
  rcases effectBatCalculate_cases hs with ⟨c, e⟩ | ⟨m, e⟩ | ⟨u, hu, e | ⟨c, e⟩⟩ <;> rw [e]
  · exact (State.BatWorking.refl s _).raise c
  · exact (State.BatWorking.refl s _).refuse m
  · exact hu.batWorking.complete
  · exact hu.batWorking.batFails c

/-- However a call ends, the engine keeps its width (R31, R245). -/
theorem effectBatCalculate_width {s : State} (hs : s.Inv) : (effectBatCalculate s).bat.width = s.bat.width := by
  rcases effectBatCalculate_cases hs with ⟨c, e⟩ | ⟨m, e⟩ | ⟨u, hu, e | ⟨c, e⟩⟩ <;> rw [e]
  · rfl
  · rfl
  · exact hu.bat.2
  · exact hu.bat.2

/-! ### Every BAT command -/

theorem effectOf_batFrame {i : Instr} (hi : i ∈ [Instr.batConstruct, .batCalculate, .batSize, .batDestroy]) {s : State}
    (hs : s.Inv) : s.BatFrame (effectOf i s) (outputRegion i s) := by
  have start := State.BatWorking.refl s (0, 0)
  simp only [List.mem_cons, List.not_mem_nil, or_false] at hi
  rcases hi with rfl | rfl | rfl | rfl
  · exact effectBatConstruct_batFrame s _
  · exact effectBatCalculate_batFrame hs
  · have hresult : s.BatWorking { s with result := BitVec.ofNat 64 s.platform.laneCapacity } (0, 0) :=
      ⟨start.outside, rfl, start.memory⟩
    exact hresult.complete
  · exact (start.setBat _).complete

theorem exec_batFrame {i : Instr} (hi : i ∈ [Instr.batConstruct, .batCalculate, .batSize, .batDestroy]) {s t : State}
    (hs : s.Inv) (h : exec i s = .next t) : s.BatFrame t (outputRegion i s) := by
  rw [exec_next h]
  cases checksOf i s with
  | pass => exact effectOf_batFrame hi hs
  | err c => exact (State.BatWorking.refl s _).raise c
  | refuse m => exact (State.BatWorking.refl s _).refuse m

theorem exec_batWidth {i : Instr} (hi : i = .batCalculate ∨ i = .batSize) {s t : State} (hs : s.Inv)
    (h : exec i s = .next t) : t.bat.width = s.bat.width := by
  rw [exec_next h]
  cases checksOf i s with
  | pass =>
    rcases hi with rfl | rfl
    · exact effectBatCalculate_width hs
    · rfl
  | err c => rfl
  | refuse m => rfl

theorem exec_keeps_result {i : Instr} {s t : State} (h : exec i s = .next t) (hi : i ≠ .batSize) : t.result = s.result := by
  obtain ⟨-, -, -, only⟩ := resultOnlyByBatSize
  by_contra hne
  exact hi (only i s t h hne).1

/-- Settles O57: the frame of each of the four is `State.BatFrame` on its output region, which only BAT_CALCULATE has. -/
theorem batCommandsFrame : Obligations.BatCommandsFrame := by
  intro i s t hs hi h
  have f := exec_batFrame hi hs h
  refine ⟨f.host, f.raw, f.seq, f.acc, f.sticky, exec_keeps_result h, fun hc hd => ?_, fun hne a => ?_, ?_⟩
  · exact exec_batWidth (by simpa [hc, hd] using hi) hs h
  · have hregion : outputRegion i s = (0, 0) := by
      simp only [List.mem_cons, hne, List.not_mem_nil, false_or, or_false] at hi
      rcases hi with rfl | rfl | rfl <;> rfl
    exact f.memory a (by simp [hregion])
  · rintro rfl
    exact f.memory

end Sys2Proof.Machine
end

section
/-! SUPPORT. The checks of BAT_CALCULATE (R232, R234, R275): the descriptors its tables hold (R88), and which check ends it. -/

namespace Sys2Proof

/-! ### Descriptors -/

theorem le64_lt (b : List Byte) : le64 b < 256 ^ b.length := by
  induction b with
  | nil => decide
  | cons x b ih =>
    have hx := x.isLt
    have hcons : le64 (x :: b) = x.toNat + 256 * le64 b := rfl
    rw [hcons, List.length_cons, pow_succ]
    omega

/-- The word of a byte sequence is its little-endian value, as far as 64 bits hold it (R11). -/
theorem toNat_leWord (b : List Byte) : (leWord b).toNat = le64 b % 2 ^ 64 := by
  induction b with
  | nil => rfl
  | cons x b ih =>
    have hx := x.isLt
    have hcons : le64 (x :: b) = x.toNat + 256 * le64 b := rfl
    have hdisj : BitVec.setWidth 64 x &&& leWord b <<< 8 = 0 := by
      ext k hk
      by_cases h8 : k < 8
      · simp [h8]
      · simp [h8, BitVec.getLsbD_of_ge x k (by omega)]
    rw [leWord, ← BitVec.add_eq_or_of_and_eq_zero _ _ hdisj, hcons]
    simp only [BitVec.toNat_add, BitVec.toNat_setWidth, BitVec.toNat_shiftLeft, ih, Nat.shiftLeft_eq]
    omega

theorem toNat_leWord_of_length {b : List Byte} (h : b.length = 8) : (leWord b).toNat = le64 b := by
  have hlt := le64_lt b
  rw [h] at hlt
  rw [toNat_leWord, Nat.mod_eq_of_lt (by omega)]

namespace Machine

/-- A part of a region, read by itself. -/
theorem Memory.take_drop_readBytes (m : Memory) {a n k l : Nat} (h : k + l ≤ n) :
    ((m.readBytes a n).drop k).take l = m.readBytes (a + k) l := by
  apply List.ext_getElem
  · simp; omega
  · intro j hj _
    simp [Memory.readBytes, Nat.add_assoc]

theorem tableEntries_getD (bs : List Byte) {n i : Nat} (h : i < n) :
    (tableEntries bs n).getD i 0 = (leWord ((bs.drop (8 * i)).take 8)).toNat := by
  simp [tableEntries, h]

/-- Entry i of a table in memory is the value of its eight bytes (R88). -/
theorem tableEntries_readBytes (m : Memory) (a : Nat) {n i : Nat} (h : i < n) :
    (tableEntries (m.readBytes a (8 * n)) n).getD i 0 = le64 (m.readBytes (a + 8 * i) 8) := by
  rw [tableEntries_getD _ h, Memory.take_drop_readBytes m (by omega), toNat_leWord_of_length (Memory.length_readBytes _ _ _)]

@[simp] theorem length_tableEntries (bs : List Byte) (n : Nat) : (tableEntries bs n).length = n := by simp [tableEntries]

@[simp] theorem length_jobsOf (ptrs lens : List Nat) : (jobsOf ptrs lens).length = ptrs.length := by simp [jobsOf]

theorem jobsOf_getElem? (ptrs lens : List Nat) {i : Nat} (h : i < ptrs.length) :
    (jobsOf ptrs lens)[i]? = some { idx := i, ptr := ptrs.getD i 0, len := lens.getD i 0 } := by
  simp [jobsOf, h]

/-- The messages that the tables in memory describe. -/
def memoryJobs (s : State) : List Job :=
  jobsOf (tableEntries (s.mem.readBytes (s.argNat 0) (8 * s.argNat 1)) (s.argNat 1))
    (tableEntries (s.mem.readBytes (s.argNat 2) (8 * s.argNat 1)) (s.argNat 1))

@[simp] theorem length_memoryJobs (s : State) : (memoryJobs s).length = s.argNat 1 := by simp [memoryJobs]

/-- They are the descriptors of R88. -/
theorem memoryJobs_descriptors (s : State) : DescriptorsOf s (memoryJobs s) := by
  refine ⟨length_memoryJobs s, fun i hi => ?_⟩
  rw [memoryJobs, jobsOf_getElem? _ _ (by simpa using hi), tableEntries_readBytes _ _ hi, tableEntries_readBytes _ _ hi]

/-- Without a race a call reads these descriptors where both tables are admitted. -/
theorem readJobs_eq_memoryJobs {s : State} (hrace : s.race = [])
    (hptrs : s.platform.admitsAll (s.argNat 0) (8 * s.argNat 1) = true)
    (hlens : s.platform.admitsAll (s.argNat 2) (8 * s.argNat 1) = true) : readJobs s = some (memoryJobs s) := by
  rw [readJobs_quiet hrace, if_pos ⟨hptrs, hlens⟩, memoryJobs]

/-! ### The checks on the messages -/

theorem rangeOk_eq_false {a n : Nat} : rangeOk a n = false ↔ 0 < n ∧ 2 ^ 64 < a + n := by
  simp [rangeOk, Nat.pos_iff_ne_zero]

theorem checksMessages_range {s : State} {jobs : List Job} (h : ∃ job ∈ jobs, 0 < job.len ∧ 2 ^ 64 < job.ptr + job.len) :
    checksMessages s jobs = .err .range := by
  have hbad : (jobs.any fun job => !rangeOk job.ptr job.len) = true := by
    simpa [rangeOk_eq_false] using h
  simp [checksMessages, hbad]

theorem checksMessages_overlap {s : State} {jobs : List Job} (hrange : ∀ job ∈ jobs, 0 < job.len → job.ptr + job.len ≤ 2 ^ 64)
    (h : (∃ job ∈ jobs, overlaps (s.argNat 4) (s.argNat 1 * s.bat.dlen) job.ptr job.len = true) ∨
      overlaps (s.argNat 4) (s.argNat 1 * s.bat.dlen) (s.argNat 0) (8 * s.argNat 1) = true ∨
      overlaps (s.argNat 4) (s.argNat 1 * s.bat.dlen) (s.argNat 2) (8 * s.argNat 1) = true) :
    checksMessages s jobs = .refuse .operandOverlap := by
  have hgood : (jobs.any fun job => !rangeOk job.ptr job.len) = false := by
    simpa [rangeOk_eq_false] using hrange
  have hover : (overlaps (s.argNat 4) (s.argNat 1 * s.bat.dlen) (s.argNat 0) (8 * s.argNat 1) ||
      overlaps (s.argNat 4) (s.argNat 1 * s.bat.dlen) (s.argNat 2) (8 * s.argNat 1) ||
      jobs.any fun job => overlaps (s.argNat 4) (s.argNat 1 * s.bat.dlen) job.ptr job.len) = true := by
    simp only [Bool.or_eq_true, List.any_eq_true]
    exact or_comm.1 h
  simp [checksMessages, hgood, hover]

/-! ### The checks before the table read, in order -/

theorem checksBatCalculate_eq_pass {s : State} :
    checksBatCalculate s = .pass ↔ s.lacksArgs .batCalculate = false ∧ s.bat.st ≠ .unconstructed ∧ s.bat.st ≠ .failed ∧
      s.arg 1 = s.arg 3 ∧ (rangeOk (s.argNat 0) (8 * s.argNat 1) = true ∧ rangeOk (s.argNat 2) (8 * s.argNat 1) = true) ∧
      rangeOk (s.argNat 4) (s.argNat 1 * s.bat.dlen) = true := by
  simp [checksBatCalculate, Verdict.first_eq_pass]

section
variable {s : State} (hargs : s.lacksArgs .batCalculate = false)
include hargs

theorem checksBatCalculate_unconstructed (hst : s.bat.st = .unconstructed) : checksBatCalculate s = .err .notConstructed := by
  rw [checksBatCalculate, argCheck_eq_pass.2 hargs, hst]
  rfl

theorem checksBatCalculate_failed (hst : s.bat.st = .failed) : checksBatCalculate s = .err .engineFailed := by
  rw [checksBatCalculate, argCheck_eq_pass.2 hargs, hst]
  rfl

/-- In READY the operands decide. -/
theorem checksBatCalculate_ready (hst : s.bat.st = .ready) : checksBatCalculate s =
    .first [.when (s.arg 1 != s.arg 3) (.err .listMismatch),
      .when (!(rangeOk (s.argNat 0) (8 * s.argNat 1) && rangeOk (s.argNat 2) (8 * s.argNat 1)
        && rangeOk (s.argNat 4) (s.argNat 1 * s.bat.dlen))) (.err .range)] := by
  rw [checksBatCalculate, argCheck_eq_pass.2 hargs, hst]
  rfl

theorem checksBatCalculate_listMismatch (hst : s.bat.st = .ready) (hne : s.arg 1 ≠ s.arg 3) :
    checksBatCalculate s = .err .listMismatch := by
  rw [checksBatCalculate_ready hargs hst, bne_iff_ne.2 hne]
  rfl

theorem checksBatCalculate_range (hst : s.bat.st = .ready) (heq : s.arg 1 = s.arg 3)
    (hbad : rangeOk (s.argNat 0) (8 * s.argNat 1) = false ∨ rangeOk (s.argNat 2) (8 * s.argNat 1) = false ∨
      rangeOk (s.argNat 4) (s.argNat 1 * s.bat.dlen) = false) : checksBatCalculate s = .err .range := by
  have hrange : (rangeOk (s.argNat 0) (8 * s.argNat 1) && rangeOk (s.argNat 2) (8 * s.argNat 1)
      && rangeOk (s.argNat 4) (s.argNat 1 * s.bat.dlen)) = false := by
    rcases hbad with h | h | h <;> simp [h]
  rw [checksBatCalculate_ready hargs hst, hrange]
  simp [heq]

end

/-! ### The call -/

theorem exec_of_err {i : Instr} {s : State} {c : ErrCode} (h : checksOf i s = .err c) : exec i s = .next (s.raise c) := by
  rw [exec_eq, h, State.conclude_err]

/-- With no descriptors no check on the messages fails (R241). -/
theorem argNat_pos_of_checksMessages {s : State} {jobs : List Job} (hlen : jobs.length = s.argNat 1)
    (hbad : checksMessages s jobs ≠ .pass) : s.argNat 1 ≠ 0 := by
  intro hn
  rw [hn, List.length_eq_zero_iff] at hlen
  subst hlen
  exact hbad (by simp [checksMessages, overlaps, hn])

/-- A call whose tables are read and whose check on the messages fails ends as that check says. -/
theorem batRun_of_checksMessages {s : State} (hjobs : readJobs s = some (memoryJobs s))
    (hbad : checksMessages s (memoryJobs s) ≠ .pass) :
    batRun s = .error (s.conclude (checksMessages s (memoryJobs s)) s) := by
  have hn := argNat_pos_of_checksMessages (length_memoryJobs s) hbad
  unfold batRun
  simp only [hn, if_false, hjobs]
  cases hc : checksMessages s (memoryJobs s) with
  | pass => exact absurd hc hbad
  | err c => rfl
  | refuse m => rfl

theorem exec_batCalculate_of_checksMessages {s : State} (hrace : s.race = []) (hc : checksBatCalculate s = .pass)
    (hjobs : readJobs s = some (memoryJobs s)) (hbad : checksMessages s (memoryJobs s) ≠ .pass) :
    exec .batCalculate s = .next (s.conclude (checksMessages s (memoryJobs s)) s) := by
  have he : effectBatCalculate s = s.conclude (checksMessages s (memoryJobs s)) s := by
    rw [effectBatCalculate_quiet hrace, batRun_of_checksMessages hjobs hbad]
  rw [← he]
  exact exec_of_pass (i := .batCalculate) hc

/-- Settles O46: the first failing check is the one reported (R275); the checks on the messages are made on the descriptors of R88 (`memoryJobs_descriptors`). -/
theorem batCalculateChecksInOrder : Obligations.BatCalculateChecksInOrder := by
  rintro s ⟨hargs, hrace⟩
  refine ⟨fun hst => exec_of_err (checksBatCalculate_unconstructed hargs hst),
    fun hst => exec_of_err (checksBatCalculate_failed hargs hst),
    fun hst hne => exec_of_err (checksBatCalculate_listMismatch hargs hst hne),
    fun hst heq hbad => exec_of_err (checksBatCalculate_range hargs hst heq hbad), ?_⟩
  rintro hst heq ⟨hptrs, hptrsAdm⟩ ⟨hlens, hlensAdm⟩ hout
  have hc : checksBatCalculate s = .pass :=
    checksBatCalculate_eq_pass.2 ⟨hargs, by simp [hst], by simp [hst], heq, ⟨hptrs, hlens⟩, hout⟩
  have hends {v : Verdict} (hv : checksMessages s (memoryJobs s) = v) (hbad : v ≠ .pass) :
      exec .batCalculate s = .next (s.conclude v s) := by
    subst hv
    exact exec_batCalculate_of_checksMessages hrace hc (readJobs_eq_memoryJobs hrace hptrsAdm hlensAdm) hbad
  exact ⟨memoryJobs_descriptors s, fun hbad => hends (checksMessages_range hbad) nofun,
    fun hgood hover => hends (checksMessages_overlap hgood hover) nofun⟩

end Machine
end Sys2Proof
end

section
/-! SUPPORT. The five steps of the permutation and KF (R101-R106): each step lane by lane, and the statements about them. -/

namespace Sys2Proof.Machine

/-! ### Lanes by coordinates -/

@[simp] theorem lane_mod_left (A : Lanes) (x y : Nat) : lane A (x % 5) y = lane A x y := by simp [lane]

/-- A state given by coordinates holds at `(x, y)` the value for `(x, y)` (R11). -/
theorem lane_tabulate_coords (g : Nat → Nat → Word) {x y : Nat} (hx : x < 5) (hy : y < 5) :
    lane (tabulate fun k => g (k % 5) (k / 5)) x y = g x y := by
  have hmod : (x + 5 * y) % 5 = x := by omega
  have hdiv : (x + 5 * y) / 5 = y := by omega
  rw [lane_tabulate _ hx hy, hmod, hdiv]

theorem getD_columns (f : Nat → Word) {x : Nat} (hx : x < 5) : (columns f).getD x 0 = f x := by
  unfold columns
  interval_cases x <;> rfl

/-! ### θ -/

theorem getD_thetaC (A : Lanes) {x : Nat} (hx : x < 5) :
    (thetaC A).getD x 0 = lane A x 0 ^^^ lane A x 1 ^^^ lane A x 2 ^^^ lane A x 3 ^^^ lane A x 4 := getD_columns _ hx

theorem getD_thetaD (A : Lanes) {x : Nat} (hx : x < 5) :
    (thetaD A).getD x 0 = (thetaC A).getD ((x + 4) % 5) 0 ^^^ rotl64 ((thetaC A).getD ((x + 1) % 5) 0) 1 := getD_columns _ hx

theorem lane_theta (A : Lanes) {x y : Nat} (hx : x < 5) (hy : y < 5) :
    lane (theta A) x y = lane A x y ^^^ (thetaD A).getD x 0 :=
  lane_tabulate_coords (fun x y => lane A x y ^^^ (thetaD A).getD x 0) hx hy

/-- Settles O14: θ XORs `Dx[x]` into the lanes of column x, and both tables of R102 hold at x the value for x. -/
theorem thetaByLane : Obligations.ThetaByLane := by
  intro A x y hx hy
  rw [lane_theta A hx hy, getD_thetaD A hx, getD_thetaC A (Nat.mod_lt _ (by decide)), getD_thetaC A (Nat.mod_lt _ (by decide))]

/-! ### ρ -/

/-- R10's rotation is the library's. -/
theorem rotl64_eq_rotateLeft (v : Word) {n : Nat} (hn : n < 64) : rotl64 v n = v.rotateLeft n := by
  rw [rotl64, BitVec.rotateLeft_def, Nat.mod_eq_of_lt hn]
  split
  next h => simp [h, BitVec.ushiftRight_eq_zero]
  · rfl

theorem RHO_lt : ∀ n ∈ RHO, n < 64 := by decide

theorem getD_RHO_lt {k : Nat} (hk : k < 25) : RHO.getD k 0 < 64 := by
  rw [List.getD_eq_getElem _ _ hk]
  exact RHO_lt _ (List.getElem_mem _)

theorem laneK_rho (A : Lanes) {k : Nat} (hk : k < 25) : laneK (rho A) k = rotl64 (laneK A k) (RHO.getD k 0) :=
  laneK_tabulate _ hk

/-- Settles O15: the statement's offsets are `RHO`'s, each below 64. -/
theorem rhoByLane : Obligations.RhoByLane :=
  ⟨fun A _ hk => (laneK_rho A hk).trans (rotl64_eq_rotateLeft _ (getD_RHO_lt hk)), fun v _ hn => rotl64_eq_rotateLeft v hn⟩

/-! ### π -/

theorem lane_piStep (A : Lanes) {x y : Nat} (hx : x < 5) (hy : y < 5) : lane (piStep A) x y = lane A (x + 3 * y) x :=
  lane_tabulate_coords (fun x y => lane A (x + 3 * y) x) hx hy

/-- Settles O16: the second form is the model's; the first follows from it, for y + 3(2x + 3y) = x modulo 5. -/
theorem piInBothForms : Obligations.PiInBothForms := by
  intro A x y hx hy
  have source : (y + 3 * ((2 * x + 3 * y) % 5)) % 5 = x := by omega
  refine ⟨?_, ?_⟩
  · rw [lane_piStep A hy (Nat.mod_lt _ (by decide)), ← lane_mod_left, source]
  · rw [lane_piStep A hx hy, lane_mod_left]

/-! ### χ -/

theorem lane_chi (A : Lanes) {x y : Nat} (hx : x < 5) (hy : y < 5) :
    lane (chi A) x y = lane A x y ^^^ (~~~lane A (x + 1) y &&& lane A (x + 2) y) :=
  lane_tabulate_coords (fun x y => lane A x y ^^^ (~~~lane A (x + 1) y &&& lane A (x + 2) y)) hx hy

/-- Settles O17: a row's index counts modulo 5 (`lane_mod_left`). -/
theorem chiByLane : Obligations.ChiByLane := by
  intro A x y hx hy
  rw [lane_chi A hx hy, lane_mod_left, lane_mod_left]

/-! ### ι -/

/-- The round constants are the two columns of R106's table, one after the other. -/
theorem getD_RC : ∀ i < 24, RC.getD i 0 =
    if i < 12 then (roundConstants.getD i (0, 0)).1 else (roundConstants.getD (i - 12) (0, 0)).2 := by decide

theorem lane_iota (A : Lanes) (i : Nat) {x y : Nat} (hx : x < 5) (hy : y < 5) :
    lane (iota A i) x y = if x = 0 ∧ y = 0 then lane A 0 0 ^^^ RC.getD i 0 else lane A x y := by
  have horigin : x + 5 * y = 0 ↔ x = 0 ∧ y = 0 := by omega
  have hlane : laneK A (x + 5 * y) = lane A x y := by rw [lane, Nat.mod_eq_of_lt hx, Nat.mod_eq_of_lt hy]
  rw [iota, lane_tabulate _ hx hy, hlane]
  exact if_congr horigin rfl rfl

/-- Settles O18: the statement's own table of R106 gives the model's constants (`getD_RC`). -/
theorem iotaByLane : Obligations.IotaByLane := by
  intro A i x y hi hx hy
  rw [lane_iota A i hx hy, getD_RC i hi]

/-! ### KF -/

/-- A fold over the numbers below n is the iteration that numbers its steps from 0. -/
theorem foldl_range_eq_rec (f : Lanes → Nat → Lanes) (A : Lanes) (n : Nat) :
    (List.range n).foldl f A = Nat.rec A (fun i B => f B i) n := by
  induction n with
  | zero => rfl
  | succ n ih => rw [List.range_succ, List.foldl_append, ih]; rfl

/-- Settles O19: `keccakRound` is the five steps in R101's order, and the fold runs the rounds 0 to 23. -/
theorem keccakIsTwentyFourRounds : Obligations.KeccakIsTwentyFourRounds := fun A => foldl_range_eq_rec keccakRound A 24

end Sys2Proof.Machine
end

section
/-! SUPPORT. The RAW-unit commands of R120-R122: how an access to an accessible region ends, and the statements about KF_PERMUTE, KF_LOAD and KF_STORE and
about the frame of the commands that store nothing. -/

namespace Sys2Proof.Machine

/-! ### Accessible regions -/

/-- A region in the address space ends within it (R68). -/
theorem rangeOk_le {a n : Nat} (h : rangeOk a n = true) (hn : 0 < n) : a + n ≤ 2 ^ 64 := by
  simpa [rangeOk, hn.ne'] using h

/-- With no race a read of admitted bytes returns them. -/
theorem State.memRead_admitted {s : State} (hrace : s.race = []) (reader : Nat) {a n : Nat} (h : s.platform.admitsAll a n = true) :
    s.memRead reader a n = some (s.mem.readBytes a n) := by
  rw [State.memRead_quiet hrace, if_pos h]

/-- A write to admitted bytes is made. -/
theorem State.memWrite_admitted {s : State} {a : Nat} {bs : List Byte} (h : s.platform.admitsAll a bs.length = true) :
    s.memWrite a bs = some { s with mem := Memory.writeBytes s.mem a bs } := by
  rw [State.memWrite, if_pos h]

/-! ### A command that completes with the RAW unit written -/

/-- It changes the RAW unit, ERR and ERRCODE only. -/
theorem State.setRaw_complete (s : State) (u : RawUnit) :
    s.Succeeded (State.complete { s with raw := u }) ∧ s.SameOutsideRaw (State.complete { s with raw := u }) ∧
      s.SameMemory (State.complete { s with raw := u }) :=
  ⟨⟨rfl, rfl, rfl⟩, ⟨⟨rfl, rfl, rfl, rfl, rfl, rfl, rfl⟩, ⟨rfl, rfl, rfl⟩, rfl, rfl⟩, fun _ => rfl⟩

/-! ### KF_PERMUTE -/

theorem checksKfPermute_eq_pass {s : State} :
    checksKfPermute s = .pass ↔ s.lacksArgs .kfPermute = false ∧ s.raw.svalid = true := by
  simp [checksKfPermute, Verdict.first_eq_pass]

theorem checksKfPermute_invalid {s : State} (hargs : s.lacksArgs .kfPermute = false) (hsv : s.raw.svalid = false) :
    checksKfPermute s = .err .stateInvalid := by
  simp [checksKfPermute, argCheck_eq_pass.2 hargs, hsv]

/-- Settles O23: the one check is on RAW.SVALID, and the effect writes RAW.S. -/
theorem kfPermuteAppliesKF : Obligations.KfPermuteAppliesKF := by
  rintro s ⟨hargs, -⟩
  refine ⟨fun hsv => ?_, fun hsv => exec_of_err (checksKfPermute_invalid hargs hsv)⟩
  obtain ⟨hok, houtside, hmem⟩ := s.setRaw_complete { lanes := keccakF s.raw.lanes, svalid := s.raw.svalid, width := s.raw.width }
  exact ⟨effectKfPermute s, exec_of_pass (checksKfPermute_eq_pass.2 ⟨hargs, hsv⟩), hok, rfl, hsv, rfl, houtside, hmem⟩

/-! ### KF_LOAD -/

theorem checksKfLoad_range {s : State} (hargs : s.lacksArgs .kfLoad = false) (hrange : rangeOk (s.argNat 0) 200 = false) :
    checksKfLoad s = .err .range := by
  simp [checksKfLoad, argCheck_eq_pass.2 hargs, hrange]

theorem effectKfLoad_admitted {s : State} (hrace : s.race = []) (h : s.platform.admitsAll (s.argNat 0) 200 = true) :
    effectKfLoad s = State.complete { s with
      raw := { lanes := bytesToState (s.mem.readBytes (s.argNat 0) 200), svalid := true, width := s.raw.width } } := by
  rw [effectKfLoad, State.memRead_admitted hrace 0 h]

/-- Settles O24: the read of an accessible region returns its bytes; where one is not admitted the command ends as `rawUnitBusError` says. -/
theorem kfLoadReplacesState : Obligations.KfLoadReplacesState := by
  rintro s ⟨hargs, hrace⟩
  refine ⟨?_, fun hpast => ?_, fun hrange hadm => ?_⟩
  · rintro ⟨hrange, hadm⟩
    obtain ⟨hok, houtside, hmem⟩ := s.setRaw_complete
      { lanes := bytesToState (s.mem.readBytes (s.argNat 0) 200), svalid := true, width := s.raw.width }
    refine ⟨_, ?_, hok, rfl, rfl, rfl, houtside, hmem⟩
    rw [← effectKfLoad_admitted hrace hadm]
    exact exec_of_pass (i := .kfLoad) (checksKfLoad_eq_pass.2 ⟨hargs, hrange⟩)
  · exact exec_of_err (checksKfLoad_range hargs (rangeOk_eq_false.2 ⟨by decide, hpast⟩))
  · obtain ⟨hload, -⟩ := rawUnitBusError.1 s
    obtain ⟨t, ht, hfail, hsv, hwidth, -, -⟩ := hload ⟨hargs, hrace⟩ ⟨hrange, hadm⟩
    exact ⟨t, ht, hfail, hsv, hwidth⟩

/-! ### KF_STORE -/

theorem effectKfStore_admitted {s : State} (h : s.platform.admitsAll (s.argNat 0) 200 = true) :
    effectKfStore s = State.complete { s with mem := Memory.writeBytes s.mem (s.argNat 0) (stateToBytes s.raw.lanes) } := by
  rw [effectKfStore, State.memWrite_admitted (by rwa [length_stateToBytes])]

/-- The serialized state, written at an address with room for it, reads back. -/
theorem readBytes_writeBytes_stateToBytes {m : Memory} (hm : Memory.wf m) {a : Nat} (ha : a + 200 ≤ 2 ^ 64) (S : Lanes) :
    (m.writeBytes a (stateToBytes S)).readBytes a 200 = stateToBytes S := by
  have h := Memory.readBytes_writeBytes m a (stateToBytes S) hm (by rwa [length_stateToBytes])
  rwa [length_stateToBytes] at h

/-- Settles O25: the write of an accessible region is made, and what was written reads back. -/
theorem kfStoreWritesState : Obligations.KfStoreWritesState := by
  rintro s ⟨hargs, -⟩ hmem hsv ⟨hrange, hadm⟩
  refine ⟨effectKfStore s, exec_of_pass (checksKfStore_eq_pass.2 ⟨hargs, hsv, hrange⟩), ?_⟩
  have frame := effectKfStore_storeFrame s
  rw [effectKfStore_admitted hadm] at frame ⊢
  exact ⟨⟨rfl, rfl, rfl⟩, readBytes_writeBytes_stateToBytes hmem (rangeOk_le hrange (by decide)) _, frame.memory, rfl,
    frame.host, frame.engines, frame.result, rfl⟩

/-! ### The frame of the commands that store nothing -/

/-- What such a command leaves alone, however it ends: all but the RAW unit, STATUS and the mark; RAW.W but for SP_INIT, RAW.SVALID for KF_PERMUTE. -/
structure State.RawRegisterFrame (i : Instr) (s t : State) : Prop where
  host : s.SameHostSide t
  engines : s.SameEngines t
  result : t.result = s.result
  env : t.env = s.env
  sticky : s.StickyFault t
  memory : s.SameMemory t
  width : i ≠ .spInit → t.raw.width = s.raw.width
  svalid : i = .kfPermute → t.raw.svalid = s.raw.svalid

theorem State.rawRegisterFrame_raise (i : Instr) (s : State) (c : ErrCode) : State.RawRegisterFrame i s (s.raise c) :=
  ⟨⟨rfl, rfl, rfl, rfl, rfl, rfl, rfl⟩, ⟨rfl, rfl, rfl⟩, rfl, rfl, .of_failed ⟨rfl, rfl, rfl⟩, fun _ => rfl, fun _ => rfl,
    fun _ => rfl⟩

theorem State.rawRegisterFrame_refuse (i : Instr) (s : State) (m : Mark) : State.RawRegisterFrame i s (s.refuse m) :=
  ⟨⟨rfl, rfl, rfl, rfl, rfl, rfl, rfl⟩, ⟨rfl, rfl, rfl⟩, rfl, rfl, ⟨id, fun _ => rfl⟩, fun _ => rfl, fun _ => rfl, fun _ => rfl⟩

/-- The command completes with the RAW unit written. -/
theorem State.rawRegisterFrame_setRaw {i : Instr} (s : State) {u : RawUnit} (hw : i ≠ .spInit → u.width = s.raw.width)
    (hv : i = .kfPermute → u.svalid = s.raw.svalid) : State.RawRegisterFrame i s (State.complete { s with raw := u }) := by
  obtain ⟨-, ⟨hhost, hengines, hresult, -⟩, hmem⟩ := s.setRaw_complete u
  exact ⟨hhost, hengines, hresult, rfl, .complete rfl, hmem, hw, hv⟩

/-- The command ends in a bus error; KF_PERMUTE, which reads no memory, cannot. -/
theorem State.rawRegisterFrame_busError {i : Instr} (s : State) (hi : i ≠ .kfPermute) : State.RawRegisterFrame i s s.rawBusError := by
  obtain ⟨hfail, -, hwidth, ⟨hhost, hengines, hresult, -⟩, -⟩ := s.rawBusError_failed (0, 0)
  exact ⟨hhost, hengines, hresult, rfl, .of_failed hfail, fun _ => rfl, fun _ => hwidth, fun h => absurd h hi⟩

theorem effectOf_rawRegisterFrame {i : Instr} (hi : i ∈ [Instr.kfPermute, .kfLoad, .spInit, .spAbsorb]) (s : State) :
    State.RawRegisterFrame i s (effectOf i s) := by
  simp only [List.mem_cons, List.not_mem_nil, or_false] at hi
  rcases hi with rfl | rfl | rfl | rfl
  · exact s.rawRegisterFrame_setRaw (fun _ => rfl) (fun _ => rfl)
  · rw [effectOf, effectKfLoad]
    split
    · exact s.rawRegisterFrame_busError (by decide)
    · exact s.rawRegisterFrame_setRaw (fun _ => rfl) nofun
  · exact s.rawRegisterFrame_setRaw (fun h => absurd rfl h) nofun
  · rw [effectOf, effectSpAbsorb]
    split
    · exact s.rawRegisterFrame_busError (by decide)
    · exact s.rawRegisterFrame_setRaw (fun _ => rfl) nofun

theorem exec_rawRegisterFrame {i : Instr} (hi : i ∈ [Instr.kfPermute, .kfLoad, .spInit, .spAbsorb]) {s t : State}
    (h : exec i s = .next t) : State.RawRegisterFrame i s t := by
  rw [exec_next h]
  cases checksOf i s with
  | pass => exact effectOf_rawRegisterFrame hi s
  | err c => exact s.rawRegisterFrame_raise i c
  | refuse m => exact s.rawRegisterFrame_refuse i m

/-- Settles O54: the frame of each of the four is `State.RawRegisterFrame`. -/
theorem rawRegisterCommandsFrame : Obligations.RawRegisterCommandsFrame := by
  intro i s t hi h
  have f := exec_rawRegisterFrame hi h
  exact ⟨f.host, f.engines, f.result, f.env, f.sticky, f.memory, f.width, f.svalid⟩

end Sys2Proof.Machine
end

section
/-! SUPPORT. The padded block (R143, R144), and the SP commands of R150-R153 that complete: when a width operand is legal, how a command that writes host
memory completes, and what each of the four leaves in the RAW unit and in memory. -/

namespace Sys2Proof

/-! ### The width operand -/

/-- Only the four values of R86 name a width, and each names its own. -/
theorem Width.ofWord_eq_some {v : Word} {w : Width} : Width.ofWord v = some w ↔ v.toNat = w.bits := by
  constructor
  · intro h
    unfold Width.ofWord at h
    split_ifs at h with h224 h256 h384 h512
    · subst h224; cases h; rfl
    · subst h256; cases h; rfl
    · subst h384; cases h; rfl
    · subst h512; cases h; rfl
  · intro h
    have hv : v = BitVec.ofNat 64 w.bits := by rw [← h, BitVec.ofNat_toNat, BitVec.setWidth_eq]
    subst hv
    cases w <;> rfl

theorem Width.ofWord_eq_none {v : Word} : Width.ofWord v = none ↔ ∀ w : Width, v.toNat ≠ w.bits := by
  simp [Option.eq_none_iff_forall_ne_some, Width.ofWord_eq_some]

end Sys2Proof

namespace Sys2Proof.Machine

/-! ### The padded block -/

/-- Zeros behind a byte sequence do not show: a byte past its end counts as 0. -/
theorem getD_append_zeros (m : List Byte) (k j : Nat) : (m ++ List.replicate k 0).getD j 0 = m.getD j 0 := by
  by_cases hj : j < m.length
  · exact List.getD_append _ _ _ _ hj
  · rw [List.getD_append_right _ _ _ _ (by omega), List.getD_eq_default m 0 (by omega), List.getD_eq_getElem?_getD,
      List.getElem?_getD_replicate_default_eq]

/-- XOR of a value into byte `i` of a sequence. -/
theorem getD_modify_xor {b : List Byte} {i : Nat} (hi : i < b.length) (v : Byte) (j : Nat) :
    (b.modify i (· ^^^ v)).getD j 0 = b.getD j 0 ^^^ if j = i then v else 0 := by
  by_cases h : j = i
  · subst h; simp [List.getD_eq_getElem?_getD, hi]
  · simp [List.getD_eq_getElem?_getD, h, Ne.symm h]

/-- R143: 0x06 is XORed in behind the message, 0x80 into the last byte. -/
theorem getD_pad {r : Nat} {m : List Byte} (h : m.length < r) (j : Nat) :
    (pad r m).getD j 0 = m.getD j 0 ^^^ (if j = m.length then 0x06 else 0) ^^^ if j = r - 1 then 0x80 else 0 := by
  rw [pad, getD_modify_xor (by simp; omega), getD_modify_xor (by simp; omega), getD_append_zeros]

/-- Settles O22: at a place where only one of the three parts of `getD_pad` is not zero the byte is that part; 0x06 and 0x80 meet in one byte exactly
when one byte of room remains. -/
theorem paddedBlockBytes : Obligations.PaddedBlockBytes := by
  intro w m hm
  refine ⟨length_pad hm, fun j _ => ?_⟩
  rw [getD_pad hm]
  by_cases hmsg : j < m.length
  · simp [hmsg, hmsg.ne, show j ≠ rate w.bits - 1 by omega]
  · rw [List.getD_eq_default m 0 (by omega), if_neg hmsg]
    by_cases hend : j = m.length
    · by_cases hlast : j = rate w.bits - 1
      · rw [if_pos hend, if_pos hlast, if_pos ⟨hend, hlast⟩]; rfl
      · simp [hend, hend ▸ hlast]
    · simp [hend]

/-! ### SP_INIT -/

theorem checksSpInit_eq_pass {s : State} :
    checksSpInit s = .pass ↔ s.lacksArgs .spInit = false ∧ (Width.ofWord (s.arg 0)).isSome = true := by
  simp [checksSpInit, Verdict.first_eq_pass]

theorem checksSpInit_unsupported {s : State} (hargs : s.lacksArgs .spInit = false) (hw : Width.ofWord (s.arg 0) = none) :
    checksSpInit s = .err .unsupportedWidth := by
  simp [checksSpInit, argCheck_eq_pass.2 hargs, hw]

/-- Settles O26: the one check is that the operand names a width (`Width.ofWord_eq_some`), and the effect writes the RAW unit. -/
theorem spInitSetsWidth : Obligations.SpInitSetsWidth := by
  rintro s ⟨hargs, -⟩
  refine ⟨fun w harg => ?_, fun harg => exec_of_err (checksSpInit_unsupported hargs (Width.ofWord_eq_none.2 harg))⟩
  have hw : Width.ofWord (s.arg 0) = some w := Width.ofWord_eq_some.2 harg
  obtain ⟨hok, houtside, hmem⟩ := s.setRaw_complete { lanes := zeroLanes, svalid := true, width := Width.ofWord (s.arg 0) }
  exact ⟨effectSpInit s, exec_of_pass (checksSpInit_eq_pass.2 ⟨hargs, by simp [hw]⟩), hok, hw, rfl, rfl, houtside, hmem⟩

/-! ### SP_ABSORB -/

theorem effectSpAbsorb_admitted {s : State} (hrace : s.race = []) (h : s.platform.admitsAll (s.argNat 0) s.raw.rate = true) :
    effectSpAbsorb s = State.complete { s with raw := { s.raw with
      lanes := absorbBlock s.raw.rate s.raw.lanes (s.mem.readBytes (s.argNat 0) s.raw.rate) } } := by
  rw [effectSpAbsorb, State.memRead_admitted hrace 0 h]

/-- Settles O27: the read of an accessible block returns its bytes, and the effect writes RAW.S. -/
theorem spAbsorbAbsorbsBlock : Obligations.SpAbsorbAbsorbsBlock := by
  rintro s w ⟨hargs, hrace⟩ hsv hw
  rw [← RawUnit.rate_of_width hw]
  rintro ⟨hrange, hadm⟩
  obtain ⟨hok, houtside, hmem⟩ := s.setRaw_complete
    { s.raw with lanes := absorbBlock s.raw.rate s.raw.lanes (s.mem.readBytes (s.argNat 0) s.raw.rate) }
  refine ⟨effectSpAbsorb s, exec_of_pass (checksSpAbsorb_eq_pass.2 ⟨hargs, hsv, by simp [hw], hrange⟩), ?_⟩
  rw [effectSpAbsorb_admitted hrace hadm]
  exact ⟨hok, rfl, hsv, hw, houtside, hmem⟩

/-! ### A command that completes with host memory written -/

/-- It writes its bytes, which then read back, and changes ERR and ERRCODE besides. -/
theorem State.memWrite_complete {s t : State} (hmem : Memory.wf s.mem) {a n : Nat} {bs : List Byte} (h : s.memWrite a bs = some t)
    (hn : bs.length = n) (ha : a + n ≤ 2 ^ 64) :
    s.Succeeded t.complete ∧ t.complete.mem.readBytes a n = bs ∧ s.SameMemoryOutside t.complete (a, n) ∧
      t.complete.raw = s.raw ∧ s.SameOutsideRaw t.complete := by
  have houtside : s.SameMemoryOutside t (a, n) := sameMemoryOutside_of_memWrite h hn
  obtain ⟨-, rfl⟩ := State.memWrite_some h
  subst hn
  exact ⟨⟨rfl, rfl, rfl⟩, Memory.readBytes_writeBytes _ _ _ hmem ha, houtside, rfl,
    ⟨⟨rfl, rfl, rfl, rfl, rfl, rfl, rfl⟩, ⟨rfl, rfl, rfl⟩, rfl, rfl⟩⟩

/-! ### SP_PAD -/

theorem effectSpPad_of_memWrite {s t : State} (hrace : s.race = []) (hsrc : s.platform.admitsAll (s.argNat 0) (s.argNat 1) = true)
    (h : s.memWrite (s.argNat 2) (pad s.raw.rate (s.mem.readBytes (s.argNat 0) (s.argNat 1))) = some t) :
    effectSpPad s = t.complete := by
  simp only [effectSpPad, State.memRead_admitted hrace 0 hsrc, h]

/-- Settles O28: the read and the write of accessible regions are made; the check for PAD_LENGTH leaves room in the block for the message, so the padded
block fills its region. -/
theorem spPadWritesBlock : Obligations.SpPadWritesBlock := by
  rintro s w ⟨hargs, hrace⟩ hmem hw
  rw [← RawUnit.rate_of_width hw]
  rintro hlen ⟨hsrc, hsrcAdm⟩ ⟨hblk, hblkAdm⟩ hover
  have hpad : (pad s.raw.rate (s.mem.readBytes (s.argNat 0) (s.argNat 1))).length = s.raw.rate :=
    length_pad (by simpa using hlen)
  have hwrite := State.memWrite_admitted (by rwa [hpad])
  refine ⟨effectSpPad s, exec_of_pass (checksSpPad_eq_pass.2 ⟨hargs, by simp [hw], hlen, ⟨hsrc, hblk⟩, hover⟩), ?_⟩
  rw [effectSpPad_of_memWrite hrace hsrcAdm hwrite]
  exact State.memWrite_complete hmem hwrite hpad (rangeOk_le hblk (by omega))

/-! ### SP_SQUEEZE -/

theorem effectSpSqueeze_of_memWrite {s t : State}
    (h : s.memWrite (s.argNat 0) (squeeze s.raw.lanes (widthBits s.raw.width)) = some t) : effectSpSqueeze s = t.complete := by
  rw [effectSpSqueeze, h]

theorem dlen_bits_pos (w : Width) : 0 < dlen w.bits := by
  cases w <;> decide

/-- Settles O29: the write of the accessible region is made, and what it writes is `squeeze` of RAW.S, of dlen bytes (R145). -/
theorem spSqueezeWritesDigest : Obligations.SpSqueezeWritesDigest := by
  rintro s w ⟨hargs, -⟩ hmem hsv hw
  have hpos := dlen_bits_pos w
  rw [← RawUnit.dlen_of_width hw] at hpos ⊢
  rintro ⟨hrange, hadm⟩
  have hdigest : (squeeze s.raw.lanes (widthBits s.raw.width)).length = s.raw.dlen := length_squeeze _ _
  have hwrite := State.memWrite_admitted (by rwa [hdigest])
  refine ⟨effectSpSqueeze s, exec_of_pass (checksSpSqueeze_eq_pass.2 ⟨hargs, hsv, by simp [hw], hrange⟩), ?_⟩
  rw [effectSpSqueeze_of_memWrite hwrite]
  exact State.memWrite_complete hmem hwrite hdigest (rangeOk_le hrange hpos)

end Sys2Proof.Machine
end

section
/-! SUPPORT. The streaming engines (R170-R176, R200), one development for SEQ and ACC: when the checks of a command pass, how its effect can end, said once per
command, and the statements about CONSTRUCT, INIT, ADD, DIGEST and DESTROY, about the state machine, the frame and the digest of a streamed message. -/

namespace Sys2Proof.Machine

/-! ### The commands of an engine -/

/-- The draw point of a streaming command: only those of the ACC engine have one (R276). -/
def EngineSel.draws : EngineSel → DrawPoint → Option DrawPoint
  | .seq, _ => none
  | .acc, p => some p

section
variable (e : EngineSel) (s : State)

@[simp] theorem checksOf_construct : checksOf e.construct s = checksConstruct e e.construct s := by cases e <;> rfl
@[simp] theorem checksOf_init : checksOf e.init s = checksInit e e.init s := by cases e <;> rfl
@[simp] theorem checksOf_add : checksOf e.add s = checksAdd e e.add s := by cases e <;> rfl
@[simp] theorem checksOf_digest : checksOf e.digest s = checksDigest e e.digest s := by cases e <;> rfl
@[simp] theorem checksOf_destroy : checksOf e.destroy s = checksDestroy e e.destroy s := by cases e <;> rfl

@[simp] theorem effectOf_construct : effectOf e.construct s = effectConstruct e (e.draws .accAlloc) s := by cases e <;> rfl
@[simp] theorem effectOf_init : effectOf e.init s = effectInit e (e.draws .accInit) s := by cases e <;> rfl
@[simp] theorem effectOf_add : effectOf e.add s = effectAdd e (e.draws .accAdd) s := by cases e <;> rfl
@[simp] theorem effectOf_digest : effectOf e.digest s = effectDigest e (e.draws .accDigest) s := by cases e <;> rfl
@[simp] theorem effectOf_destroy : effectOf e.destroy s = effectDestroy e s := by cases e <;> rfl

@[simp] theorem outputRegion_construct : outputRegion e.construct s = (0, 0) := by cases e <;> rfl
@[simp] theorem outputRegion_init : outputRegion e.init s = (0, 0) := by cases e <;> rfl
@[simp] theorem outputRegion_add : outputRegion e.add s = (0, 0) := by cases e <;> rfl
@[simp] theorem outputRegion_destroy : outputRegion e.destroy s = (0, 0) := by cases e <;> rfl
/-- DIGEST alone writes host memory (R89). -/
@[simp] theorem outputRegion_digest : outputRegion e.digest s = (s.argNat 0, (s.engine e).dlen) := by cases e <;> rfl

/-- The oracle answers no failure to the engine's command, which for SEQ is no draw at all (R276). -/
theorem State.noFailureAt_iff (p : DrawPoint) : s.NoFailureAt e p ↔ (s.drawIf (e.draws p)).1 = none := by
  cases e <;> simp [State.NoFailureAt, EngineSel.draws, State.drawIf]

/-- What the oracle answers does not depend on the engines. -/
@[simp] theorem State.drawIf_setEngine (x : Engine) (p : Option DrawPoint) :
    ((s.setEngine e x).drawIf p).1 = (s.drawIf p).1 := by
  cases p with
  | none => rfl
  | some p =>
    simp only [State.drawIf, State.draw, State.setEngine_env, State.setEngine_free]
    cases s.env <;> rfl

end

/-! ### When the checks pass, and what they report -/

section
variable {e : EngineSel} {i : Instr} {s : State}

theorem checksConstruct_eq_pass : checksConstruct e i s = .pass ↔
    s.lacksArgs i = false ∧ (s.engine e).st = .unconstructed ∧ (Width.ofWord (s.arg 0)).isSome = true := by
  simp [checksConstruct, Verdict.first_eq_pass]

theorem checksInit_eq_pass : checksInit e i s = .pass ↔
    s.lacksArgs i = false ∧ (s.engine e).st ≠ .unconstructed ∧ (s.engine e).st ≠ .failed := by
  simp [checksInit, Verdict.first_eq_pass]

theorem checksAdd_eq_pass : checksAdd e i s = .pass ↔
    s.lacksArgs i = false ∧ ((s.engine e).st = .fresh ∨ (s.engine e).st = .absorbing) ∧
      rangeOk (s.argNat 0) (s.argNat 1) = true := by
  cases hst : (s.engine e).st <;> simp [checksAdd, Verdict.first_eq_pass, hst]

theorem checksDigest_eq_pass : checksDigest e i s = .pass ↔
    s.lacksArgs i = false ∧ ((s.engine e).st = .fresh ∨ (s.engine e).st = .absorbing) ∧
      rangeOk (s.argNat 0) (s.engine e).dlen = true := by
  cases hst : (s.engine e).st <;> simp [checksDigest, Verdict.first_eq_pass, hst]

theorem checksDestroy_eq_pass : checksDestroy e i s = .pass ↔ s.lacksArgs i = false ∧ (s.engine e).st ≠ .unconstructed := by
  simp [checksDestroy, Verdict.first_eq_pass]

theorem Verdict.first_ne_refuse {vs : List Verdict} {m : Mark} (h : ∀ v ∈ vs, v ≠ .refuse m) : Verdict.first vs ≠ .refuse m := by
  induction vs with
  | nil => exact nofun
  | cons v vs ih =>
    rw [List.forall_mem_cons] at h
    cases v with
    | pass => exact ih h.2
    | err c => exact nofun
    | refuse m' => exact h.1

@[simp] theorem Verdict.when_err_ne_refuse (b : Bool) (c : ErrCode) (m : Mark) : Verdict.when b (.err c) ≠ .refuse m := by
  cases b <;> exact nofun

section
variable (hargs : s.lacksArgs i = false)
include hargs

/-- With its operands stored a streaming command is never refused (R92, R285). -/
theorem checksOf_stream_ne_refuse (hi : i ∈ [e.construct, e.init, e.add, e.digest, e.destroy]) (m : Mark) :
    checksOf i s ≠ .refuse m := by
  have hpass := argCheck_eq_pass.2 hargs
  simp only [List.mem_cons, List.not_mem_nil, or_false] at hi
  rcases hi with rfl | rfl | rfl | rfl | rfl
  · rw [checksOf_construct]; exact Verdict.first_ne_refuse (by simp [hpass])
  · rw [checksOf_init]; exact Verdict.first_ne_refuse (by simp [hpass])
  · rw [checksOf_add]; exact Verdict.first_ne_refuse (by simp [hpass])
  · rw [checksOf_digest]; exact Verdict.first_ne_refuse (by simp [hpass])
  · rw [checksOf_destroy]; exact Verdict.first_ne_refuse (by simp [hpass])

/-- Every command but CONSTRUCT needs a constructed engine (R170). -/
theorem checksOf_unconstructed (hi : i ∈ [e.init, e.add, e.digest, e.destroy]) (hst : (s.engine e).st = .unconstructed) :
    checksOf i s = .err .notConstructed := by
  have hpass := argCheck_eq_pass.2 hargs
  simp only [List.mem_cons, List.not_mem_nil, or_false] at hi
  rcases hi with rfl | rfl | rfl | rfl
  · rw [checksOf_init, checksInit, hpass, hst]; rfl
  · rw [checksOf_add, checksAdd, hpass, hst]; rfl
  · rw [checksOf_digest, checksDigest, hpass, hst]; rfl
  · rw [checksOf_destroy, checksDestroy, hpass, hst]; rfl

/-- A FAILED engine accepts DESTROY only (R170, R274). -/
theorem checksOf_engineFailed (hi : i ∈ [e.init, e.add, e.digest]) (hst : (s.engine e).st = .failed) :
    checksOf i s = .err .engineFailed := by
  have hpass := argCheck_eq_pass.2 hargs
  simp only [List.mem_cons, List.not_mem_nil, or_false] at hi
  rcases hi with rfl | rfl | rfl
  · rw [checksOf_init, checksInit, hpass, hst]; rfl
  · rw [checksOf_add, checksAdd, hpass, hst]; rfl
  · rw [checksOf_digest, checksDigest, hpass, hst]; rfl

theorem checksConstruct_constructed (hst : (s.engine e).st ≠ .unconstructed) :
    checksConstruct e i s = .err .alreadyConstructed := by
  rw [checksConstruct, argCheck_eq_pass.2 hargs, bne_iff_ne.2 hst]
  rfl

theorem checksAdd_finalized (hst : (s.engine e).st = .finalized) : checksAdd e i s = .err .addAfterFinal := by
  rw [checksAdd, argCheck_eq_pass.2 hargs, hst]
  rfl

theorem checksDigest_finalized (hst : (s.engine e).st = .finalized) : checksDigest e i s = .err .digestAfterFinal := by
  rw [checksDigest, argCheck_eq_pass.2 hargs, hst]
  rfl

/-- A streaming command whose operands are stored ends with a contract violation or has its effect (R272, R275). -/
theorem exec_stream_cases (hi : i ∈ [e.construct, e.init, e.add, e.digest, e.destroy]) {t : State} (h : exec i s = .next t) :
    (∃ c, c.isContract = true ∧ t = s.raise c) ∨ checksOf i s = .pass ∧ t = effectOf i s := by
  have ht := exec_next h
  cases hc : checksOf i s with
  | pass => exact .inr ⟨rfl, by rw [ht, hc, State.conclude_pass]⟩
  | err c => exact .inl ⟨c, checksOf_onlyContract i s c hc, by rw [ht, hc, State.conclude_err]⟩
  | refuse m => exact absurd hc (checksOf_stream_ne_refuse hargs hi m)

/-- One that reports no error passed its checks. -/
theorem exec_stream_of_success (hi : i ∈ [e.construct, e.init, e.add, e.digest, e.destroy]) {t : State}
    (h : exec i s = .next t) (hok : t.err = false) : checksOf i s = .pass ∧ t = effectOf i s := by
  rcases exec_stream_cases hargs hi h with ⟨c, -, rfl⟩ | hpass
  · cases hok
  · exact hpass

end
end

/-! ### A command at work -/

theorem State.memWrite_none {s : State} {a : Nat} {bs : List Byte} (h : s.memWrite a bs = none) :
    s.platform.admitsAll a bs.length = false := by
  simpa [State.memWrite] using h

/-- `u` is `s` with the engine `e` holding `x` and `m` in host memory: besides that, free values and the draws of ACC commands were taken (R41, R276). -/
def State.EngineStep (s u : State) (e : EngineSel) (x : Engine) (m : Memory) : Prop :=
  ∃ env free, (e = .seq → env = s.env) ∧ u = ({ s with mem := m, env := env, free := free } : State).setEngine e x

section
variable {s u : State} {e : EngineSel} {x : Engine} {m : Memory}

theorem State.EngineStep.refl (s : State) (e : EngineSel) : s.EngineStep s e (s.engine e) s.mem :=
  ⟨s.env, s.free, fun _ => rfl, by cases e <;> rfl⟩

theorem State.EngineStep.setEngine (h : s.EngineStep u e x m) (y : Engine) : s.EngineStep (u.setEngine e y) e y m := by
  obtain ⟨env, free, henv, rfl⟩ := h
  exact ⟨env, free, henv, by cases e <;> rfl⟩

theorem State.EngineStep.drawIf (h : s.EngineStep u e x m) {p : DrawPoint} {a : Option ErrCode} {t : State}
    (hd : u.drawIf (e.draws p) = (a, t)) : s.EngineStep t e x m := by
  cases e with
  | seq => cases hd; exact h
  | acc =>
    obtain ⟨env, free, -, rfl⟩ := h
    obtain ⟨env', free', ht⟩ := State.drawIf_state _ (EngineSel.acc.draws p)
    rw [hd] at ht
    exact ⟨env', free', nofun, ht⟩

theorem State.EngineStep.memWrite (h : s.EngineStep u e x m) {a : Nat} {bs : List Byte} {t : State}
    (hw : u.memWrite a bs = some t) : s.EngineStep t e x (m.writeBytes a bs) := by
  obtain ⟨env, free, henv, rfl⟩ := h
  obtain ⟨-, rfl⟩ := State.memWrite_some hw
  exact ⟨env, free, henv, by cases e <;> rfl⟩

theorem State.EngineStep.freeRegion (h : s.EngineStep u e x m) (a n : Nat) :
    s.EngineStep (u.freeRegion a n) e x (u.freeRegion a n).mem := by
  obtain ⟨env, free, henv, rfl⟩ := h
  exact ⟨env, free + 1, henv, by cases e <;> rfl⟩

theorem State.EngineStep.engine_eq (h : s.EngineStep u e x m) : u.engine e = x := by
  obtain ⟨env, free, -, rfl⟩ := h
  simp

theorem State.EngineStep.mem_eq (h : s.EngineStep u e x m) : u.mem = m := by
  obtain ⟨env, free, -, rfl⟩ := h
  simp

theorem State.EngineStep.faultSeen_eq (h : s.EngineStep u e x m) : u.faultSeen = s.faultSeen := by
  obtain ⟨env, free, -, rfl⟩ := h
  simp

theorem State.EngineStep.env_eq (h : s.EngineStep u e x m) (he : e = .seq) : u.env = s.env := by
  obtain ⟨env, free, henv, rfl⟩ := h
  simpa using henv he

theorem State.EngineStep.outside (h : s.EngineStep u e x m) : s.SameOutsideEngine u e := by
  obtain ⟨env, free, -, rfl⟩ := h
  refine ⟨by simp [State.SameHostSide], by simp, by simp, fun e' he => ?_, by simp, by simp⟩
  rw [State.setEngine_engine_other _ _ he]
  cases e' <;> rfl

end

/-! ### How a command ends -/

/-- A streaming command left `x` in its engine and everything outside the engine, STATUS and host memory as it was (R41). -/
structure State.StreamEnd (s t : State) (e : EngineSel) (x : Engine) : Prop where
  engine : t.engine e = x
  outside : s.SameOutsideEngine t e
  env : e = .seq → t.env = s.env
  sticky : s.StickyFault t

/-- It succeeded with `x` in its engine and `m` in host memory. -/
structure State.Completes (s t : State) (e : EngineSel) (x : Engine) (m : Memory) : Prop where
  status : s.Succeeded t
  ends : s.StreamEnd t e x
  mem : t.mem = m

/-- It failed with a code that leaves the engine FAILED, its width kept, and no byte outside a region touched (R31, R69, R273). -/
structure State.FailsEngine (s t : State) (e : EngineSel) (c : ErrCode) (region : Nat × Nat) : Prop where
  status : t.FailedWith c
  ends : ∃ S, s.StreamEnd t e { s.engine e with st := .failed, lanes := S }
  memory : s.SameMemoryOutside t region

section
variable {s u t : State} {e : EngineSel} {x : Engine} {m : Memory}

theorem State.EngineStep.complete (h : s.EngineStep u e x m) : s.Completes u.complete e x m :=
  ⟨⟨rfl, rfl, h.faultSeen_eq⟩, ⟨h.engine_eq, h.outside, h.env_eq, .complete h.faultSeen_eq⟩, h.mem_eq⟩

theorem State.EngineStep.raise (h : s.EngineStep u e x m) (c : ErrCode) : s.StreamEnd (u.raise c) e x :=
  ⟨h.engine_eq, h.outside, h.env_eq, .of_failed (c := c) ⟨rfl, rfl, rfl⟩⟩

theorem State.EngineStep.engineFails {S : Lanes} (h : s.EngineStep u e { s.engine e with lanes := S } m) (c : ErrCode)
    {region : Nat × Nat} (hm : s.SameMemoryOutside u region) : s.FailsEngine (u.engineFails e c) e c region := by
  rw [State.engineFails, h.engine_eq]
  have hstep := h.setEngine { s.engine e with lanes := S, st := .failed }
  exact ⟨⟨rfl, rfl, rfl⟩, ⟨S, hstep.raise c⟩, fun a ha => by simpa using hm a ha⟩

/-- A failure of a command that writes host memory leaves its output region unspecified (R273). -/
theorem State.EngineStep.freeRegion_fails {S : Lanes} (h : s.EngineStep u e { s.engine e with lanes := S } s.mem) (a n : Nat)
    (c : ErrCode) : s.FailsEngine ((u.freeRegion a n).engineFails e c) e c (a, n) := by
  refine (h.freeRegion a n).engineFails c fun b hb => ?_
  dsimp only at hb
  rw [State.freeRegion_outside u (by omega), h.mem_eq]

theorem State.sameMemoryOutside_of_eq (hm : u.mem = s.mem) (region : Nat × Nat) : s.SameMemoryOutside u region :=
  fun _ _ => by rw [hm]

theorem State.SameMemoryOutside.sameMemory (h : s.SameMemoryOutside t (0, 0)) : s.SameMemory t := fun a => h a (by simp)

theorem State.Completes.sameMemory (h : s.Completes t e x s.mem) : s.SameMemory t := fun _ => by rw [h.mem]

section
variable {c : ErrCode} {region : Nat × Nat} (h : s.FailsEngine t e c region)
include h

theorem State.FailsEngine.st : (t.engine e).st = .failed := by
  obtain ⟨S, hend⟩ := h.ends
  rw [hend.engine]

theorem State.FailsEngine.width : (t.engine e).width = (s.engine e).width := by
  obtain ⟨S, hend⟩ := h.ends
  rw [hend.engine]

theorem State.FailsEngine.outside : s.SameOutsideEngine t e := by
  obtain ⟨S, hend⟩ := h.ends
  exact hend.outside

end

end

/-! ### The effects -/

theorem Engine.rate_of_width {x : Engine} {w : Width} (h : x.width = some w) : x.rate = Sys2Proof.rate w.bits := by
  rw [Engine.rate, h, widthBits]

theorem Engine.dlen_of_width {x : Engine} {w : Width} (h : x.width = some w) : x.dlen = Sys2Proof.dlen w.bits := by
  rw [Engine.dlen, h, widthBits]

/-- An engine as CONSTRUCT and INIT leave it (R171, R172). -/
abbrev Engine.fresh (w : Option Width) : Engine := { st := .fresh, width := w, lanes := zeroLanes, buf := [] }

/-- An engine after ADD of some bytes (R173). -/
abbrev Engine.afterAdd (x : Engine) (data : List Byte) : Engine :=
  { st := .absorbing, width := x.width, lanes := (absorbFull x.rate x.lanes (x.buf ++ data)).1,
    buf := (absorbFull x.rate x.lanes (x.buf ++ data)).2 }

/-- An engine after DIGEST (R174). -/
abbrev Engine.afterDigest (x : Engine) : Engine :=
  { st := .finalized, width := x.width, lanes := absorbBlock x.rate x.lanes (pad x.rate x.buf), buf := [] }

/-- The bytes DIGEST writes (R174). -/
def Engine.digestBytes (x : Engine) : List Byte := squeeze x.afterDigest.lanes (widthBits x.width)

@[simp] theorem Engine.length_digestBytes (x : Engine) : x.digestBytes.length = x.dlen := length_squeeze _ _

section
variable (e : EngineSel) (s : State)

/-- CONSTRUCT makes the engine fresh, or leaves it as it was where the draw fails (R202, R273). -/
theorem effectConstruct_cases :
    (s.drawIf (e.draws .accAlloc)).1 = none ∧
      s.Completes (effectConstruct e (e.draws .accAlloc) s) e (.fresh (Width.ofWord (s.arg 0))) s.mem ∨
    ∃ c, (s.drawIf (e.draws .accAlloc)).1 = some c ∧ (effectConstruct e (e.draws .accAlloc) s).FailedWith c ∧
      s.StreamEnd (effectConstruct e (e.draws .accAlloc) s) e (s.engine e) ∧
      (effectConstruct e (e.draws .accAlloc) s).mem = s.mem := by
  have hstart := State.EngineStep.refl s e
  unfold effectConstruct
  split
  next c t hd => exact .inr ⟨c, by rw [hd], ⟨rfl, rfl, rfl⟩, (hstart.drawIf hd).raise c, (hstart.drawIf hd).mem_eq⟩
  next t hd => exact .inl ⟨by rw [hd], ((hstart.drawIf hd).setEngine _).complete⟩

theorem effectInit_cases :
    (s.drawIf (e.draws .accInit)).1 = none ∧
      s.Completes (effectInit e (e.draws .accInit) s) e (.fresh (s.engine e).width) s.mem ∨
    ∃ c, (s.drawIf (e.draws .accInit)).1 = some c ∧ s.FailsEngine (effectInit e (e.draws .accInit) s) e c (0, 0) := by
  have hstart := State.EngineStep.refl s e
  unfold effectInit
  split
  next c t hd =>
    have ht := hstart.drawIf hd
    exact .inr ⟨c, by rw [hd], ht.engineFails (S := (s.engine e).lanes) c (State.sameMemoryOutside_of_eq ht.mem_eq _)⟩
  next t hd => exact .inl ⟨by rw [hd], ((hstart.drawIf hd).setEngine _).complete⟩

/-- ADD reads its bytes before it draws, so a bus error comes first (R204). -/
theorem effectAdd_cases :
    s.memRead 0 (s.argNat 0) (s.argNat 1) = none ∧ s.FailsEngine (effectAdd e (e.draws .accAdd) s) e .busError (0, 0) ∨
    ∃ data, s.memRead 0 (s.argNat 0) (s.argNat 1) = some data ∧
      ((s.drawIf (e.draws .accAdd)).1 = none ∧
          s.Completes (effectAdd e (e.draws .accAdd) s) e ((s.engine e).afterAdd data) s.mem ∨
        ∃ c, (s.drawIf (e.draws .accAdd)).1 = some c ∧ s.FailsEngine (effectAdd e (e.draws .accAdd) s) e c (0, 0)) := by
  have hstart := State.EngineStep.refl s e
  unfold effectAdd
  split
  next hread => exact .inl ⟨hread, hstart.engineFails (S := (s.engine e).lanes) _ (State.sameMemoryOutside_of_eq rfl _)⟩
  next data hread =>
    refine .inr ⟨data, hread, ?_⟩
    rw [← State.drawIf_setEngine e]
    dsimp only
    split
    next c t hd =>
      have ht := (hstart.setEngine _).drawIf hd
      exact .inr ⟨c, by rw [hd], ht.engineFails c (State.sameMemoryOutside_of_eq ht.mem_eq _)⟩
    next t hd => exact .inl ⟨by rw [hd], (((hstart.setEngine _).drawIf hd).setEngine _).complete⟩

/-- DIGEST draws before it writes (R205). -/
theorem effectDigest_cases :
    (s.drawIf (e.draws .accDigest)).1 = none ∧
      (s.platform.admitsAll (s.argNat 0) (s.engine e).dlen = true ∧
          s.Completes (effectDigest e (e.draws .accDigest) s) e (s.engine e).afterDigest
            (s.mem.writeBytes (s.argNat 0) (s.engine e).digestBytes) ∨
        s.platform.admitsAll (s.argNat 0) (s.engine e).dlen = false ∧
          s.FailsEngine (effectDigest e (e.draws .accDigest) s) e .busError (s.argNat 0, (s.engine e).dlen)) ∨
    ∃ c, (s.drawIf (e.draws .accDigest)).1 = some c ∧
      s.FailsEngine (effectDigest e (e.draws .accDigest) s) e c (s.argNat 0, (s.engine e).dlen) := by
  have hstart := State.EngineStep.refl s e
  rw [← State.drawIf_setEngine e]
  unfold effectDigest
  dsimp only
  split
  next c t hd => exact .inr ⟨c, by rw [hd], ((hstart.setEngine _).drawIf hd).freeRegion_fails _ _ c⟩
  next t hd =>
    refine .inl ⟨by rw [hd], ?_⟩
    have ht := (hstart.setEngine _).drawIf hd
    obtain ⟨⟨-, -, -, hp, -⟩, -⟩ := ht.outside
    split
    next hw =>
      have hadm := State.memWrite_none hw
      rw [length_squeeze, hp] at hadm
      exact .inr ⟨hadm, ht.freeRegion_fails _ _ _⟩
    next u hw =>
      obtain ⟨hadm, -⟩ := State.memWrite_some hw
      rw [length_squeeze, hp] at hadm
      exact .inl ⟨hadm, ((ht.memWrite hw).setEngine _).complete⟩

theorem effectDestroy_completes : s.Completes (effectDestroy e s) e
    { st := .unconstructed, width := none, lanes := Config.freeLanes s.free, buf := Config.freeBuf s.free } s.mem := by
  have hstart : s.EngineStep { s with free := s.free + 1 } e (s.engine e) s.mem :=
    ⟨s.env, s.free + 1, fun _ => rfl, by cases e <;> rfl⟩
  exact (hstart.setEngine _).complete

end

/-! ### The digest in host memory -/

section
variable {s t : State} {e : EngineSel} {a : Nat}
  (h : s.Completes t e (s.engine e).afterDigest (s.mem.writeBytes a (s.engine e).digestBytes))
include h

theorem State.Completes.digest_outside : s.SameMemoryOutside t (a, (s.engine e).dlen) := by
  intro b hb
  dsimp only at hb
  rw [h.mem, Memory.read_writeBytes_outside _ _ _ (by rw [Engine.length_digestBytes]; omega)]

/-- What DIGEST wrote reads back (R174). -/
theorem State.Completes.digest_reads (hmem : Memory.wf s.mem) {w : Width} (hw : (s.engine e).width = some w)
    (hrange : rangeOk a (s.engine e).dlen = true) : t.mem.readBytes a (s.engine e).dlen = (s.engine e).digestBytes := by
  have hend : a + (s.engine e).dlen ≤ 2 ^ 64 := rangeOk_le hrange (Engine.dlen_of_width hw ▸ dlen_bits_pos w)
  have hread := Memory.readBytes_writeBytes s.mem a (s.engine e).digestBytes hmem (by simpa using hend)
  rwa [h.mem, ← Engine.length_digestBytes]

end

/-! ### A command that succeeds -/

section
variable {e : EngineSel} {s t : State} (hok : t.err = false)
include hok

theorem State.FailsEngine.not_success {c : ErrCode} {region : Nat × Nat} : ¬ s.FailsEngine t e c region := by
  rintro ⟨⟨herr, -⟩, -, -⟩
  cases herr.symm.trans hok

theorem exec_construct_success (hargs : s.lacksArgs e.construct = false) (h : exec e.construct s = .next t) :
    s.Completes t e (.fresh (Width.ofWord (s.arg 0))) s.mem := by
  obtain ⟨-, rfl⟩ := exec_stream_of_success (e := e) hargs (by simp) h hok
  rw [effectOf_construct] at hok ⊢
  rcases effectConstruct_cases e s with ⟨-, hdone⟩ | ⟨c, -, ⟨herr, -⟩, -⟩
  · exact hdone
  · cases herr.symm.trans hok

theorem exec_init_success (h : exec e.init s = .next t) : s.Completes t e (.fresh (s.engine e).width) s.mem := by
  have hargs : s.lacksArgs e.init = false := by cases e <;> rfl
  obtain ⟨-, rfl⟩ := exec_stream_of_success (e := e) hargs (by simp) h hok
  rw [effectOf_init] at hok ⊢
  rcases effectInit_cases e s with ⟨-, hdone⟩ | ⟨c, -, hfails⟩
  · exact hdone
  · exact absurd hfails (State.FailsEngine.not_success hok)

theorem exec_add_success (hargs : s.lacksArgs e.add = false) (h : exec e.add s = .next t) :
    ∃ data, s.memRead 0 (s.argNat 0) (s.argNat 1) = some data ∧ s.Completes t e ((s.engine e).afterAdd data) s.mem := by
  obtain ⟨-, rfl⟩ := exec_stream_of_success (e := e) hargs (by simp) h hok
  rw [effectOf_add] at hok ⊢
  rcases effectAdd_cases e s with ⟨-, hfails⟩ | ⟨data, hread, ⟨-, hdone⟩ | ⟨c, -, hfails⟩⟩
  · exact absurd hfails (State.FailsEngine.not_success hok)
  · exact ⟨data, hread, hdone⟩
  · exact absurd hfails (State.FailsEngine.not_success hok)

theorem exec_digest_success (hargs : s.lacksArgs e.digest = false) (h : exec e.digest s = .next t) :
    rangeOk (s.argNat 0) (s.engine e).dlen = true ∧
      s.Completes t e (s.engine e).afterDigest (s.mem.writeBytes (s.argNat 0) (s.engine e).digestBytes) := by
  obtain ⟨hc, rfl⟩ := exec_stream_of_success (e := e) hargs (by simp) h hok
  rw [checksOf_digest, checksDigest_eq_pass] at hc
  obtain ⟨-, -, hrange⟩ := hc
  rw [effectOf_digest] at hok ⊢
  rcases effectDigest_cases e s with ⟨-, ⟨-, hdone⟩ | ⟨-, hfails⟩⟩ | ⟨c, -, hfails⟩
  · exact ⟨hrange, hdone⟩
  · exact absurd hfails (State.FailsEngine.not_success hok)
  · exact absurd hfails (State.FailsEngine.not_success hok)

theorem exec_destroy_success (h : exec e.destroy s = .next t) : (t.engine e).st = .unconstructed := by
  have hargs : s.lacksArgs e.destroy = false := by cases e <;> rfl
  obtain ⟨-, rfl⟩ := exec_stream_of_success (e := e) hargs (by simp) h hok
  rw [effectOf_destroy, (effectDestroy_completes e s).ends.engine]

end

/-! ### A bus error -/

section
variable {e : EngineSel} {s t : State} (hbus : t.errCode = .busError)
include hbus

theorem State.Completes.not_busError {x : Engine} {m : Memory} : ¬ s.Completes t e x m := by
  rintro ⟨⟨-, hcode, -⟩, -, -⟩
  cases hcode.symm.trans hbus

/-- With the operands stored no check reports BUS_ERROR, so the effect did. -/
theorem exec_stream_of_busError {i : Instr} (hi : i ∈ [e.construct, e.init, e.add, e.digest, e.destroy])
    (hargs : s.lacksArgs i = false) (h : exec i s = .next t) : t = effectOf i s := by
  rcases exec_stream_cases hargs hi h with ⟨c, hc, rfl⟩ | ⟨-, rfl⟩
  · cases hbus
    cases hc
  · rfl

theorem exec_add_busError (hargs : s.lacksArgs e.add = false) (h : exec e.add s = .next t) : (t.engine e).st = .failed := by
  cases exec_stream_of_busError (e := e) hbus (by simp) hargs h
  rw [effectOf_add] at hbus ⊢
  rcases effectAdd_cases e s with ⟨-, hfails⟩ | ⟨data, -, ⟨-, hdone⟩ | ⟨c, -, hfails⟩⟩
  · exact hfails.st
  · exact absurd hdone (State.Completes.not_busError hbus)
  · exact hfails.st

theorem exec_digest_busError (hargs : s.lacksArgs e.digest = false) (h : exec e.digest s = .next t) :
    (t.engine e).st = .failed := by
  cases exec_stream_of_busError (e := e) hbus (by simp) hargs h
  rw [effectOf_digest] at hbus ⊢
  rcases effectDigest_cases e s with ⟨-, ⟨-, hdone⟩ | ⟨-, hfails⟩⟩ | ⟨c, -, hfails⟩
  · exact absurd hdone (State.Completes.not_busError hbus)
  · exact hfails.st
  · exact hfails.st

end

/-! ### The commands one by one -/

/-- Settles O32: with no failure drawn the effect is the first end of `effectConstruct_cases`. -/
theorem constructMakesFresh : Obligations.ConstructMakesFresh := by
  rintro e s w ⟨hargs, -⟩ hst harg hdraw
  have hw : Width.ofWord (s.arg 0) = some w := Width.ofWord_eq_some.2 harg
  have hc : checksOf e.construct s = .pass := by
    rw [checksOf_construct, checksConstruct_eq_pass, hw]
    exact ⟨hargs, hst, rfl⟩
  obtain ⟨-, hdone⟩ := (effectConstruct_cases e s).resolve_right (by simp [(s.noFailureAt_iff e _).1 hdraw])
  rw [← effectOf_construct, hw] at hdone
  exact ⟨_, exec_of_pass hc, hdone.status, hdone.ends.engine, hdone.ends.outside, hdone.sameMemory⟩

/-- Settles O33: with no failure drawn the effect is the first end of `effectInit_cases`. -/
theorem initMakesFresh : Obligations.InitMakesFresh := by
  rintro e s ⟨hargs, -⟩ hcons hfail hdraw
  have hc : checksOf e.init s = .pass := by
    rw [checksOf_init, checksInit_eq_pass]
    exact ⟨hargs, hcons, hfail⟩
  obtain ⟨-, hdone⟩ := (effectInit_cases e s).resolve_right (by simp [(s.noFailureAt_iff e _).1 hdraw])
  rw [← effectOf_init] at hdone
  exact ⟨_, exec_of_pass hc, hdone.status, hdone.ends.engine, hdone.ends.outside, hdone.sameMemory⟩

/-- The draw of a command at work, where the oracle answers no failure whatever the engine holds. -/
theorem drawIf_eq_none {e : EngineSel} {s : State} {p : DrawPoint} (h : ∀ x : Engine, (s.setEngine e x).NoFailureAt e p) :
    (s.drawIf (e.draws p)).1 = none := by
  rw [← State.drawIf_setEngine e s (s.engine e)]
  exact (State.noFailureAt_iff e _ p).1 (h _)

section
variable {e : EngineSel} {s : State}

theorem checksOf_add_pass (hargs : s.lacksArgs e.add = false) (hst : (s.engine e).st = .fresh ∨ (s.engine e).st = .absorbing)
    (hrange : rangeOk (s.argNat 0) (s.argNat 1) = true) : checksOf e.add s = .pass := by
  rw [checksOf_add, checksAdd_eq_pass]
  exact ⟨hargs, hst, hrange⟩

theorem checksOf_digest_pass (hargs : s.lacksArgs e.digest = false)
    (hst : (s.engine e).st = .fresh ∨ (s.engine e).st = .absorbing) (hrange : rangeOk (s.argNat 0) (s.engine e).dlen = true) :
    checksOf e.digest s = .pass := by
  rw [checksOf_digest, checksDigest_eq_pass]
  exact ⟨hargs, hst, hrange⟩

end

/-- Settles O34: a read of a byte that is not admitted answers none before anything is drawn; a read of an accessible region returns its bytes, and the
tail left by `absorbFull` is shorter than the rate. -/
theorem addAbsorbsFullBlocks : Obligations.AddAbsorbsFullBlocks := by
  constructor
  · rintro e s ⟨hargs, hrace⟩ hst ⟨hrange, hadm⟩
    have hread : s.memRead 0 (s.argNat 0) (s.argNat 1) = none := by simp [State.memRead, hadm]
    obtain ⟨-, hfails⟩ := (effectAdd_cases e s).resolve_right (by simp [hread])
    rw [← effectOf_add] at hfails
    exact ⟨_, exec_of_pass (checksOf_add_pass hargs hst hrange), hfails.status, hfails.st, hfails.width, hfails.outside,
      hfails.memory.sameMemory⟩
  · rintro e s w ⟨hargs, hrace⟩ hst hw ⟨hrange, hadm⟩ hdraw
    have hread := State.memRead_admitted hrace 0 hadm
    obtain ⟨data, hdata, hends⟩ := (effectAdd_cases e s).resolve_left (by simp [hread])
    obtain ⟨-, hdone⟩ := hends.resolve_right (by simp [drawIf_eq_none hdraw])
    rw [← effectOf_add] at hdone
    cases hread.symm.trans hdata
    dsimp only
    rw [← Engine.rate_of_width hw]
    refine ⟨_, exec_of_pass (checksOf_add_pass hargs hst hrange), hdone.status, ?_⟩
    rw [hdone.ends.engine]
    exact ⟨rfl, hw, rfl, absorbFull_rest _ _ _, length_absorbFull_rest (rate_widthBits_pos _) _ _, hdone.ends.outside,
      hdone.sameMemory⟩

/-- Settles O35: with no failure drawn the write of the digest decides how the command ends, and what was written reads back. -/
theorem digestWritesDigest : Obligations.DigestWritesDigest := by
  constructor
  · rintro e s w ⟨hargs, -⟩ hst hw
    rw [← Engine.dlen_of_width hw]
    rintro ⟨hrange, hadm⟩ hdraw
    obtain ⟨-, hends⟩ := (effectDigest_cases e s).resolve_right (by simp [drawIf_eq_none hdraw])
    obtain ⟨-, hfails⟩ := hends.resolve_left (by simp [hadm])
    rw [← effectOf_digest] at hfails
    exact ⟨_, exec_of_pass (checksOf_digest_pass hargs hst hrange), hfails.status, hfails.st, hfails.width.trans hw, hfails.outside,
      hfails.memory⟩
  · rintro e s w ⟨hargs, -⟩ hmem hst hw
    rw [← Engine.dlen_of_width hw, ← Engine.rate_of_width hw]
    rintro ⟨hrange, hadm⟩ hdraw
    obtain ⟨-, hends⟩ := (effectDigest_cases e s).resolve_right (by simp [drawIf_eq_none hdraw])
    obtain ⟨-, hdone⟩ := hends.resolve_right (by simp [hadm])
    rw [← effectOf_digest] at hdone
    refine ⟨_, exec_of_pass (checksOf_digest_pass hargs hst hrange), hdone.status, ?_, ?_, hdone.digest_outside, hdone.ends.outside⟩
    · rw [hdone.ends.engine, Engine.afterDigest, hw]
    · rw [hdone.digest_reads hmem hw hrange, Engine.digestBytes, hw]
      rfl

/-- Settles O36: DESTROY draws nothing and has one end. -/
theorem destroyReleasesEngine : Obligations.DestroyReleasesEngine := by
  rintro e s ⟨hargs, -⟩ hst
  have hc : checksOf e.destroy s = .pass := by
    rw [checksOf_destroy, checksDestroy_eq_pass]
    exact ⟨hargs, hst⟩
  have hdone := effectDestroy_completes e s
  rw [← effectOf_destroy] at hdone
  refine ⟨_, exec_of_pass hc, hdone.status, ?_⟩
  rw [hdone.ends.engine]
  exact ⟨rfl, rfl, hdone.ends.outside, hdone.sameMemory⟩

/-- Settles O37: the errors are the first failing checks (R275), the transitions those of the successful commands, one lemma each. -/
theorem streamStateMachine : Obligations.StreamStateMachine := by
  intro e s
  refine ⟨fun i hi ⟨hargs, _⟩ hst => exec_of_err (checksOf_unconstructed hargs hi hst), fun ⟨hargs, _⟩ hst => exec_of_err ?_,
    fun i hi ⟨hargs, _⟩ hst => exec_of_err (checksOf_engineFailed hargs hi hst), fun ⟨hargs, _⟩ hst => exec_of_err ?_,
    fun ⟨hargs, _⟩ hst => exec_of_err ?_, fun p hp ⟨hargs, _⟩ t ht hok => ?transitions, fun i hi ⟨hargs, _⟩ t ht hbus => ?busError⟩
  · rw [checksOf_construct, checksConstruct_constructed hargs hst]
  · rw [checksOf_add, checksAdd_finalized hargs hst]
  · rw [checksOf_digest, checksDigest_finalized hargs hst]
  case transitions =>
    simp only [List.mem_cons, List.not_mem_nil, or_false] at hp
    rcases hp with rfl | rfl | rfl | rfl | rfl
    · rw [(exec_construct_success hok hargs ht).ends.engine]
    · rw [(exec_init_success hok ht).ends.engine]
    · obtain ⟨data, -, hdone⟩ := exec_add_success hok hargs ht
      rw [hdone.ends.engine]
    · obtain ⟨-, hdone⟩ := exec_digest_success hok hargs ht
      rw [hdone.ends.engine]
    · exact exec_destroy_success hok ht
  case busError =>
    simp only [List.mem_cons, List.not_mem_nil, or_false] at hi
    rcases hi with rfl | rfl
    · exact exec_add_busError hbus hargs ht
    · exact exec_digest_busError hbus hargs ht

/-! ### The frame -/

/-- However the effect of a streaming command ends, the engine's width is as before but for CONSTRUCT and DESTROY, and only DIGEST writes memory. -/
theorem effectOf_streamEnd {e : EngineSel} {i : Instr} (hi : i ∈ [e.construct, e.init, e.add, e.digest, e.destroy]) (s : State) :
    ∃ x, s.StreamEnd (effectOf i s) e x ∧ (i ≠ e.construct → i ≠ e.destroy → x.width = (s.engine e).width) ∧
      s.SameMemoryOutside (effectOf i s) (outputRegion i s) := by
  have failed {t : State} {c : ErrCode} {region : Nat × Nat} (h : s.FailsEngine t e c region) :
      ∃ x, s.StreamEnd t e x ∧ (i ≠ e.construct → i ≠ e.destroy → x.width = (s.engine e).width) ∧ s.SameMemoryOutside t region := by
    obtain ⟨S, hend⟩ := h.ends
    exact ⟨_, hend, fun _ _ => rfl, h.memory⟩
  simp only [List.mem_cons, List.not_mem_nil, or_false] at hi
  rcases hi with rfl | rfl | rfl | rfl | rfl
  · rw [effectOf_construct, outputRegion_construct]
    rcases effectConstruct_cases e s with ⟨-, hdone⟩ | ⟨c, -, -, hend, hmem⟩
    · exact ⟨_, hdone.ends, fun h => absurd rfl h, State.sameMemoryOutside_of_eq hdone.mem _⟩
    · exact ⟨_, hend, fun h => absurd rfl h, State.sameMemoryOutside_of_eq hmem _⟩
  · rw [effectOf_init, outputRegion_init]
    rcases effectInit_cases e s with ⟨-, hdone⟩ | ⟨c, -, hfails⟩
    · exact ⟨_, hdone.ends, fun _ _ => rfl, State.sameMemoryOutside_of_eq hdone.mem _⟩
    · exact failed hfails
  · rw [effectOf_add, outputRegion_add]
    rcases effectAdd_cases e s with ⟨-, hfails⟩ | ⟨data, -, ⟨-, hdone⟩ | ⟨c, -, hfails⟩⟩
    · exact failed hfails
    · exact ⟨_, hdone.ends, fun _ _ => rfl, State.sameMemoryOutside_of_eq hdone.mem _⟩
    · exact failed hfails
  · rw [effectOf_digest, outputRegion_digest]
    rcases effectDigest_cases e s with ⟨-, ⟨-, hdone⟩ | ⟨-, hfails⟩⟩ | ⟨c, -, hfails⟩
    · exact ⟨_, hdone.ends, fun _ _ => rfl, hdone.digest_outside⟩
    · exact failed hfails
    · exact failed hfails
  · have hdone := effectDestroy_completes e s
    rw [effectOf_destroy, outputRegion_destroy]
    exact ⟨_, hdone.ends, fun _ h => absurd rfl h, State.sameMemoryOutside_of_eq hdone.mem _⟩

theorem outputRegion_of_ne_digest {e : EngineSel} {i : Instr} (hi : i ∈ [e.construct, e.init, e.add, e.digest, e.destroy])
    (hne : i ≠ e.digest) (s : State) : outputRegion i s = (0, 0) := by
  simp only [List.mem_cons, List.not_mem_nil, or_false] at hi
  rcases hi with rfl | rfl | rfl | rfl | rfl
  · exact outputRegion_construct e s
  · exact outputRegion_init e s
  · exact outputRegion_add e s
  · exact absurd rfl hne
  · exact outputRegion_destroy e s

/-- Settles O56: a refusal changes the mark only, a contract violation STATUS only, and an effect ends as `effectOf_streamEnd` says. -/
theorem streamCommandsFrame : Obligations.StreamCommandsFrame := by
  intro e i s t hi h
  rw [exec_next h]
  cases hc : checksOf i s with
  | pass =>
    obtain ⟨x, hend, hwidth, hmem⟩ := effectOf_streamEnd hi s
    obtain ⟨hhost, hraw, hbat, hothers, hresult, -⟩ := hend.outside
    refine ⟨hhost, hraw, hbat, hothers, hresult, hend.sticky, hend.env, fun h₁ h₂ => ?_, fun hne => ?_, fun he => ?_⟩
    · rw [State.conclude_pass, hend.engine, hwidth h₁ h₂]
    · rw [outputRegion_of_ne_digest hi hne] at hmem
      exact hmem.sameMemory
    · subst he
      rwa [outputRegion_digest] at hmem
  | err c =>
    have hend := (State.EngineStep.refl s e).raise c
    obtain ⟨hhost, hraw, hbat, hothers, hresult, -⟩ := hend.outside
    exact ⟨hhost, hraw, hbat, hothers, hresult, hend.sticky, hend.env, fun _ _ => congrArg Engine.width hend.engine,
      fun _ _ => rfl, fun _ _ _ => rfl⟩
  | refuse m =>
    exact ⟨⟨rfl, rfl, rfl, rfl, rfl, rfl, rfl⟩, rfl, rfl, fun e' _ => by cases e' <;> rfl, rfl, ⟨id, fun _ => rfl⟩, fun _ => rfl,
      fun _ _ => by cases e <;> rfl, fun _ _ => rfl, fun _ _ _ => rfl⟩

/-! ### What an engine holds of a message -/

/-- Absorbing more bytes behind a message goes on from where the message left off: its full blocks absorbed, its tail in the buffer (R173). -/
theorem absorbFull_append {r : Nat} (hr : 0 < r) (S : Lanes) (M D : List Byte) :
    absorbFull r S (M ++ D) = absorbFull r (absorbFull r S M).1 ((absorbFull r S M).2 ++ D) := by
  have hfull : r * (M.length / r) ≤ M.length := Nat.mul_div_le _ _
  have hlanes : (absorbBlocks r (M.length / r) S (M ++ D)).1 = (absorbFull r S M).1 := absorbBlocks_append _ _ _ _ _ hfull
  have hrest : (absorbBlocks r (M.length / r) S (M ++ D)).2 = (absorbFull r S M).2 ++ D := by
    rw [absorbBlocks_rest, absorbFull_rest, List.drop_append_of_le_length hfull]
  have hblocks : (M ++ D).length / r = M.length / r + ((absorbFull r S M).2 ++ D).length / r := by
    rw [absorbFull_rest, ← Nat.mul_add_div hr]
    congr 1
    simp only [List.length_append, List.length_drop]
    omega
  rw [absorbFull, hblocks, absorbBlocks_add, hlanes, hrest, ← absorbFull]

theorem Engine.fresh_holds (w : Option Width) : (Engine.fresh w).Holds [] := by
  simp [Engine.Holds, absorbFull, absorbBlocks]

theorem Engine.Holds.afterAdd {x : Engine} {M : List Byte} (h : x.Holds M) (D : List Byte) : (x.afterAdd D).Holds (M ++ D) := by
  obtain ⟨hlanes, hbuf⟩ := h
  have happend := absorbFull_append (rate_widthBits_pos x.width) zeroLanes M D
  rw [← Engine.rate, ← hlanes, ← hbuf] at happend
  exact ⟨congrArg Prod.fst happend.symm, congrArg Prod.snd happend.symm⟩

/-- R176: the digest of an engine that holds a message is SHA3_d of it. -/
theorem Engine.Holds.digestBytes_eq {x : Engine} {M : List Byte} (h : x.Holds M) : x.digestBytes = sha3 (widthBits x.width) M := by
  obtain ⟨hlanes, hbuf⟩ := h
  rw [Engine.digestBytes, Engine.afterDigest, hlanes, hbuf]
  rfl

/-! ### The operands that the host stores before DIGEST and ADD (R23, R92) -/

section
variable (s : State) (e : EngineSel) (a n : Word)

theorem State.withArg0_argNat : (s.withArg0 a).argNat 0 = a.toNat := congrArg BitVec.toNat (get_set_self s.args 0 a)

theorem State.withArgs01_argNat_zero : (s.withArgs01 a n).argNat 0 = a.toNat :=
  congrArg BitVec.toNat ((get_set_other (s.args.set 0 a) (j := 0) (k := 1) n (by decide)).trans (get_set_self s.args 0 a))

theorem State.withArgs01_argNat_one : (s.withArgs01 a n).argNat 1 = n.toNat :=
  congrArg BitVec.toNat (get_set_self (s.args.set 0 a) 1 n)

theorem State.withArg0_lacksArgs : (s.withArg0 a).lacksArgs e.digest = false := by
  have h : (s.withArg0 a).argWritten.get 0 = true := get_set_self s.argWritten 0 true
  cases e <;> simp [State.lacksArgs, EngineSel.digest, Instr.operands, h]

theorem State.withArgs01_lacksArgs : (s.withArgs01 a n).lacksArgs e.add = false := by
  have h0 : (s.withArgs01 a n).argWritten.get 0 = true :=
    (get_set_other (s.argWritten.set 0 true) (j := 0) (k := 1) true (by decide)).trans (get_set_self s.argWritten 0 true)
  have h1 : (s.withArgs01 a n).argWritten.get 1 = true := get_set_self (s.argWritten.set 0 true) 1 true
  cases e <;> simp [State.lacksArgs, EngineSel.add, Instr.operands, h0, h1]

theorem State.withArg0_engine : (s.withArg0 a).engine e = s.engine e := by cases e <;> rfl

theorem State.withArgs01_engine : (s.withArgs01 a n).engine e = s.engine e := by cases e <;> rfl

end

/-! ### A run over the chunks of a message -/

/-- A run reached `u` with exactly the message `M` in its engine; no command of it wrote host memory, and no other agent does. -/
structure State.Streaming (s u : State) (e : EngineSel) (w : Width) (M : List Byte) : Prop where
  width : (u.engine e).width = some w
  holds : (u.engine e).Holds M
  mem : u.mem = s.mem
  race : u.race = []

section
variable {s u t : State} {e : EngineSel} {w : Width} {M : List Byte}

/-- CONSTRUCT and INIT start a run. -/
theorem State.Completes.streaming {x : Option Width} (h : s.Completes u e (.fresh x) s.mem) (hrace : s.race = [])
    (hw : (u.engine e).width = some w) : s.Streaming u e w [] := by
  obtain ⟨⟨-, -, -, -, -, -, hr⟩, -⟩ := h.ends.outside
  exact ⟨hw, by rw [h.ends.engine]; exact Engine.fresh_holds x, h.mem, hr.trans hrace⟩

/-- A successful ADD goes on with it. -/
theorem State.Streaming.add (h : s.Streaming u e w M) {a n : Word} (ht : exec e.add (u.withArgs01 a n) = .next t)
    (hok : t.err = false) : s.Streaming t e w (M ++ s.mem.readBytes a.toNat n.toNat) := by
  obtain ⟨data, hread, hdone⟩ := exec_add_success hok (u.withArgs01_lacksArgs e a n) ht
  have hquiet := State.memRead_admitted (s := u.withArgs01 a n) h.race 0 (State.memRead_some hread)
  cases hread.symm.trans hquiet
  have hmem : (u.withArgs01 a n).mem = s.mem := h.mem
  rw [u.withArgs01_engine, u.withArgs01_argNat_zero, u.withArgs01_argNat_one, hmem] at hdone
  obtain ⟨⟨-, -, -, -, -, -, hr⟩, -⟩ := hdone.ends.outside
  refine ⟨?_, ?_, hdone.mem, hr.trans h.race⟩ <;> rw [hdone.ends.engine]
  · exact h.width
  · exact h.holds.afterAdd _

/-- However the message is split. -/
theorem State.Streaming.addChunks (h : s.Streaming u e w M) {chunks : List (Word × Word)} (ht : addChunks e chunks u = some t) :
    s.Streaming t e w (M ++ chunks.flatMap fun c => s.mem.readBytes c.1.toNat c.2.toNat) := by
  induction chunks generalizing u M with
  | nil => cases ht; simpa using h
  | cons c cs ih =>
    obtain ⟨v, hv⟩ : ∃ v, exec e.add (u.withArgs01 c.1 c.2) = .next v := ⟨_, exec_eq _ _⟩
    rw [Machine.addChunks, hv] at ht
    cases hok : v.err with
    | true => simp [nextOf, hok] at ht
    | false =>
      have hrun := ih (h.add hv hok) (by simpa [nextOf, hok] using ht)
      simpa using hrun

/-- A successful DIGEST writes SHA3_d of the message. -/
theorem State.Streaming.digest (h : s.Streaming u e w M) (hmem : Memory.wf s.mem) {dst : Word}
    (ht : exec e.digest (u.withArg0 dst) = .next t) (hok : t.err = false) :
    t.mem.readBytes dst.toNat (dlen w.bits) = sha3 w.bits M := by
  obtain ⟨hrange, hdone⟩ := exec_digest_success hok (u.withArg0_lacksArgs e dst) ht
  have hw : ((u.withArg0 dst).engine e).width = some w := by rw [u.withArg0_engine, h.width]
  have hread := hdone.digest_reads (h.mem ▸ hmem) hw hrange
  rw [Engine.dlen_of_width hw, u.withArg0_argNat, u.withArg0_engine, h.holds.digestBytes_eq, h.width] at hread
  exact hread

end

/-- Settles O38: CONSTRUCT or INIT starts the run, the ADDs carry it on over the chunks, DIGEST writes SHA3_d of what the engine holds. -/
theorem streamedDigestIsSha3 : Obligations.StreamedDigestIsSha3 := by
  intro e start fresh added final w chunks dst hmem hrace hstart hfresh hw hadd hdigest hfinal
  have hrun : start.Streaming fresh e w [] := by
    rcases hstart with ⟨hargs, h⟩ | h
    · exact (exec_construct_success hfresh hargs h).streaming hrace hw
    · exact (exec_init_success hfresh h).streaming hrace hw
  exact (hrun.addChunks hadd).digest hmem hdigest hfinal

end Sys2Proof.Machine
end

section
/-! SUPPORT. The ACC engine beside the SEQ engine (R200, R207): two states whose engines are exchanged, and that each ACC command with no failure drawn ends as
the SEQ command does in the exchanged state. -/

namespace Sys2Proof.Machine

/-! ### States with the two engines exchanged -/

/-- The state whose SEQ engine is as the ACC engine was, and the other way round. -/
def State.swapEngines (s : State) : State := { s with seq := s.acc, acc := s.seq }

/-- An ACC command ended in `t` as the SEQ command ended in `u` (R200): on a bus error the bytes of a region are unspecified (R69). -/
structure State.Matches (t u : State) (region : Nat × Nat) : Prop where
  seq : u.seq = t.acc
  acc : u.acc = t.seq
  err : u.err = t.err
  errCode : u.errCode = t.errCode
  faultSeen : u.faultSeen = t.faultSeen
  mark : u.mark = t.mark
  mem : t.errCode ≠ .busError → u.mem = t.mem
  memOutside : t.errCode = .busError → t.SameMemoryOutside u region

section
variable {s t u : State} {x : Engine} {m : Memory} {region : Nat × Nat}

/-- Neither command touches the engine of the other (R41), nor the mark. -/
theorem State.SameOutsideEngine.others_match (ht : s.SameOutsideEngine t .acc) (hu : s.swapEngines.SameOutsideEngine u .seq) :
    u.acc = t.seq ∧ u.mark = t.mark := by
  obtain ⟨-, -, -, htseq, -, htmark⟩ := ht
  obtain ⟨-, -, -, huacc, -, humark⟩ := hu
  exact ⟨(huacc .acc nofun).trans (htseq .seq nofun).symm, humark.trans htmark.symm⟩

/-- Two commands that succeed with the same engine and the same memory. -/
theorem State.Completes.matches (ht : s.Completes t .acc x m) (hu : s.swapEngines.Completes u .seq x m) (region : Nat × Nat) :
    t.Matches u region := by
  obtain ⟨hterr, htcode, htfault⟩ := ht.status
  obtain ⟨huerr, hucode, hufault⟩ := hu.status
  obtain ⟨hacc, hmark⟩ := ht.ends.outside.others_match hu.ends.outside
  have hmem : u.mem = t.mem := hu.mem.trans ht.mem.symm
  exact ⟨hu.ends.engine.trans ht.ends.engine.symm, hacc, huerr.trans hterr.symm, hucode.trans htcode.symm,
    hufault.trans htfault.symm, hmark, fun _ => hmem, fun _ => State.sameMemoryOutside_of_eq hmem region⟩

/-- Two commands that end in a bus error and leave the same engine. -/
theorem State.FailsEngine.matches (ht : s.FailsEngine t .acc .busError region)
    (hu : s.swapEngines.FailsEngine u .seq .busError region) (hengine : u.seq = t.acc) : t.Matches u region := by
  obtain ⟨hterr, htcode, htfault⟩ := ht.status
  obtain ⟨huerr, hucode, hufault⟩ := hu.status
  obtain ⟨hacc, hmark⟩ := ht.outside.others_match hu.outside
  exact ⟨hengine, hacc, huerr.trans hterr.symm, hucode.trans htcode.symm, hufault.trans htfault.symm, hmark,
    fun hne => absurd htcode hne, fun _ a ha => (hu.memory a ha).trans (ht.memory a ha).symm⟩

/-- Two commands with the same verdict end alike where their effects do: a failed check changes STATUS or the mark only (R272, R287). -/
theorem State.Matches.conclude (s : State) (v : Verdict) (h : t.Matches u region) :
    (s.conclude v t).Matches (s.swapEngines.conclude v u) region := by
  cases v with
  | pass => exact h
  | err c => exact ⟨rfl, rfl, rfl, rfl, rfl, rfl, fun _ => rfl, fun _ _ _ => rfl⟩
  | refuse m => exact ⟨rfl, rfl, rfl, rfl, rfl, rfl, fun _ => rfl, fun _ _ _ => rfl⟩

end

/-! ### The effects where no failure is drawn -/

/-- An engine that failed (R273, R31). -/
abbrev Engine.failed (x : Engine) : Engine := { x with st := .failed }

/-- An engine whose padded buffer is absorbed, as DIGEST holds it before its draw and its write (R174). -/
abbrev Engine.padded (x : Engine) : Engine := { x with lanes := absorbBlock x.rate x.lanes (pad x.rate x.buf) }

@[simp] theorem State.engineFails_engine (s : State) (e : EngineSel) (c : ErrCode) :
    (s.engineFails e c).engine e = (s.engine e).failed := by
  cases e <;> rfl

section
variable {e : EngineSel} {s : State}

theorem effectConstruct_completes (hdraw : (s.drawIf (e.draws .accAlloc)).1 = none) :
    s.Completes (effectConstruct e (e.draws .accAlloc) s) e (.fresh (Width.ofWord (s.arg 0))) s.mem :=
  ((effectConstruct_cases e s).resolve_right (by simp [hdraw])).2

theorem effectInit_completes (hdraw : (s.drawIf (e.draws .accInit)).1 = none) :
    s.Completes (effectInit e (e.draws .accInit) s) e (.fresh (s.engine e).width) s.mem :=
  ((effectInit_cases e s).resolve_right (by simp [hdraw])).2

theorem effectAdd_completes (hdraw : (s.drawIf (e.draws .accAdd)).1 = none) {data : List Byte}
    (hread : s.memRead 0 (s.argNat 0) (s.argNat 1) = some data) :
    s.Completes (effectAdd e (e.draws .accAdd) s) e ((s.engine e).afterAdd data) s.mem := by
  obtain ⟨data', hdata, hends⟩ := (effectAdd_cases e s).resolve_left (by simp [hread])
  cases hread.symm.trans hdata
  exact (hends.resolve_right (by simp [hdraw])).2

theorem effectAdd_fails (hread : s.memRead 0 (s.argNat 0) (s.argNat 1) = none) :
    s.FailsEngine (effectAdd e (e.draws .accAdd) s) e .busError (0, 0) :=
  ((effectAdd_cases e s).resolve_right (by simp [hread])).2

/-- A bus error of ADD comes before any block is absorbed (R173, R204). -/
theorem effectAdd_fails_engine (p : Option DrawPoint) (hread : s.memRead 0 (s.argNat 0) (s.argNat 1) = none) :
    (effectAdd e p s).engine e = (s.engine e).failed := by
  simp [effectAdd, hread]

theorem effectDigest_completes (hdraw : (s.drawIf (e.draws .accDigest)).1 = none)
    (hadm : s.platform.admitsAll (s.argNat 0) (s.engine e).dlen = true) :
    s.Completes (effectDigest e (e.draws .accDigest) s) e (s.engine e).afterDigest
      (s.mem.writeBytes (s.argNat 0) (s.engine e).digestBytes) := by
  obtain ⟨-, hends⟩ := (effectDigest_cases e s).resolve_right (by simp [hdraw])
  exact (hends.resolve_right (by simp [hadm])).2

theorem effectDigest_fails (hdraw : (s.drawIf (e.draws .accDigest)).1 = none)
    (hadm : s.platform.admitsAll (s.argNat 0) (s.engine e).dlen = false) :
    s.FailsEngine (effectDigest e (e.draws .accDigest) s) e .busError (s.argNat 0, (s.engine e).dlen) := by
  obtain ⟨-, hends⟩ := (effectDigest_cases e s).resolve_right (by simp [hdraw])
  exact (hends.resolve_left (by simp [hadm])).2

/-- A failure of DIGEST comes after the padded block is absorbed, and the buffer is not emptied (R174, R205). -/
theorem effectDigest_fails_engine : (effectDigest e (e.draws .accDigest) s).err = true →
    (effectDigest e (e.draws .accDigest) s).engine e = (s.engine e).padded.failed := by
  have hstart := (State.EngineStep.refl s e).setEngine (s.engine e).padded
  have hfails {t : State} (ht : s.EngineStep t e (s.engine e).padded s.mem) (c : ErrCode) :
      ((t.freeRegion (s.argNat 0) (s.engine e).dlen).engineFails e c).engine e = (s.engine e).padded.failed := by
    rw [State.engineFails_engine, (ht.freeRegion _ _).engine_eq]
  unfold effectDigest
  dsimp only
  split
  next c t hd => exact fun _ => hfails (hstart.drawIf hd) c
  next t hd =>
    split
    next => exact fun _ => hfails (hstart.drawIf hd) .busError
    next => exact nofun

end

/-! ### The effects in a state and in the exchanged one -/

section
variable {s : State}

theorem effectConstruct_matches (hdraw : (s.drawIf (some .accAlloc)).1 = none) (region : Nat × Nat) :
    (effectConstruct .acc (some .accAlloc) s).Matches (effectConstruct .seq none s.swapEngines) region :=
  (effectConstruct_completes (e := .acc) hdraw).matches (effectConstruct_completes (e := .seq) rfl) region

theorem effectInit_matches (hdraw : (s.drawIf (some .accInit)).1 = none) (region : Nat × Nat) :
    (effectInit .acc (some .accInit) s).Matches (effectInit .seq none s.swapEngines) region :=
  (effectInit_completes (e := .acc) hdraw).matches (effectInit_completes (e := .seq) rfl) region

/-- Both read before anything else, and a read does not depend on the engines. -/
theorem effectAdd_matches (hdraw : (s.drawIf (some .accAdd)).1 = none) :
    (effectAdd .acc (some .accAdd) s).Matches (effectAdd .seq none s.swapEngines) (0, 0) := by
  cases hread : s.memRead 0 (s.argNat 0) (s.argNat 1) with
  | none =>
    have hengine : (effectAdd .seq none s.swapEngines).seq = (effectAdd .acc (some .accAdd) s).acc :=
      (effectAdd_fails_engine (e := .seq) (s := s.swapEngines) none hread).trans (effectAdd_fails_engine (e := .acc) _ hread).symm
    exact (effectAdd_fails (e := .acc) hread).matches (effectAdd_fails (e := .seq) hread) hengine
  | some data => exact (effectAdd_completes (e := .acc) hdraw hread).matches (effectAdd_completes (e := .seq) rfl hread) _

/-- Both fail at the write if a byte of the output region is not admitted, with the padded block absorbed. -/
theorem effectDigest_matches (hdraw : (s.drawIf (some .accDigest)).1 = none) :
    (effectDigest .acc (some .accDigest) s).Matches (effectDigest .seq none s.swapEngines) (s.argNat 0, s.acc.dlen) := by
  cases hadm : s.platform.admitsAll (s.argNat 0) s.acc.dlen with
  | true => exact (effectDigest_completes (e := .acc) hdraw hadm).matches (effectDigest_completes (e := .seq) rfl hadm) _
  | false =>
    have hacc := effectDigest_fails (e := .acc) hdraw hadm
    have hseq := effectDigest_fails (e := .seq) (s := s.swapEngines) rfl hadm
    have hengine : (effectDigest .seq none s.swapEngines).seq = (effectDigest .acc (some .accDigest) s).acc :=
      (effectDigest_fails_engine (e := .seq) hseq.status.1).trans (effectDigest_fails_engine (e := .acc) hacc.status.1).symm
    exact hacc.matches hseq hengine

/-- Neither draws before it takes the free values that S and buf hold afterwards (R175), so both take the same. -/
theorem effectDestroy_matches (s : State) (region : Nat × Nat) :
    (effectDestroy .acc s).Matches (effectDestroy .seq s.swapEngines) region :=
  (effectDestroy_completes .acc s).matches (effectDestroy_completes .seq s.swapEngines) region

end

/-! ### The statement -/

/-- An ACC command and its SEQ command make the same checks of the exchanged states. -/
theorem exec_matches {s t u : State} {acc seq : Instr} {region : Nat × Nat} (ht : exec acc s = .next t)
    (hu : exec seq s.swapEngines = .next u) (hc : checksOf seq s.swapEngines = checksOf acc s)
    (h : (effectOf acc s).Matches (effectOf seq s.swapEngines) region) : t.Matches u region := by
  rw [exec_next ht, exec_next hu, hc]
  exact h.conclude s _

/-- Settles O39: checks and effects agree command by command. -/
theorem accMatchesSeq : Obligations.AccMatchesSeq := by
  intro s t u acc seq p hmem hnone ht hu
  have hdraw : (s.drawIf p).1 = none := hnone s.acc
  have hmatch : t.Matches u (outputRegion acc s) := by
    simp only [List.mem_cons, Prod.mk.injEq, List.not_mem_nil, or_false] at hmem
    rcases hmem with ⟨rfl, rfl, rfl⟩ | ⟨rfl, rfl, rfl⟩ | ⟨rfl, rfl, rfl⟩ | ⟨rfl, rfl, rfl⟩ | ⟨rfl, rfl, rfl⟩
    · exact exec_matches ht hu rfl (effectConstruct_matches hdraw _)
    · exact exec_matches ht hu rfl (effectInit_matches hdraw _)
    · exact exec_matches ht hu rfl (effectAdd_matches hdraw)
    · exact exec_matches ht hu rfl (effectDigest_matches hdraw)
    · exact exec_matches ht hu rfl (effectDestroy_matches s _)
  obtain ⟨hseq, hacc, herr, hcode, hfault, hmark, hm, hout⟩ := hmatch
  exact ⟨hseq, hacc, herr, hcode, hfault, hmark, hm, hout⟩

end Sys2Proof.Machine
end

section
/-! SUPPORT. The statements about BAT_CONSTRUCT, BAT_SIZE and BAT_DESTROY (R231, R246, R247), an empty BAT_CALCULATE (R241), and refill (R235). -/

namespace Sys2Proof.Machine

/-! ### BAT_CONSTRUCT -/

theorem freed_inactive (ls : List BatchLane) : ∀ l ∈ ls.map BatchLane.free, l.active = false :=
  List.forall_mem_map.2 fun _ _ => rfl

theorem checksBatConstruct_eq_pass {s : State} : checksBatConstruct s = .pass ↔
    s.lacksArgs .batConstruct = false ∧ s.bat.st = .unconstructed ∧ (Width.ofWord (s.arg 0)).isSome = true := by
  simp [checksBatConstruct, Verdict.first_eq_pass]

/-- ALLOC_FAILURE is the one failure that R276 lists for BAT_ALLOC. -/
theorem failureAt_batAlloc {a : EnvAnswer} {c : ErrCode} (h : failureAt .batAlloc a = some c) : c = .allocFailure := by
  cases a <;> cases h
  rfl

theorem State.draw_batAlloc {s : State} {c : ErrCode} (h : (s.draw .batAlloc).1 = some c) : c = .allocFailure := by
  unfold State.draw at h
  split at h <;> exact failureAt_batAlloc h

/-- Settles O42: the checks pass, and the one draw decides between the two ends of the effect. -/
theorem batConstructMakesReady : Obligations.BatConstructMakesReady := by
  rintro s w ⟨hargs, -⟩ hst hw
  have hwidth : Width.ofWord (s.arg 0) = some w := Width.ofWord_eq_some.2 hw
  have hexec := exec_of_pass (i := .batConstruct) (checksBatConstruct_eq_pass.2 ⟨hargs, hst, by simp [hwidth]⟩)
  have hkept := (State.BatWorking.refl s (0, 0)).outside
  obtain ⟨e, f, hstate⟩ := s.draw_state .batAlloc
  rcases hd : s.draw .batAlloc with ⟨_ | c, t⟩ <;> rw [hd] at hstate <;> subst hstate
  · have heffect : effectBatConstruct s = { s with
        bat := { st := .ready, width := some w, lanes := s.bat.lanes.map BatchLane.free }, env := e, free := f }.complete := by
      rw [effectBatConstruct, hd, hwidth]
    exact ⟨fun _ => ⟨_, hexec.trans (congrArg _ heffect), ⟨rfl, rfl, rfl⟩, rfl, rfl, List.length_map _, freed_inactive _, hkept, rfl,
      fun _ => rfl⟩, fun hne => absurd rfl hne⟩
  · obtain rfl : c = .allocFailure := State.draw_batAlloc (congrArg Prod.fst hd)
    have heffect : effectBatConstruct s = State.raise { s with env := e, free := f } .allocFailure := by
      rw [effectBatConstruct, hd]
    exact ⟨nofun, fun _ => ⟨_, hexec.trans (congrArg _ heffect), ⟨rfl, rfl, rfl⟩, rfl, hkept, rfl, fun _ => rfl⟩⟩

/-! ### BAT_SIZE and BAT_DESTROY -/

theorem checksBatSize_eq {s : State} (hargs : s.lacksArgs .batSize = false) : checksBatSize s =
    .first [.when (s.bat.st == .unconstructed) (.err .notConstructed), .when (s.bat.st == .failed) (.err .engineFailed)] := by
  rw [checksBatSize, argCheck_eq_pass.2 hargs, Verdict.first_pass]

/-- Settles O43: the lifecycle decides which check ends the command; in READY the effect writes RESULT. -/
theorem batSizeWritesCapacity : Obligations.BatSizeWritesCapacity := by
  rintro s ⟨hargs, -⟩
  have hcap : 1 ≤ s.platform.laneCapacity := Nat.le_add_left 1 _
  have hchecks := checksBatSize_eq hargs
  refine ⟨hcap, fun b hb => Nat.le_mul_of_pos_left _ (Nat.div_pos hb hcap), fun hst => ?_, fun hst => ?_, fun hst => ?_⟩ <;>
    rw [hst] at hchecks
  · exact ⟨_, exec_of_pass (i := .batSize) hchecks, ⟨rfl, rfl, rfl⟩, rfl, rfl, (State.BatWorking.refl s (0, 0)).outside, fun _ => rfl⟩
  · exact exec_of_err (i := .batSize) hchecks
  · exact exec_of_err (i := .batSize) hchecks

theorem checksBatDestroy_eq {s : State} (hargs : s.lacksArgs .batDestroy = false) :
    checksBatDestroy s = .when (s.bat.st == .unconstructed) (.err .notConstructed) := by
  rw [checksBatDestroy, argCheck_eq_pass.2 hargs, Verdict.first_pass]
  cases s.bat.st <;> rfl

/-- Settles O44: the one check is for a constructed engine, and the effect releases it. -/
theorem batDestroyReleases : Obligations.BatDestroyReleases := by
  rintro s ⟨hargs, -⟩
  have hchecks := checksBatDestroy_eq hargs
  refine ⟨fun hst => ?_, fun hst => exec_of_err (i := .batDestroy) (hchecks.trans (by simp [hst]))⟩
  exact ⟨_, exec_of_pass (i := .batDestroy) (hchecks.trans (by simp [hst])), ⟨rfl, rfl, rfl⟩, rfl, rfl, freed_inactive _,
    (State.BatWorking.refl s (0, 0)).outside, rfl, fun _ => rfl⟩

/-! ### An empty message list -/

theorem batRun_empty {s : State} (h : s.argNat 1 = 0) : batRun s = .ok s := if_pos h

/-- Settles O45: with no messages no region of the call has a byte, so its checks pass, and its run ends at once. -/
theorem batEmptyList : Obligations.BatEmptyList := by
  rintro s ⟨hargs, hrace⟩ hst h1 h3
  have hn : s.argNat 1 = 0 := by rw [State.argNat, h1]; rfl
  have hc : checksBatCalculate s = .pass :=
    checksBatCalculate_eq_pass.2 ⟨hargs, by simp [hst], by simp [hst], h1.trans h3.symm, by simp [hn, rangeOk]⟩
  refine (exec_of_pass (i := .batCalculate) hc).trans ?_
  change Host.Outcome.next (effectBatCalculate s) = _
  rw [effectBatCalculate_quiet hrace, batRun_empty hn]
  rfl

/-! ### Refill -/

section
variable {l : BatchLane} (ls : List BatchLane) (q : List Job)

theorem refill_cons_active (h : l.active = true) : refill (l :: ls) q = (l :: (refill ls q).1, (refill ls q).2) := by
  rw [refill.eq_def]
  exact if_pos h

theorem refill_cons_free (h : l.active = false) (job : Job) :
    refill (l :: ls) (job :: q) = (BatchLane.assign job :: (refill ls q).1, (refill ls q).2) := by
  simp [refill, h]

@[simp] theorem refill_nil_backlog : refill ls [] = (ls, []) := by
  induction ls with
  | nil => rfl
  | cons l ls ih => cases h : l.active <;> simp [refill, h, ih]

@[simp] theorem BatchLane.assign_active (job : Job) : (BatchLane.assign job).active = true := rfl

end

/-- Each lane after refill: an active lane as it was, a free lane as it was or newly assigned. -/
theorem refill_getElem? (ls : List BatchLane) (q : List Job) (j : Nat) {l m : BatchLane} (h : ls[j]? = some l)
    (h' : (refill ls q).1[j]? = some m) : m = l ∨ l.active = false ∧ m.active = true := by
  induction ls generalizing q j with
  | nil => simp at h
  | cons k ls ih =>
    cases hk : k.active with
    | true =>
      rw [refill_cons_active ls q hk] at h'
      cases j with
      | zero => simp_all
      | succ j => exact ih q j (by simpa using h) (by simpa using h')
    | false =>
      cases q with
      | nil => simp_all
      | cons job q =>
        rw [refill_cons_free ls q hk] at h'
        cases j with
        | zero =>
          obtain rfl : k = l := by simpa using h
          obtain rfl : BatchLane.assign job = m := by simpa using h'
          exact .inr ⟨hk, rfl⟩
        | succ j => exact ih q j (by simpa using h) (by simpa using h')

/-- The messages that the lanes newly take, in lane order, are the front of the backlog. -/
theorem refill_takes (ls : List BatchLane) (q : List Job) : ∃ taken, q = taken ++ (refill ls q).2 ∧
    ((ls.zip (refill ls q).1).filter fun p => !p.1.active && p.2.active).map Prod.snd = taken.map BatchLane.assign := by
  induction ls generalizing q with
  | nil => exact ⟨[], rfl, rfl⟩
  | cons k ls ih =>
    cases hk : k.active with
    | true =>
      rw [refill_cons_active ls q hk]
      obtain ⟨taken, hq, hz⟩ := ih q
      exact ⟨taken, hq, by simpa [hk] using hz⟩
    | false =>
      cases q with
      | nil =>
        obtain ⟨taken, hq, hz⟩ := ih []
        obtain rfl : taken = [] := (List.append_eq_nil_iff.1 hq.symm).1
        exact ⟨[], by simp, by simpa [hk] using hz⟩
      | cons job q =>
        rw [refill_cons_free ls q hk]
        obtain ⟨taken, hq, hz⟩ := ih q
        exact ⟨job :: taken, by rw [List.cons_append, ← hq], by simpa [hk] using hz⟩

/-- Below a lane newly assigned no lane stays free. -/
theorem refill_lowest (ls : List BatchLane) (q : List Job) {j k : Nat} {l m m' : BatchLane} (hjk : j < k) (hm : ls[k]? = some m)
    (hfree : m.active = false) (hm' : (refill ls q).1[k]? = some m') (hnew : m'.active = true)
    (hl : (refill ls q).1[j]? = some l) : l.active = true := by
  induction ls generalizing q j k with
  | nil => simp at hm
  | cons head ls ih =>
    obtain ⟨k, rfl⟩ : ∃ i, k = i + 1 := ⟨k - 1, by omega⟩
    have rest (q : List Job) (b : BatchLane) (hb : b.active = true) (hm' : (b :: (refill ls q).1)[k + 1]? = some m')
        (hl : (b :: (refill ls q).1)[j]? = some l) : l.active = true := by
      cases j with
      | zero =>
        obtain rfl : b = l := by simpa using hl
        exact hb
      | succ j => exact ih q (j := j) (k := k) (by omega) (by simpa using hm) (by simpa using hm') (by simpa using hl)
    cases hh : head.active with
    | true =>
      rw [refill_cons_active ls q hh] at hm' hl
      exact rest q head hh hm' hl
    | false =>
      cases q with
      | nil =>
        rw [refill_nil_backlog, hm] at hm'
        cases hm'
        simp [hfree] at hnew
      | cons job q =>
        rw [refill_cons_free ls q hh] at hm' hl
        exact rest q _ rfl hm' hl

/-- Settles O47: lane by lane refill keeps a lane or assigns it a message (`refill_getElem?`), from the front of the backlog (`refill_takes`) and from the
lowest lane up (`refill_lowest`), until one of the two runs out (`refill_full`). -/
theorem refillTakesBacklogInOrder : Obligations.RefillTakesBacklogInOrder := by
  intro ls q
  have hlen := refill_length ls q
  refine ⟨hlen, fun j l hj ha => ?_, refill_takes ls q, fun j k l m m' hjk hm hfree hm' hnew hl =>
    refill_lowest ls q hjk hm hfree hm' hnew hl, fun j l hj hfree => ?_, or_iff_not_imp_left.2 refill_full⟩
  · have hlt : j < (refill ls q).1.length := hlen ▸ (List.getElem?_eq_some_iff.1 hj).1
    rcases refill_getElem? ls q j hj (List.getElem?_eq_getElem hlt) with h | ⟨hf, -⟩
    · rw [List.getElem?_eq_getElem hlt, h]
    · simp [ha] at hf
  · have hlt : j < ls.length := hlen ▸ (List.getElem?_eq_some_iff.1 hj).1
    rcases refill_getElem? ls q j (List.getElem?_eq_getElem hlt) hj with h | ⟨-, hn⟩
    · rw [List.getElem?_eq_getElem hlt, h]
    · simp [hfree] at hn

end Sys2Proof.Machine
end

section
/-! SUPPORT. The draws of a batch call, answered from `env` (R276): as far as no bus error ends it, the scheduler ends as the draws of `callPoints` do. -/

namespace Sys2Proof.Machine

/-! ### A list of draws -/

/-- The answers left after draws at some points, or the failure of the first that fails; no code where the list of answers ends before the draws do, since
the oracle of Config answers then. -/
def takeDraws : List DrawPoint → List EnvAnswer → Except (Option ErrCode) (List EnvAnswer)
  | [], env => .ok env
  | _ :: _, [] => .error none
  | p :: points, a :: env =>
    match failureAt p a with
    | none => takeDraws points env
    | some c => .error (some c)

theorem takeDraws_cons_none {p : DrawPoint} {a : EnvAnswer} (h : failureAt p a = none) (points : List DrawPoint)
    (env : List EnvAnswer) : takeDraws (p :: points) (a :: env) = takeDraws points env := by
  rw [takeDraws, h]

theorem takeDraws_cons_some {p : DrawPoint} {a : EnvAnswer} {c : ErrCode} (h : failureAt p a = some c) (points : List DrawPoint)
    (env : List EnvAnswer) : takeDraws (p :: points) (a :: env) = .error (some c) := by
  rw [takeDraws, h]

@[simp] theorem failureAt_noFailure (p : DrawPoint) : failureAt p .noFailure = none := by cases p <;> rfl

/-- Draws that no answer fails take one answer each. -/
theorem takeDraws_noFailure {points : List DrawPoint} {k : Nat} (h : points.length ≤ k) (rest : List EnvAnswer) :
    takeDraws points (List.replicate k .noFailure ++ rest) = .ok (List.replicate (k - points.length) .noFailure ++ rest) := by
  induction points generalizing k with
  | nil => rfl
  | cons p points ih =>
    obtain ⟨k, rfl⟩ : ∃ i, k = i + 1 := ⟨k - 1, by simp only [List.length_cons] at h; omega⟩
    rw [List.replicate_succ, List.cons_append, takeDraws_cons_none (failureAt_noFailure p), ih (by simpa using h)]
    simp

/-- The first answer that fails a draw is its failure, whatever stands behind it. -/
theorem takeDraws_firstFailure {points : List DrawPoint} {k : Nat} {p : DrawPoint} {a : EnvAnswer} {c : ErrCode}
    (hp : points[k]? = some p) (ha : failureAt p a = some c) (rest : List EnvAnswer) :
    takeDraws points (List.replicate k .noFailure ++ a :: rest) = .error (some c) := by
  induction points generalizing k with
  | nil => simp at hp
  | cons head points ih =>
    cases k with
    | zero =>
      obtain rfl : head = p := by simpa using hp
      exact takeDraws_cons_some ha points rest
    | succ k =>
      rw [List.replicate_succ, List.cons_append, takeDraws_cons_none (failureAt_noFailure head)]
      exact ih (by simpa using hp)

/-! ### A stage of the scheduler and its draws -/

/-- A stage whose draws are `all` before `rest` ends as they do, unless a bus error ends it (R69) or the list of answers is too short: in success the draws
still to come are answered from what is left in the state it ends with. -/
def Answered {α : Type} (all rest : List DrawPoint) (env : List EnvAnswer) (f : α → State) (r : Except (ErrCode × State) α) : Prop :=
  takeDraws all env ≠ .error none →
    match r with
    | .ok x => takeDraws all env = takeDraws rest (f x).env
    | .error e => e.1 = .busError ∨ takeDraws all env = .error (some e.1)

section
variable {α β : Type} {all mid rest : List DrawPoint} {env : List EnvAnswer} {f : α → State} {g : β → State}

theorem Answered.done (all : List DrawPoint) (f : α → State) (x : α) : Answered all all (f x).env f (.ok x) := fun _ => rfl

theorem Answered.busError (t : State) : Answered all rest env f (.error (.busError, t)) := fun _ => .inl rfl

theorem Answered.error {e : ErrCode × State} (h : Answered all mid env f (.error e)) : Answered all rest env g (.error e) := h

/-- A stage after a stage that succeeded. -/
theorem Answered.trans {x : α} {r : Except (ErrCode × State) β} (h : Answered all mid env f (.ok x))
    (h' : Answered mid rest (f x).env g r) : Answered all rest env g r := by
  intro hd
  have he : takeDraws all env = takeDraws mid (f x).env := h hd
  rw [he] at hd ⊢
  exact h' hd

/-- A draw that fails ends the stage. -/
theorem Answered.draw_some {s t : State} {p : DrawPoint} {c : ErrCode} (h : s.draw p = (some c, t)) :
    Answered (p :: all) rest s.env f (.error (c, t)) := by
  intro hd
  unfold State.draw at h
  split at h
  next a env he =>
    have ha : failureAt p a = some c := congrArg Prod.fst h
    rw [he]
    exact .inr (takeDraws_cons_some ha all env)
  next he => exact absurd (by rw [he]; rfl) hd

/-- After a draw that does not fail come the others. -/
theorem Answered.draw_none {s t : State} {p : DrawPoint} {r : Except (ErrCode × State) α} (h : s.draw p = (none, t))
    (h' : Answered all rest t.env f r) : Answered (p :: all) rest s.env f r := by
  intro hd
  unfold State.draw at h
  split at h
  next a env he =>
    obtain ⟨ha, rfl⟩ := Prod.mk.inj h
    rw [he, takeDraws_cons_none ha] at hd ⊢
    exact h' hd
  next he => exact absurd (by rw [he]; rfl) hd

end

/-! ### The stages -/

/-- Retiring draws once for each lane whose last block is absorbed (R239). -/
theorem retire_answered (dst d : Nat) (ls : List BatchLane) (s : State) (points : List DrawPoint) :
    Answered (List.replicate (ls.countP fun l => l.active && l.final) .batReadback ++ points) points s.env Prod.snd
      (retire dst d ls s) := by
  induction ls generalizing s with
  | nil => exact .done points Prod.snd ([], s)
  | cons l ls ih =>
    unfold retire
    split
    next hl =>
      rw [List.countP_cons_of_pos (p := fun l : BatchLane => l.active && l.final) hl, List.replicate_succ, List.cons_append]
      split
      next hd => exact .draw_some hd
      next t hd =>
        refine .draw_none hd ?_
        split
        next => exact .busError t
        next u hu =>
          obtain ⟨-, rfl⟩ := State.memWrite_some hu
          have htail := ih { t with mem := Memory.writeBytes t.mem (dst + l.idx * dlen d) (squeeze l.lanes d) }
          split
          next he => rw [he] at htail; exact htail
          next he => rw [he] at htail; exact htail
    next hl =>
      rw [List.countP_cons_of_neg (p := fun l : BatchLane => l.active && l.final) hl]
      have htail := ih s
      split
      next he => rw [he] at htail; exact htail
      next he => rw [he] at htail; exact htail

/-- An iteration draws for its transfer, for its kernel, and for each lane with one block left (R237-R239). -/
theorem batIteration_answered {dst : Nat} {w : Option Width} {s : State} (hf : NoneFinal s.bat.lanes) (points : List DrawPoint) :
    Answered (.batTransfer :: .batKernel ::
        (List.replicate ((s.bat.lanes.map (laneWork (rate (widthBits w)))).count 1) .batReadback ++ points)) points s.env id
      (batIteration dst (widthBits w) s) := by
  unfold batIteration
  split
  next => exact .busError s
  next staged hg =>
    rw [← (gathered_counts (rate_widthBits_pos w) hf (gather_gathered hg)).2]
    split
    next hd => exact .draw_some (s := { s with free := s.free + 1 }) hd
    next t hd =>
      refine .draw_none (s := { s with free := s.free + 1 }) hd ?_
      split
      next hd => exact .draw_some hd
      next u hd =>
        refine .draw_none hd ?_
        have hretire := retire_answered dst (widthBits w) (staged.map (kernelLane (rate (widthBits w)))) u points
        split
        next he => rw [he] at hretire; exact hretire
        next he => rw [he] at hretire; exact hretire

/-- After an iteration every active lane has one block less to gather, and refill gives free lanes theirs. -/
theorem batIteration_counts {dst : Nat} {w : Option Width} {s t : State} (hf : NoneFinal s.bat.lanes)
    (h : batIteration dst (widthBits w) s = .ok t) (q : List Job) :
    NoneFinal t.bat.lanes ∧
      refillCounts ((s.bat.lanes.map (laneWork (rate (widthBits w)))).map (· - 1)) (q.map fun job => blocksOf (rate (widthBits w)) job.len) =
        ((refill t.bat.lanes q).1.map (laneWork (rate (widthBits w))),
          (refill t.bat.lanes q).2.map fun job => blocksOf (rate (widthBits w)) job.len) := by
  obtain ⟨ls, u, v, hg, -, -, rfl⟩ := batIteration_ok h
  refine ⟨settled_noneFinal ls, ?_⟩
  rw [← (gathered_counts (rate_widthBits_pos w) hf hg).1]
  exact refill_counts _ _ _

/-- The loop makes the draws of `drawPoints`. -/
theorem batLoop_answered {dst : Nat} {w : Option Width} (fuel : Nat) (q : List Job) {s : State} (hf : NoneFinal s.bat.lanes) :
    Answered (drawPoints fuel (s.bat.lanes.map (laneWork (rate (widthBits w)))) (q.map fun job => blocksOf (rate (widthBits w)) job.len))
      [] s.env id (batLoop dst (widthBits w) fuel q s) := by
  induction fuel generalizing q s with
  | zero => exact .done [] id s
  | succ fuel ih =>
    unfold batLoop drawPoints
    rw [anyActive_counts]
    cases ha : anyActive s.bat.lanes with
    | false => exact .done [] id s
    | true =>
      simp only [Bool.not_true, Bool.false_eq_true, if_false, if_true]
      have hiter := batIteration_answered (dst := dst) (w := w) hf
      split
      next he =>
        rw [he] at hiter
        exact (hiter _).error
      next t he =>
        obtain ⟨hnone, hcounts⟩ := batIteration_counts hf he q
        rw [he] at hiter
        rw [hcounts]
        exact (hiter _).trans (ih _ (s := t.setLanes (refill t.bat.lanes q).1) (refill_noneFinal q hnone))

/-! ### The whole call -/

/-- Refill moves blocks from the backlog to the lanes. -/
theorem refillCounts_sum (bs q : List Nat) : (refillCounts bs q).1.sum + (refillCounts bs q).2.sum = bs.sum + q.sum := by
  fun_induction refillCounts bs q with
  | case1 q => rfl
  | case2 bs => rfl
  | case3 bs k q ih => simp only [List.sum_cons]; omega
  | case4 b bs q ih => simp only [List.sum_cons]; omega

/-- The work of a call before its first iteration is the blocks of its messages (R249). -/
theorem workLeft_refill (r : Nat) (ls : List BatchLane) (q : List Job) :
    workLeft r (refill ls q).1 (refill ls q).2 = (ls.map (laneWork r)).sum + (q.map fun job => blocksOf r job.len).sum := by
  rw [workLeft_eq, ← refillCounts_sum (ls.map (laneWork r)), refill_counts]

/-- A call on free lanes makes the draws of `callPoints`. -/
theorem batSchedule_answered {dst : Nat} {w : Option Width} (jobs : List Job) {s : State} (hidle : ∀ l ∈ s.bat.lanes, l.active = false) :
    Answered (callPoints s.bat.lanes.length (jobs.map fun job => blocksOf (rate (widthBits w)) job.len)) [] s.env id
      (batSchedule dst (widthBits w) jobs s) := by
  have hf : NoneFinal s.bat.lanes := fun l hl ha => by simp [hidle l hl] at ha
  have hcounts := refill_counts (rate (widthBits w)) s.bat.lanes jobs
  unfold batSchedule callPoints
  dsimp only
  rw [workLeft_refill, ← free_counts (rate (widthBits w)) hidle, hcounts, free_counts _ hidle, List.sum_replicate, smul_zero, zero_add]
  exact batLoop_answered _ _ (s := s.setLanes (refill s.bat.lanes jobs).1) (refill_noneFinal jobs hf)

/-- Refill makes no lane busy that takes no message. -/
theorem refillCounts_busy (bs q : List Nat) :
    (refillCounts bs q).1.countP (· != 0) + (refillCounts bs q).2.length ≤ bs.countP (· != 0) + q.length := by
  fun_induction refillCounts bs q with
  | case1 q => exact le_rfl
  | case2 bs => exact le_rfl
  | case3 bs k q ih => simp only [List.countP_cons, List.length_cons, bne_self_eq_false]; split <;> omega
  | case4 b bs q ih => simp only [List.countP_cons, Nat.succ_eq_add_one]; omega

/-- A lane is busy for the iterations to come unless it gathers its last block in this one. -/
theorem countP_busy (bs : List Nat) : bs.countP (· != 0) = (bs.map (· - 1)).countP (· != 0) + bs.count 1 := by
  induction bs with
  | nil => rfl
  | cons b bs ih =>
    simp only [List.map_cons, List.countP_cons, List.count_cons, ih]
    rcases b with _ | _ | b <;> simp <;> omega

/-- Each iteration draws twice, and each message once more, when its lane retires. -/
theorem length_drawPoints (fuel : Nat) (lanes q : List Nat) :
    (drawPoints fuel lanes q).length ≤ 2 * fuel + lanes.countP (· != 0) + q.length := by
  induction fuel generalizing lanes q with
  | zero => simp [drawPoints]
  | succ fuel ih =>
    unfold drawPoints
    split
    · simp
    · have hbusy := refillCounts_busy (lanes.map (· - 1)) q
      have hlanes := countP_busy lanes
      have hrest := ih (refillCounts (lanes.map (· - 1)) q).1 (refillCounts (lanes.map (· - 1)) q).2
      simp only [List.length_cons, List.length_append, List.length_replicate]
      omega

/-- A call takes no more draws than its blocks and messages allow (R249, R315). -/
theorem length_callPoints (capacity : Nat) (blocks : List Nat) : (callPoints capacity blocks).length ≤ 2 * blocks.sum + blocks.length := by
  have hbusy := refillCounts_busy (List.replicate capacity 0) blocks
  have hpoints := length_drawPoints blocks.sum (refillCounts (List.replicate capacity 0) blocks).1
    (refillCounts (List.replicate capacity 0) blocks).2
  have hfree : (List.replicate capacity 0).countP (· != 0) = 0 := by simp [List.countP_replicate]
  unfold callPoints
  dsimp only
  omega

end Sys2Proof.Machine
end

section
/-! SUPPORT. The messages of a batch call on their way through the lanes (R232-R240): what the lanes, the backlog and the output region hold of them after each
stage, that a successful call has written every digest (R244, R248), and that one whose bytes are all admitted ends in no bus error. -/

namespace Sys2Proof.Machine

/-! ### Regions -/

theorem admitsAll_add (p : Platform) (a n m : Nat) : p.admitsAll a (n + m) = (p.admitsAll a n && p.admitsAll (a + n) m) := by
  rw [Platform.admitsAll, ← List.range'_append_1, List.all_append]
  rfl

/-- A part of an admitted region is admitted. -/
theorem admitsAll_part {p : Platform} {a n k l : Nat} (h : p.admitsAll a n = true) (hl : k + l ≤ n) : p.admitsAll (a + k) l = true := by
  obtain ⟨m, rfl⟩ := Nat.exists_eq_add_of_le hl
  rw [admitsAll_add, admitsAll_add, Bool.and_eq_true, Bool.and_eq_true] at h
  exact h.1.2

/-- A region of `n` slots is admitted if each of them is. -/
theorem admitsAll_slots {p : Platform} {a dl n : Nat} (h : ∀ i < n, p.admitsAll (a + i * dl) dl = true) : p.admitsAll a (n * dl) = true := by
  induction n with
  | zero => rw [Nat.zero_mul]; rfl
  | succ n ih => rw [Nat.succ_mul, admitsAll_add, ih fun i hi => h i (by omega), h n (by omega)]; rfl

/-- A region that the changed bytes do not overlap reads as before. -/
theorem State.SameMemoryOutside.readBytes_eq {s u : State} {a n b m : Nat} (h : s.SameMemoryOutside u (a, n))
    (ho : overlaps a n b m = false) : u.mem.readBytes b m = s.mem.readBytes b m := by
  have hapart : 0 < n → 0 < m → a < b + m → a + n ≤ b := by simpa [overlaps] using ho
  refine Memory.readBytes_congr fun c hc hcm => h c fun ⟨hac, hcn⟩ => ?_
  dsimp only at hac hcn
  omega

/-- Two slots of a region are apart. -/
theorem slots_apart {dl i j : Nat} (h : i ≠ j) : i * dl + dl ≤ j * dl ∨ j * dl + dl ≤ i * dl := by
  rw [← Nat.succ_mul, ← Nat.succ_mul]
  exact (Nat.lt_or_gt_of_ne h).imp (Nat.mul_le_mul_right dl) (Nat.mul_le_mul_right dl)

/-! ### Descriptors by index -/

theorem memoryJobs_getElem?_idx {s : State} {i : Nat} {job : Job} (h : (memoryJobs s)[i]? = some job) : job.idx = i := by
  obtain ⟨hlen, hget⟩ := memoryJobs_descriptors s
  have hi := (List.getElem?_eq_some_iff.1 h).1
  rw [hget i (hlen ▸ hi)] at h
  rw [← Option.some.inj h]

theorem mem_memoryJobs {s : State} {job : Job} : job ∈ memoryJobs s ↔ (memoryJobs s)[job.idx]? = some job := by
  refine ⟨fun h => ?_, List.mem_of_getElem?⟩
  obtain ⟨i, hi⟩ := List.mem_iff_getElem?.1 h
  rwa [memoryJobs_getElem?_idx hi]

theorem memoryJobs_idx_lt {s : State} {job : Job} (h : job ∈ memoryJobs s) : job.idx < s.argNat 1 := by
  simpa using (List.getElem?_eq_some_iff.1 (mem_memoryJobs.1 h)).1

/-! ### What a call needs and what it holds -/

/-- A call of a state of the invariant whose checks on its output region have passed (R234, R310). -/
structure CallChecked (s : State) : Prop where
  inv : s.Inv
  out : rangeOk (s.argNat 4) (s.argNat 1 * s.bat.dlen) = true
  apart : ∀ job ∈ memoryJobs s, overlaps (s.argNat 4) (s.argNat 1 * s.bat.dlen) job.ptr job.len = false

/-- Every byte that a call reads of its messages or writes is admitted (R69). -/
structure CallAdmitted (s : State) : Prop where
  messages : ∀ job ∈ memoryJobs s, s.platform.admitsAll job.ptr job.len = true
  out : s.platform.admitsAll (s.argNat 4) (s.argNat 1 * s.bat.dlen) = true

/-- The bytes of a message when the call begins. -/
def Job.message (job : Job) (s : State) : List Byte := s.mem.readBytes job.ptr job.len

@[simp] theorem Job.length_message (job : Job) (s : State) : (job.message s).length = job.len := Memory.length_readBytes _ _ _

/-- An active lane between iterations: it carries its message, of which it has gathered some blocks (R236). -/
def LaneCarries (s : State) (l : BatchLane) : Prop :=
  ∃ job, (memoryJobs s)[l.idx]? = some job ∧ ∃ k, CarriesMessage s.bat.rate (job.message s) job.ptr k l ∧
    s.platform.admitsAll job.ptr (s.bat.rate * k) = true

/-- A lane that is to be retired: its state squeezes to the digest of its message, which it has read completely (R239). -/
def LaneDigested (s : State) (l : BatchLane) : Prop :=
  ∃ job, (memoryJobs s)[l.idx]? = some job ∧ squeeze l.lanes (widthBits s.bat.width) = sha3 (widthBits s.bat.width) (job.message s) ∧
    s.platform.admitsAll job.ptr job.len = true

/-- An active lane after gather and kernel. -/
def LaneStaged (s : State) (l : BatchLane) : Prop := l.final = false ∧ LaneCarries s l ∨ l.final = true ∧ LaneDigested s l

/-- A message whose digest stands in a memory at its index (R244), with every byte of the two admitted. -/
structure JobDone (s : State) (m : Memory) (job : Job) : Prop where
  digest : m.readBytes (s.argNat 4 + job.idx * s.bat.dlen) s.bat.dlen = sha3 (widthBits s.bat.width) (job.message s)
  messageAdmitted : s.platform.admitsAll job.ptr job.len = true
  slotAdmitted : s.platform.admitsAll (s.argNat 4 + job.idx * s.bat.dlen) s.bat.dlen = true

/-- A call that began in `s` has reached `u` with a backlog: each message is done, waits, or is in an active lane. -/
structure CallProgress (s u : State) (q : List Job) : Prop where
  only : OnlyBat s u (s.argNat 4) (s.argNat 1 * s.bat.dlen)
  length : u.bat.lanes.length = s.platform.laneCapacity
  carried : ∀ l ∈ u.bat.lanes, l.active = true → LaneCarries s l
  backlog : ∀ job ∈ q, job ∈ memoryJobs s
  covered : ∀ job ∈ memoryJobs s, JobDone s u.mem job ∨ job ∈ q ∨ ∃ l ∈ u.bat.lanes, l.active = true ∧ l.idx = job.idx

theorem OnlyBat.wf {s t : State} {a n : Nat} (h : OnlyBat s t a n) (hm : Memory.wf s.mem) : Memory.wf t.mem := by
  obtain ⟨v, ls, ho, rfl⟩ := h
  exact ho.wf hm

theorem OnlyBat.platform {s t : State} {a n : Nat} (h : OnlyBat s t a n) : t.platform = s.platform := by
  obtain ⟨-, -, -, hp, -⟩ := h.sameOutsideUnits.host
  exact hp

theorem OnlyBat.race {s t : State} {a n : Nat} (h : OnlyBat s t a n) : t.race = s.race := by
  obtain ⟨-, -, -, -, -, -, hr⟩ := h.sameOutsideUnits.host
  exact hr

/-! ### Gather and kernel on a lane -/

section
variable {s u : State} (hc : CallChecked s) (ho : OnlyBat s u (s.argNat 4) (s.argNat 1 * s.bat.dlen))
include hc ho

/-- Since no message overlaps the output region, a gather reads the message as it was when the call began. -/
theorem memRead_message {job : Job} (hjob : job ∈ memoryJobs s) {reader k n : Nat} (hk : k + n ≤ job.len) {b : List Byte}
    (h : u.memRead reader (job.ptr + k) n = some b) : b = ((job.message s).drop k).take n ∧ s.platform.admitsAll (job.ptr + k) n = true := by
  obtain ⟨-, hrace⟩ := State.inv_iff.1 hc.inv
  rw [State.memRead_quiet (ho.race.trans hrace), ho.platform] at h
  split at h
  next ha =>
    refine ⟨?_, ha⟩
    rw [← Option.some.inj h, Job.message, ← ho.batWorking.memory.readBytes_eq (hc.apart job hjob), Memory.take_drop_readBytes _ hk]
  next => cases h

/-- An active lane gathers and absorbs its next block; if it is the last, its message's digest is ready (R236, R238). -/
theorem laneCarries_gathered {l : BatchLane} (hl : LaneCarries s l) (ha : l.active = true) {reader : Nat}
    {staged : BatchLane × List Byte} (hg : gatherLane u s.bat.rate reader l = some staged) :
    (kernelLane s.bat.rate staged).active = true ∧ (kernelLane s.bat.rate staged).idx = l.idx ∧
      LaneStaged s (kernelLane s.bat.rate staged) := by
  obtain ⟨job, hjob, k, hcar, hadm⟩ := hl
  have hrem := hcar.rem
  have hwithin := hcar.within
  rw [Job.length_message] at hrem hwithin
  rcases gatherLane_spec hg with ⟨hna, -⟩ | ⟨-, hr, b, hb, e⟩ | ⟨-, hr, m, hm, e⟩
  · simp [ha] at hna
  · rw [hcar.cur] at hb
    obtain ⟨rfl, hadm'⟩ := memRead_message hc ho (List.mem_of_getElem? hjob) (by omega) hb
    have hnext := advance_carries hcar hr
    rw [e]
    refine ⟨by simp [ha], by simp, .inl ⟨hnext.notFinal, job, by simpa using hjob, k + 1, hnext, ?_⟩⟩
    rw [Nat.mul_succ, admitsAll_add, hadm, hadm']
    rfl
  · rw [hcar.cur] at hm
    obtain ⟨rfl, hadm'⟩ := memRead_message hc ho (List.mem_of_getElem? hjob) (by omega) hm
    rw [e, List.take_of_length_le (by rw [List.length_drop, Job.length_message]; omega)]
    obtain ⟨hfinal, hdigest⟩ := advance_digest (d := widthBits s.bat.width) hcar hr
    refine ⟨by simp [ha], by simp, .inr ⟨hfinal, job, by simpa using hjob, hdigest, ?_⟩⟩
    rw [show job.len = s.bat.rate * k + l.rem by omega, admitsAll_add, hadm, hadm']
    rfl

/-- Where every byte is admitted no gather fails (R236). -/
theorem gatherLane_ne_none (hadm : CallAdmitted s) {l : BatchLane} (hl : l.active = true → LaneCarries s l) (reader : Nat) :
    gatherLane u s.bat.rate reader l ≠ none := by
  obtain ⟨-, hrace⟩ := State.inv_iff.1 hc.inv
  have hread (hl : LaneCarries s l) {n : Nat} (hn : n ≤ l.rem) : u.memRead reader l.cur n ≠ none := by
    obtain ⟨job, hjob, k, hcar, -⟩ := hl
    have hrem := hcar.rem
    have hwithin := hcar.within
    rw [Job.length_message] at hrem hwithin
    have hpart := admitsAll_part (hadm.messages job (List.mem_of_getElem? hjob)) (k := s.bat.rate * k) (l := n) (by omega)
    rw [State.memRead_quiet (ho.race.trans hrace), ho.platform, hcar.cur, if_pos hpart]
    nofun
  unfold gatherLane
  split
  next ha =>
    split
    next hr =>
      obtain ⟨b, hb⟩ := Option.ne_none_iff_exists'.1 (hread (hl ha) hr)
      simp [hb]
    next =>
      obtain ⟨m, hm⟩ := Option.ne_none_iff_exists'.1 (hread (hl ha) le_rfl)
      simp [hm]
  next => nofun

end

theorem gather_ne_none {u : State} {r : Nat} {ls : List BatchLane} (h : ∀ l ∈ ls, ∀ reader, gatherLane u r reader l ≠ none) (j : Nat) :
    gather u r j ls ≠ none := by
  induction ls generalizing j with
  | nil => nofun
  | cons l ls ih =>
    rw [List.forall_mem_cons] at h
    unfold gather
    split
    · nofun
    next hnone =>
      obtain ⟨x, hx⟩ := Option.ne_none_iff_exists'.1 (h.1 (j + 2))
      obtain ⟨xs, hxs⟩ := Option.ne_none_iff_exists'.1 (ih h.2 (j + 1))
      exact absurd hxs (hnone x xs hx)

/-- Each lane after gather and kernel comes from one before them. -/
theorem Gathered.of_mem_right {s : State} {r : Nat} {ls ls' : List BatchLane} (h : Gathered s r ls ls') {l' : BatchLane} (hl : l' ∈ ls') :
    ∃ l ∈ ls, ∃ reader staged, gatherLane s r reader l = some staged ∧ l' = kernelLane r staged := by
  induction h with
  | nil => simp at hl
  | cons reader staged h h' _ ih =>
    rcases List.mem_cons.1 hl with rfl | hl
    · exact ⟨_, List.mem_cons_self, reader, staged, h, h'⟩
    · obtain ⟨k, hk, hrest⟩ := ih hl
      exact ⟨k, List.mem_cons_of_mem _ hk, hrest⟩

/-- Each lane before them gives one after them. -/
theorem Gathered.of_mem_left {s : State} {r : Nat} {ls ls' : List BatchLane} (h : Gathered s r ls ls') {l : BatchLane} (hl : l ∈ ls) :
    ∃ reader staged, gatherLane s r reader l = some staged ∧ kernelLane r staged ∈ ls' := by
  induction h with
  | nil => simp at hl
  | cons reader staged h h' _ ih =>
    rcases List.mem_cons.1 hl with rfl | hl
    · exact ⟨reader, staged, h, h' ▸ List.mem_cons_self⟩
    · obtain ⟨reader, staged, hg, hm⟩ := ih hl
      exact ⟨reader, staged, hg, List.mem_cons_of_mem _ hm⟩

theorem gatherLane_inactive {s : State} {r reader : Nat} {l : BatchLane} {staged : BatchLane × List Byte}
    (h : gatherLane s r reader l = some staged) (ha : l.active = false) : kernelLane r staged = l := by
  rcases gatherLane_spec h with ⟨-, e⟩ | ⟨ht, -⟩ | ⟨ht, -⟩
  · exact e
  · simp [ha] at ht
  · simp [ha] at ht

/-! ### Retiring -/

theorem State.draw_keeps {s t : State} {p : DrawPoint} {a : Option ErrCode} (h : s.draw p = (a, t)) :
    t.platform = s.platform ∧ t.mem = s.mem := by
  obtain ⟨e, f, ht⟩ := s.draw_state p
  rw [h] at ht
  subst ht
  exact ⟨rfl, rfl⟩

theorem State.memWrite_platform {s t : State} {a : Nat} {bs : List Byte} (h : s.memWrite a bs = some t) : t.platform = s.platform := by
  obtain ⟨-, rfl⟩ := State.memWrite_some h
  rfl

theorem State.memWrite_wf {s t : State} {a : Nat} {bs : List Byte} (h : s.memWrite a bs = some t) (hm : Memory.wf s.mem) :
    Memory.wf t.mem := by
  obtain ⟨-, rfl⟩ := State.memWrite_some h
  exact Memory.writeBytes_wf _ _ hm

/-- No draw answers BUS_ERROR (R276). -/
theorem State.draw_ne_busError {s : State} {p : DrawPoint} {c : ErrCode} (h : (s.draw p).1 = some c) : c ≠ .busError := by
  have hf (a : EnvAnswer) (h : failureAt p a = some c) : c ≠ .busError := by
    rintro rfl
    cases p <;> cases a <;> cases h
  unfold State.draw at h
  split at h <;> exact hf _ h

/-- An address operand and a region that begins there (R68). -/
theorem argNat_add_le {s : State} {k : Fin 5} {n : Nat} (h : rangeOk (s.argNat k) n = true) : s.argNat k + n ≤ 2 ^ 64 := by
  have hlt : s.argNat k < 2 ^ 64 := (s.arg k).isLt
  rcases Nat.eq_zero_or_pos n with rfl | hn
  · omega
  · exact rangeOk_le h hn

section
variable {s : State} (hc : CallChecked s)
include hc

/-- A lane that is retired writes the digest of its message; digests in other slots stay, and the slot it writes can be no other message's. -/
theorem JobDone.write {u v : State} {l : BatchLane} (hp : u.platform = s.platform) (hm : Memory.wf u.mem) (hl : LaneDigested s l)
    (hw : u.memWrite (s.argNat 4 + l.idx * s.bat.dlen) (squeeze l.lanes (widthBits s.bat.width)) = some v) {job : Job}
    (hjob : job ∈ memoryJobs s) (h : JobDone s u.mem job ∨ l.idx = job.idx) : JobDone s v.mem job := by
  obtain ⟨hadm, rfl⟩ := State.memWrite_some hw
  rw [hp] at hadm
  have hlen : (squeeze l.lanes (widthBits s.bat.width)).length = s.bat.dlen := length_squeeze _ _
  by_cases heq : l.idx = job.idx
  · obtain ⟨j, hj, hsq, hmsg⟩ := hl
    rw [heq, mem_memoryJobs.1 hjob] at hj
    cases hj
    have hout := argNat_add_le hc.out
    obtain ⟨-, hslot⟩ := slot_inside (dst := s.argNat 4) (dl := s.bat.dlen) (memoryJobs_idx_lt hjob)
    have hread := Memory.readBytes_writeBytes u.mem (s.argNat 4 + job.idx * s.bat.dlen) _ hm (by rw [hlen]; exact hslot.trans hout)
    rw [hlen] at hread hadm
    rw [heq] at hadm ⊢
    exact ⟨hread.trans hsq, hmsg, hadm⟩
  · obtain ⟨hdigest, hmsg, hslot⟩ := h.resolve_right heq
    have hapart := slots_apart (dl := s.bat.dlen) heq
    refine ⟨(Memory.readBytes_congr fun b hb hbn => ?_).trans hdigest, hmsg, hslot⟩
    exact Memory.read_writeBytes_outside _ _ _ (by rw [hlen]; omega)

/-- A successful `retire` writes the digest of every lane it retires and keeps those that stand. -/
theorem retire_done {ls ls' : List BatchLane} {u v : State} (hp : u.platform = s.platform) (hm : Memory.wf u.mem)
    (hls : ∀ l ∈ ls, l.active = true → l.final = true → LaneDigested s l)
    (hr : retire (s.argNat 4) (widthBits s.bat.width) ls u = .ok (ls', v)) {job : Job} (hjob : job ∈ memoryJobs s)
    (h : JobDone s u.mem job ∨ ∃ l ∈ ls, l.active = true ∧ l.final = true ∧ l.idx = job.idx) : JobDone s v.mem job := by
  induction ls generalizing u ls' with
  | nil =>
    cases hr
    simpa using h
  | cons l ls ih =>
    rw [List.forall_mem_cons] at hls
    unfold retire at hr
    split at hr
    next hl =>
      obtain ⟨ha, hf⟩ : l.active = true ∧ l.final = true := by simpa using hl
      split at hr
      · cases hr
      next t hd =>
        obtain ⟨hpt, hmt⟩ := State.draw_keeps hd
        rw [← hpt] at hp
        rw [← hmt] at hm h
        split at hr
        · cases hr
        next w hw =>
          have hstep := JobDone.write hc hp hm (hls.1 ha hf) hw hjob
          split at hr
          · cases hr
          next he =>
            cases hr
            refine ih ((State.memWrite_platform hw).trans hp) (State.memWrite_wf hw hm) hls.2 he ?_
            rw [List.exists_mem_cons_iff] at h
            rcases h with h | ⟨-, -, hi⟩ | h
            · exact .inl (hstep (.inl h))
            · exact .inl (hstep (.inr hi))
            · exact .inr h
    next hl =>
      split at hr
      · cases hr
      next he =>
        cases hr
        refine ih hp hm hls.2 he (h.imp_right fun h => ?_)
        rw [List.exists_mem_cons_iff] at h
        exact h.resolve_left fun ⟨ha, hf, _⟩ => hl (by simp [ha, hf])

end

/-- Where the output region is admitted no retirement ends in a bus error (R239). -/
theorem retire_ne_busError {s : State} (hadm : CallAdmitted s) {ls : List BatchLane} {u : State} (hp : u.platform = s.platform)
    (hls : ∀ l ∈ ls, l.active = true → l.final = true → LaneDigested s l) {e : ErrCode × State}
    (hr : retire (s.argNat 4) (widthBits s.bat.width) ls u = .error e) : e.1 ≠ .busError := by
  induction ls generalizing u e with
  | nil => cases hr
  | cons l ls ih =>
    rw [List.forall_mem_cons] at hls
    unfold retire at hr
    split at hr
    next hl =>
      obtain ⟨ha, hf⟩ : l.active = true ∧ l.final = true := by simpa using hl
      split at hr
      next hd =>
        cases hr
        exact State.draw_ne_busError (congrArg Prod.fst hd)
      next t hd =>
        obtain ⟨hpt, -⟩ := State.draw_keeps hd
        rw [← hpt] at hp
        split at hr
        next hw =>
          obtain ⟨job, hj, -⟩ := hls.1 ha hf
          obtain ⟨-, hslot⟩ := slot_inside (dst := 0) (dl := s.bat.dlen) (memoryJobs_idx_lt (List.mem_of_getElem? hj))
          rw [memoryJobs_getElem?_idx hj] at hslot
          have hpart := admitsAll_part hadm.out (k := l.idx * s.bat.dlen) (l := s.bat.dlen) (by omega)
          rw [State.memWrite_admitted (by rw [length_squeeze, hp]; exact hpart)] at hw
          cases hw
        next w hw =>
          split at hr
          next he => cases hr; exact ih ((State.memWrite_platform hw).trans hp) hls.2 he
          next => cases hr
    next hl =>
      split at hr
      next he => cases hr; exact ih hp hls.2 he
      next => cases hr

/-! ### An iteration -/

theorem batIteration_work {dst : Nat} {w : Option Width} {s t : State} (h : batIteration dst (widthBits w) s = .ok t)
    (ha : anyActive s.bat.lanes = true) (q : List Job) :
    workLeft (rate (widthBits w)) (refill t.bat.lanes q).1 (refill t.bat.lanes q).2 + 1 ≤ workLeft (rate (widthBits w)) s.bat.lanes q := by
  obtain ⟨ls, u, v, hg, -, -, rfl⟩ := batIteration_ok h
  exact iteration_work q (rate_widthBits_pos w) hg ha

/-- While a message waits a lane is active. -/
theorem refill_busy {ls : List BatchLane} {q : List Job} (hls : 0 < ls.length) (h : (refill ls q).2 ≠ []) :
    anyActive (refill ls q).1 = true := by
  rw [← refill_length ls q] at hls
  exact List.any_eq_true.2 ⟨_, List.getElem_mem hls, refill_full h _ (List.getElem_mem hls)⟩

section
variable {s u : State} {q : List Job} (hc : CallChecked s)
include hc

/-- Every active lane gathers a block: after gather and kernel it stands where it stood, with the block absorbed. -/
theorem CallProgress.staged (h : CallProgress s u q) {ls : List BatchLane} (hg : Gathered u s.bat.rate u.bat.lanes ls) :
    (∀ l ∈ ls, l.active = true → LaneStaged s l) ∧ ∀ l ∈ u.bat.lanes, l.active = true → ∃ l' ∈ ls, l'.active = true ∧ l'.idx = l.idx := by
  refine ⟨fun l' hl' ha' => ?_, fun l hl ha => ?_⟩
  · obtain ⟨l, hl, reader, staged, hgl, rfl⟩ := hg.of_mem_right hl'
    cases ha : l.active with
    | true =>
      obtain ⟨-, -, hstaged⟩ := laneCarries_gathered hc h.only (h.carried l hl ha) ha hgl
      exact hstaged
    | false => simp [gatherLane_inactive hgl ha, ha] at ha'
  · obtain ⟨reader, staged, hgl, hm⟩ := hg.of_mem_left hl
    obtain ⟨ha', hidx, -⟩ := laneCarries_gathered hc h.only (h.carried l hl ha) ha hgl
    exact ⟨_, hm, ha', hidx⟩

/-- A successful iteration: a lane goes on carrying its message or has its digest written (R232). -/
theorem CallProgress.iteration (h : CallProgress s u q) {t : State} (ht : batIteration (s.argNat 4) (widthBits s.bat.width) u = .ok t) :
    CallProgress s t q := by
  obtain ⟨ls, u', v, hg, ⟨e, f, rfl⟩, hr, rfl⟩ := batIteration_ok ht
  obtain ⟨hstaged, hsame⟩ := h.staged hc hg
  obtain ⟨hinv, -⟩ := State.inv_iff.1 hc.inv
  have hdigested (l : BatchLane) (hl : l ∈ ls) (ha : l.active = true) (hf : l.final = true) : LaneDigested s l := by
    rcases hstaged l hl ha with ⟨hn, -⟩ | ⟨-, hd⟩
    · simp [hf] at hn
    · exact hd
  have hdone {job : Job} (hjob : job ∈ memoryJobs s) := retire_done hc (u := { u with env := e, free := f }) h.only.platform
    (h.only.wf hinv.units.mem) hdigested hr hjob
  have hretire := retire_only (s.argNat 4) (s.argNat 1) s.bat.width ls { u with env := e, free := f } fun l hl ha hf => by
    obtain ⟨job, hj, -⟩ := hdigested l hl ha hf
    simpa using (List.getElem?_eq_some_iff.1 hj).1
  rw [hr] at hretire
  have htaken : OnlyOutput u { u with env := e, free := f } (s.argNat 4) (s.argNat 1 * s.bat.dlen) :=
    ⟨⟨_, _, _, rfl⟩, fun _ _ => rfl, id⟩
  refine ⟨h.only.trans ⟨v, _, htaken.trans hretire, rfl⟩, ?_, fun l hl ha => ?_, h.backlog, fun job hjob => ?_⟩
  · rw [State.setLanes_bat, List.length_map, gathered_length hg, h.length]
  · obtain ⟨k, hk, rfl⟩ := List.mem_map.1 hl
    obtain ⟨e, hka⟩ := settle_active ha
    rcases hstaged k hk hka with ⟨-, hcar⟩ | ⟨hf, -⟩
    · rwa [e]
    · simp [settle, hka, hf, BatchLane.free] at ha
  · rcases h.covered job hjob with hj | hj | ⟨l, hl, ha, hidx⟩
    · exact .inl (hdone hjob (.inl hj))
    · exact .inr (.inl hj)
    · obtain ⟨l', hl', ha', hidx'⟩ := hsame l hl ha
      rcases hstaged l' hl' ha' with ⟨hn, -⟩ | ⟨hf, -⟩
      · have hkeep : settle l' = l' := by simp [settle, hn]
        exact .inr (.inr ⟨l', List.mem_map.2 ⟨l', hl', hkeep⟩, ha', hidx'.trans hidx⟩)
      · exact .inl (hdone hjob (.inr ⟨l', hl', ha', hf, hidx'.trans hidx⟩))

omit hc in
/-- Refill moves messages from the backlog into lanes, each with its first block before it (R235). -/
theorem CallProgress.refill (h : CallProgress s u q) :
    CallProgress s (u.setLanes (refill u.bat.lanes q).1) (refill u.bat.lanes q).2 := by
  refine ⟨h.only.trans (.setLanes u _ _ _), (refill_length _ _).trans h.length, fun l hl ha => ?_,
    fun job hj => h.backlog job (refill_backlog hj), fun job hjob => ?_⟩
  · rcases mem_refill hl with hl | ⟨job, hj, rfl⟩
    · exact h.carried l hl ha
    · exact ⟨job, mem_memoryJobs.1 (h.backlog job hj), 0, assign_carries _ _ job (by simp), rfl⟩
  · rcases h.covered job hjob with hj | hj | ⟨l, hl, ha, hidx⟩
    · exact .inl hj
    · exact .inr ((refill_covers hj).imp_right fun hl => ⟨_, hl, rfl, rfl⟩)
    · exact .inr (.inr ⟨l, refill_active hl ha, ha, hidx⟩)

/-- Where every byte is admitted no iteration ends in a bus error. -/
theorem CallProgress.iteration_ne_busError (h : CallProgress s u q) (hadm : CallAdmitted s) {e : ErrCode × State}
    (he : batIteration (s.argNat 4) (widthBits s.bat.width) u = .error e) : e.1 ≠ .busError := by
  unfold batIteration at he
  split at he
  next hg =>
    exact absurd hg (gather_ne_none (fun l hl reader => gatherLane_ne_none hc h.only hadm (h.carried l hl) reader) 0)
  next staged hg =>
    split at he
    next hd =>
      cases he
      exact State.draw_ne_busError (congrArg Prod.fst hd)
    next t hd =>
      obtain ⟨hpt, -⟩ := State.draw_keeps hd
      split at he
      next hd =>
        cases he
        exact State.draw_ne_busError (congrArg Prod.fst hd)
      next v hd =>
        obtain ⟨hpv, -⟩ := State.draw_keeps hd
        split at he
        next hr =>
          cases he
          refine retire_ne_busError hadm (hpv.trans (hpt.trans h.only.platform)) (fun l hl ha hf => ?_) hr
          obtain ⟨hstaged, -⟩ := h.staged hc (gather_gathered hg)
          rcases hstaged l hl ha with ⟨hn, -⟩ | ⟨-, hd⟩
          · simp [hf] at hn
          · exact hd
        next => cases he

/-! ### The loop -/

/-- The loop ends with no message left: each is done (R240). -/
theorem CallProgress.loop {fuel : Nat} {t : State} (h : CallProgress s u q) (hq : q ≠ [] → anyActive u.bat.lanes = true)
    (hf : workLeft (rate (widthBits s.bat.width)) u.bat.lanes q ≤ fuel)
    (ht : batLoop (s.argNat 4) (widthBits s.bat.width) fuel q u = .ok t) : CallProgress s t [] := by
  induction fuel generalizing q u with
  | zero =>
    cases ht
    obtain ⟨-, rfl⟩ := workLeft_zero (Nat.le_zero.1 hf)
    exact h
  | succ fuel ih =>
    unfold batLoop at ht
    split at ht
    next ha =>
      split at ht
      · cases ht
      next v hv =>
        have hwork := batIteration_work hv ha q
        refine ih (h.iteration hc hv).refill (refill_busy ?_) (by simpa using (by omega : _ ≤ fuel)) ht
        rw [(h.iteration hc hv).length]
        exact Nat.succ_pos _
    next ha =>
      cases ht
      obtain rfl : q = [] := by_contra fun hne => ha (hq hne)
      exact h

theorem CallProgress.loop_ne_busError {fuel : Nat} (h : CallProgress s u q) (hadm : CallAdmitted s) {e : ErrCode × State}
    (he : batLoop (s.argNat 4) (widthBits s.bat.width) fuel q u = .error e) : e.1 ≠ .busError := by
  induction fuel generalizing q u with
  | zero => cases he
  | succ fuel ih =>
    unfold batLoop at he
    split at he
    · split at he
      next hi =>
        cases he
        exact h.iteration_ne_busError hc hadm hi
      next hi => exact ih (h.iteration hc hi).refill he
    · cases he

/-! ### The schedule -/

/-- A call begins with every lane free and every message in the backlog. -/
theorem CallChecked.progress : CallProgress s s (memoryJobs s) := by
  obtain ⟨-, -, -, ⟨-, hlen, hidle⟩, -⟩ := hc.inv
  exact ⟨.ofOutput (.refl s _ _), hlen, fun l hl ha => by simp [hidle l hl] at ha, fun _ hj => hj, fun _ hj => .inr (.inl hj)⟩

/-- A schedule that succeeds has done every message. -/
theorem batSchedule_done {t : State} (ht : batSchedule (s.argNat 4) (widthBits s.bat.width) (memoryJobs s) s = .ok t) :
    ∀ job ∈ memoryJobs s, JobDone s t.mem job := by
  have hlanes : 0 < s.bat.lanes.length := by
    rw [hc.progress.length]
    exact Nat.succ_pos _
  have hend := hc.progress.refill.loop hc (refill_busy hlanes) le_rfl ht
  have hidle : ∀ l ∈ t.bat.lanes, l.active = false := by simpa [anyActive] using (batLoop_done ht le_rfl).1
  intro job hjob
  rcases hend.covered job hjob with hj | hj | ⟨l, hl, ha, -⟩
  · exact hj
  · simp at hj
  · simp [hidle l hl] at ha

theorem batSchedule_ne_busError (hadm : CallAdmitted s) {e : ErrCode × State}
    (he : batSchedule (s.argNat 4) (widthBits s.bat.width) (memoryJobs s) s = .error e) : e.1 ≠ .busError :=
  hc.progress.refill.loop_ne_busError hc hadm he

end

end Sys2Proof.Machine
end

section
/-! SUPPORT. The ways a whole BAT_CALCULATE can end (R241-R245), and the statements about its digests, its completion and its failures. -/

namespace Sys2Proof.Machine

/-! ### The checks on the messages -/

theorem checksMessages_eq_pass {s : State} {jobs : List Job} : checksMessages s jobs = .pass ↔
    (∀ job ∈ jobs, rangeOk job.ptr job.len = true) ∧
      (overlaps (s.argNat 4) (s.argNat 1 * s.bat.dlen) (s.argNat 0) (8 * s.argNat 1) = false ∧
        overlaps (s.argNat 4) (s.argNat 1 * s.bat.dlen) (s.argNat 2) (8 * s.argNat 1) = false) ∧
      ∀ job ∈ jobs, overlaps (s.argNat 4) (s.argNat 1 * s.bat.dlen) job.ptr job.len = false := by
  simp [checksMessages, Verdict.first_eq_pass]

theorem memoryJobs_empty {s : State} (h : s.argNat 1 = 0) : memoryJobs s = [] := by
  rw [← List.length_eq_zero_iff, length_memoryJobs, h]

/-- Without a race the descriptors a call reads are those in memory. -/
theorem readJobs_eq_some {s : State} (hrace : s.race = []) {jobs : List Job} (h : readJobs s = some jobs) : jobs = memoryJobs s := by
  rw [readJobs_quiet hrace] at h
  split at h
  · exact (Option.some.inj h).symm
  · cases h

/-! ### A call that succeeds -/

/-- A call that began in `s` ended its work in `t`: every digest written, every lane free, nothing else changed (R240, R244). -/
structure CallDone (s t : State) : Prop where
  only : OnlyBat s t (s.argNat 4) (s.argNat 1 * s.bat.dlen)
  done : ∀ job ∈ memoryJobs s, JobDone s t.mem job
  idle : ∀ l ∈ t.bat.lanes, l.active = false

theorem CallChecked.of_batRun {s t : State} (hinv : s.Inv) (hc : checksBatCalculate s = .pass) (h : batRun s = .ok t) :
    CallChecked s := by
  obtain ⟨-, -, -, -, -, hout⟩ := checksBatCalculate_eq_pass.1 hc
  obtain ⟨-, hrace⟩ := State.inv_iff.1 hinv
  refine ⟨hinv, hout, ?_⟩
  rcases batRun_ok h with ⟨hn, -⟩ | ⟨jobs, -, hj, hm, -⟩
  · simp [memoryJobs_empty hn]
  · obtain rfl := readJobs_eq_some hrace hj
    obtain ⟨-, -, hapart⟩ := checksMessages_eq_pass.1 hm
    exact hapart

theorem batRun_done {s t : State} (hc : CallChecked s) (h : batRun s = .ok t) : CallDone s t := by
  obtain ⟨hblock, hrace⟩ := State.inv_iff.1 hc.inv
  obtain ⟨-, -, hidle⟩ := (batRun_ok_inv hblock.units h).bat
  rcases batRun_ok h with ⟨hn, rfl⟩ | ⟨jobs, -, hj, -, hs⟩
  · exact ⟨.ofOutput (.refl _ _ _), by simp [memoryJobs_empty hn], hidle⟩
  · have honly := batSchedule_output hc.inv hj
    obtain rfl := readJobs_eq_some hrace hj
    exact ⟨by simpa [hs, endState] using honly, batSchedule_done hc hs, hidle⟩

/-- A call that reports no error and is not refused passed its checks, and its run wrote every digest. -/
theorem exec_batCalculate_success {s t : State} (hrace : s.race = []) (h : exec .batCalculate s = .next t) (herr : t.err = false)
    (hmark : t.mark = none) : checksBatCalculate s = .pass ∧ ∃ u, batRun s = .ok u ∧ t = u.complete := by
  have ht : t = s.conclude (checksBatCalculate s) (effectBatCalculate s) := exec_next h
  cases hc : checksBatCalculate s with
  | err c => simp [ht, hc] at herr
  | refuse m => simp [ht, hc] at hmark
  | pass =>
    rw [hc, State.conclude_pass, effectBatCalculate_quiet hrace] at ht
    refine ⟨rfl, ?_⟩
    cases hr : batRun s with
    | ok u => exact ⟨u, rfl, by rw [ht, hr]⟩
    | error u =>
      obtain rfl : t = u := by rw [ht, hr]
      obtain ⟨-, ⟨-, rfl⟩ | ⟨jobs, -, ⟨c, -, rfl⟩ | ⟨m, -, rfl⟩ | ⟨c, v, -, -, rfl⟩⟩⟩ := batRun_error hr
      · cases herr
      · cases herr
      · cases hmark
      · cases herr

/-- Settles O48: the messages pass through the lanes, and a call that succeeds has done each of them (`batSchedule_done`). -/
theorem batDigestsAreSha3 : Obligations.BatDigestsAreSha3 := by
  intro s t w hinv hst hw hexec herr hmark
  have hbits : w.bits = widthBits s.bat.width := by rw [hw, widthBits]
  rw [hbits]
  obtain ⟨-, hrace⟩ := State.inv_iff.1 hinv
  obtain ⟨hc, u, hrun, rfl⟩ := exec_batCalculate_success hrace hexec herr hmark
  have hdone := batRun_done (.of_batRun hinv hc hrun) hrun
  exact ⟨memoryJobs_descriptors s, fun job hjob => (hdone.done job hjob).digest, hdone.only.batWorking.memory⟩

/-! ### A call that a resource failure ends -/

/-- How a resource failure leaves the block (R245): the engine FAILED with its width, every lane free, no byte outside the output region changed. -/
def State.CallAborted (s t : State) (c : ErrCode) : Prop :=
  t.FailedWith c ∧ t.bat.st = .failed ∧ t.bat.width = s.bat.width ∧ (∀ l ∈ t.bat.lanes, l.active = false) ∧
    s.SameMemoryOutside t (s.argNat 4, s.argNat 1 * dlen (widthBits s.bat.width)) ∧ s.SameOutsideBat t ∧ t.result = s.result

theorem OnlyBat.batFails_aborted {s u : State} (h : OnlyBat s u (s.argNat 4) (s.argNat 1 * s.bat.dlen)) (c : ErrCode) :
    s.CallAborted (u.batFails (s.argNat 4) (s.argNat 1 * s.bat.dlen) c) c := by
  have hfreed := h.batWorking.freeRegion
  exact ⟨⟨rfl, rfl, rfl⟩, rfl, h.bat.2, freed_inactive _, hfreed.memory, hfreed.outside, h.sameOutsideUnits.result⟩

/-- The classes of R271 are apart. -/
theorem ErrCode.not_isResource_of_isContract {c : ErrCode} (h : c.isContract = true) : c.isResource ≠ true := by
  intro hr
  simp only [ErrCode.isContract, ErrCode.isResource, Bool.and_eq_true, decide_eq_true_eq] at h hr
  omega

/-- A check reports no resource failure, so a call that ends with one has had its effect, and the effect has failed. -/
theorem exec_batCalculate_resource {s t : State} (hinv : s.Inv) (hs : s.errCode.isResource = false)
    (h : exec .batCalculate s = .next t) (ht : t.errCode.isResource = true) : s.CallAborted t t.errCode := by
  obtain ⟨-, hrace⟩ := State.inv_iff.1 hinv
  have he : t = s.conclude (checksBatCalculate s) (effectBatCalculate s) := exec_next h
  cases hc : checksBatCalculate s with
  | err c =>
    rw [he, hc] at ht
    exact absurd ht (ErrCode.not_isResource_of_isContract (checksOf_onlyContract .batCalculate s c hc))
  | refuse m =>
    rw [he, hc, State.conclude_refuse, State.refuse_errCode, hs] at ht
    cases ht
  | pass =>
    rw [hc, State.conclude_pass, effectBatCalculate_quiet hrace] at he
    cases hr : batRun s with
    | ok u =>
      rw [he, hr] at ht
      cases ht
    | error u =>
      obtain rfl : t = u := by rw [he, hr]
      obtain ⟨-, ⟨-, rfl⟩ | ⟨jobs, hj, ⟨c, hm, rfl⟩ | ⟨m, -, rfl⟩ | ⟨c, v, -, hv, rfl⟩⟩⟩ := batRun_error hr
      · exact (OnlyBat.ofOutput (.refl s _ _)).batFails_aborted _
      · exact absurd ht (ErrCode.not_isResource_of_isContract (checksMessages_onlyContract s jobs c hm))
      · rw [State.refuse_errCode, hs] at ht
        cases ht
      · have honly := batSchedule_output hinv hj
        rw [hv] at honly
        exact honly.batFails_aborted c

/-- A byte of a table that is not admitted ends the call before anything is drawn (R69, R233). -/
theorem exec_batCalculate_tables {s : State} (hrace : s.race = []) (hc : checksBatCalculate s = .pass)
    (h : s.platform.admitsAll (s.argNat 0) (8 * s.argNat 1) = false ∨ s.platform.admitsAll (s.argNat 2) (8 * s.argNat 1) = false) :
    ∃ t, exec .batCalculate s = .next t ∧ s.CallAborted t .busError := by
  have hn : s.argNat 1 ≠ 0 := by
    intro hn
    have hempty (a : Nat) : s.platform.admitsAll a 0 = true := rfl
    simp [hn, hempty] at h
  have hjobs : readJobs s = none := by
    rw [readJobs_quiet hrace, if_neg]
    rintro ⟨h0, h2⟩
    simp [h0, h2] at h
  have hrun : batRun s = .error (s.batFails (s.argNat 4) (s.argNat 1 * s.bat.dlen) .busError) := by
    simp [batRun, hn, hjobs]
  refine ⟨_, exec_of_pass (i := .batCalculate) hc, ?_⟩
  change s.CallAborted (effectBatCalculate s) .busError
  rw [effectBatCalculate_quiet hrace, hrun]
  exact (OnlyBat.ofOutput (.refl s _ _)).batFails_aborted _

/-! ### A call whose checks pass -/

/-- A call whose checks pass, before its table read and after it (R232, R234), with the tables admitted. -/
structure CallStarts (s : State) : Prop where
  checked : CallChecked s
  checks : checksBatCalculate s = .pass
  jobs : readJobs s = some (memoryJobs s)
  messages : checksMessages s (memoryJobs s) = .pass

/-- The draws of a call (R235-R240), by the blocks of its messages (R249). -/
def callDraws (s : State) : List DrawPoint :=
  callPoints s.platform.laneCapacity ((memoryJobs s).map fun job => job.len / rate (widthBits s.bat.width) + 1)

section
variable {s : State} (h : CallStarts s)
include h

theorem CallStarts.answered : Answered (callDraws s) [] s.env id
    (batSchedule (s.argNat 4) (widthBits s.bat.width) (memoryJobs s) s) := by
  obtain ⟨-, -, -, ⟨-, hlen, hidle⟩, -⟩ := h.checked.inv
  have hdraws := batSchedule_answered (dst := s.argNat 4) (w := s.bat.width) (memoryJobs s) hidle
  rwa [hlen] at hdraws

/-- No draw of a run that succeeds fails; an empty list takes none (R241). -/
theorem CallStarts.draws_of_batRun {t : State} (hd : takeDraws (callDraws s) s.env ≠ .error none) (ht : batRun s = .ok t) :
    ∃ env, takeDraws (callDraws s) s.env = .ok env := by
  rcases batRun_ok ht with ⟨hn, -⟩ | ⟨jobs, -, hj, -, hs⟩
  · exact ⟨s.env, by rw [callDraws, memoryJobs_empty hn]; rfl⟩
  · rw [h.jobs] at hj
    cases hj
    have hdraws := h.answered hd
    rw [hs] at hdraws
    exact ⟨t.env, hdraws⟩

/-- Such a run fails in its schedule only. -/
theorem CallStarts.batRun_error {t : State} (ht : batRun s = .error t) : ∃ c u,
    batSchedule (s.argNat 4) (widthBits s.bat.width) (memoryJobs s) s = .error (c, u) ∧
      t = u.batFails (s.argNat 4) (s.argNat 1 * s.bat.dlen) c := by
  obtain ⟨-, ⟨hj, -⟩ | ⟨jobs, hj, hend⟩⟩ := Machine.batRun_error ht <;> rw [h.jobs] at hj <;> cases hj
  rw [h.messages] at hend
  obtain ⟨c, hm, -⟩ | ⟨m, hm, -⟩ | ⟨c, u, -, hs, rfl⟩ := hend
  · cases hm
  · cases hm
  · exact ⟨c, u, hs, rfl⟩

/-- A call whose checks pass ends as its draws do (R276), unless a bus error ends it: with every message done, or in the failure of the first draw that
fails. Where every byte is admitted there is no bus error. -/
theorem CallStarts.exec_cases (hd : takeDraws (callDraws s) s.env ≠ .error none) :
    (∃ t env, exec .batCalculate s = .next t.complete ∧ CallDone s t ∧ takeDraws (callDraws s) s.env = .ok env) ∨
      ∃ t c, exec .batCalculate s = .next t ∧ s.CallAborted t c ∧
        (c = .busError ∧ ¬ CallAdmitted s ∨ takeDraws (callDraws s) s.env = .error (some c)) := by
  obtain ⟨-, hrace⟩ := State.inv_iff.1 h.checked.inv
  have hexec : exec .batCalculate s = .next (effectBatCalculate s) := exec_of_pass (i := .batCalculate) h.checks
  rw [effectBatCalculate_quiet hrace] at hexec
  cases hr : batRun s with
  | ok t =>
    rw [hr] at hexec
    obtain ⟨env, hdraws⟩ := h.draws_of_batRun hd hr
    exact .inl ⟨t, env, hexec, batRun_done h.checked hr, hdraws⟩
  | error t =>
    rw [hr] at hexec
    obtain ⟨c, u, hs, rfl⟩ := h.batRun_error hr
    have honly := batSchedule_output h.checked.inv h.jobs
    have hdraws := h.answered hd
    rw [hs] at honly hdraws
    refine .inr ⟨_, c, hexec, honly.batFails_aborted c, hdraws.imp_left fun hbus => ⟨hbus, fun hadm => ?_⟩⟩
    exact batSchedule_ne_busError h.checked hadm hs hbus

end

/-- What a successful call read and wrote was admitted. -/
theorem CallDone.admitted {s t : State} (h : CallDone s t) : CallAdmitted s := by
  refine ⟨fun job hjob => (h.done job hjob).messageAdmitted, admitsAll_slots fun i hi => ?_⟩
  obtain ⟨-, hget⟩ := memoryJobs_descriptors s
  exact (h.done _ (List.mem_of_getElem? (hget i hi))).slotAdmitted

theorem length_callDraws (s : State) : (callDraws s).length ≤
    2 * ((memoryJobs s).map fun job => job.len / rate (widthBits s.bat.width) + 1).sum + s.argNat 1 := by
  simpa [callDraws] using length_callPoints s.platform.laneCapacity
    ((memoryJobs s).map fun job => job.len / rate (widthBits s.bat.width) + 1)

/-- As many answers of no failure as a call can take let all its draws pass. -/
theorem takeDraws_callDraws {s : State} (h : ∃ rest, s.env =
    List.replicate (2 * ((memoryJobs s).map fun job => job.len / rate (widthBits s.bat.width) + 1).sum + s.argNat 1)
      EnvAnswer.noFailure ++ rest) : ∃ env, takeDraws (callDraws s) s.env = .ok env := by
  obtain ⟨rest, he⟩ := h
  rw [he]
  exact ⟨_, takeDraws_noFailure (length_callDraws s) rest⟩

/-- The operands of a call in READY whose checks pass, with the tables admitted. -/
theorem CallStarts.of_operands {s : State} (hinv : s.Inv) (hargs : s.lacksArgs .batCalculate = false) (hst : s.bat.st = .ready)
    (heq : s.arg 1 = s.arg 3) (hptrs : s.Accessible (s.argNat 0) (8 * s.argNat 1))
    (hlens : s.Accessible (s.argNat 2) (8 * s.argNat 1))
    (hout : rangeOk (s.argNat 4) (s.argNat 1 * s.bat.dlen) = true)
    (hmsgs : ∀ job ∈ memoryJobs s, rangeOk job.ptr job.len = true ∧
      overlaps (s.argNat 4) (s.argNat 1 * s.bat.dlen) job.ptr job.len = false)
    (hp : overlaps (s.argNat 4) (s.argNat 1 * s.bat.dlen) (s.argNat 0) (8 * s.argNat 1) = false)
    (hl : overlaps (s.argNat 4) (s.argNat 1 * s.bat.dlen) (s.argNat 2) (8 * s.argNat 1) = false) : CallStarts s := by
  obtain ⟨-, hrace⟩ := State.inv_iff.1 hinv
  exact ⟨⟨hinv, hout, fun job hj => (hmsgs job hj).2⟩,
    checksBatCalculate_eq_pass.2 ⟨hargs, by simp [hst], by simp [hst], heq, ⟨hptrs.1, hlens.1⟩, hout⟩,
    readJobs_eq_memoryJobs hrace hptrs.2 hlens.2,
    checksMessages_eq_pass.2 ⟨fun job hj => (hmsgs job hj).1, ⟨hp, hl⟩, fun job hj => (hmsgs job hj).2⟩⟩

/-! ### The statements -/

/-- Settles O49: no draw fails and no byte is missing, so of the ends of `CallStarts.exec_cases` only success is left. -/
theorem batCalculateCompletes : Obligations.BatCalculateCompletes := by
  intro s w hinv hready hst hw heq
  have hbits : w.bits = widthBits s.bat.width := by rw [hw, widthBits]
  rw [hbits]
  intro n dst dl jobs hptrs hlens hout hmsgs hp hl henv
  obtain ⟨hargs, -⟩ := hready
  have hstart : CallStarts s := .of_operands hinv hargs hst heq hptrs hlens hout.1
    (fun job hj => ⟨(hmsgs job hj).1.1, (hmsgs job hj).2⟩) hp hl
  have hadm : CallAdmitted s := ⟨fun job hj => (hmsgs job hj).1.2, hout.2⟩
  obtain ⟨env, hdraws⟩ := takeDraws_callDraws henv
  refine ⟨memoryJobs_descriptors s, ?_⟩
  obtain ⟨t, -, hexec, hdone, -⟩ | ⟨t, c, -, -, ⟨-, hbad⟩ | hfail⟩ := hstart.exec_cases (by simp [hdraws])
  · have hwork := hdone.only.batWorking
    obtain ⟨hbst, hbw⟩ := hdone.only.bat
    exact ⟨t.complete, hexec, ⟨rfl, rfl, hwork.faultSeen⟩, fun job hj => (hdone.done job hj).digest, hwork.memory, hbst.trans hst,
      hbw.trans hw, hdone.idle, hwork.outside, hdone.only.sameOutsideUnits.result⟩
  · exact absurd hadm hbad
  · simp [hdraws] at hfail

/-- Settles O50: the checks report no resource failure; where they pass, a call without a failure drawn ends in a bus error unless every byte was admitted
(`CallDone.admitted`), and one with every byte admitted ends as its draws do (`CallStarts.exec_cases`). -/
theorem batFailureAbortsCall : Obligations.BatFailureAbortsCall := by
  unfold Obligations.BatFailureAbortsCall
  intro aborted
  refine ⟨fun s t hinv hs hexec ht => exec_batCalculate_resource hinv hs hexec ht, ?_⟩
  rintro s w hinv ⟨hargs, hrace⟩ hst hw heq
  have hbits : w.bits = widthBits s.bat.width := by rw [hw, widthBits]
  rw [hbits]
  intro n dst out hptrs hlens hout
  refine ⟨?_, ?_, ?_⟩
  · intro htables
    exact exec_batCalculate_tables hrace
      (checksBatCalculate_eq_pass.2 ⟨hargs, by simp [hst], by simp [hst], heq, ⟨hptrs, hlens⟩, hout⟩)
      (htables.imp (fun h => h.2) fun h => h.2)
  · intro hptrs hlens jobs hmsgs hp hl henv hbad
    have hstart : CallStarts s := .of_operands hinv hargs hst heq hptrs hlens hout hmsgs hp hl
    obtain ⟨env, hdraws⟩ := takeDraws_callDraws henv
    obtain ⟨t, -, -, hdone, -⟩ | ⟨t, c, hexec, habort, ⟨rfl, -⟩ | hfail⟩ := hstart.exec_cases (by simp [hdraws])
    · rcases hbad with ⟨job, hj, -, hno⟩ | ⟨-, hno⟩
      · cases (hdone.admitted.messages job hj).symm.trans hno
      · cases hdone.admitted.out.symm.trans hno
    · exact ⟨t, hexec, habort⟩
    · simp [hdraws] at hfail
  · intro hptrs hlens hout jobs hmsgs hp hl k p a c rest hpoint henv hfails
    have hstart : CallStarts s := .of_operands hinv hargs hst heq hptrs hlens hout.1
      (fun job hj => ⟨(hmsgs job hj).1.1, (hmsgs job hj).2⟩) hp hl
    have hadm : CallAdmitted s := ⟨fun job hj => (hmsgs job hj).1.2, hout.2⟩
    have hfailure : failureAt p a = some c := by
      simp only [List.mem_cons, List.not_mem_nil, or_false, Prod.mk.injEq] at hfails
      rcases hfails with ⟨rfl, rfl, rfl⟩ | ⟨rfl, rfl, rfl⟩ | ⟨rfl, rfl, rfl⟩ <;> rfl
    have hdraws : takeDraws (callDraws s) s.env = .error (some c) := by
      rw [henv]
      exact takeDraws_firstFailure hpoint hfailure rest
    obtain ⟨t, env, -, -, hok⟩ | ⟨t, c', hexec, habort, ⟨-, hno⟩ | hfail⟩ := hstart.exec_cases (by simp [hdraws])
    · simp [hdraws] at hok
    · exact absurd hadm hno
    · rw [hdraws] at hfail
      cases hfail
      exact ⟨t, hexec, habort⟩

end Sys2Proof.Machine
end

section
/-! SUPPORT. The checks of the KF and SP commands in the order of R275: which check ends the command, each said where those before it pass, and the statement
about them. -/

namespace Sys2Proof.Machine

theorem exec_of_refuse {i : Instr} {s : State} {m : Mark} (h : checksOf i s = .refuse m) : exec i s = .next (s.refuse m) := by
  rw [exec_eq, h, State.conclude_refuse]

/-! ### KF_STORE, SP_ABSORB and SP_SQUEEZE -/

section
variable {i : Instr} {s : State} (hargs : s.lacksArgs i = false)
include hargs

theorem checksOf_stateInvalid (hi : i ∈ [Instr.kfStore, .spAbsorb, .spSqueeze]) (hsv : s.raw.svalid = false) :
    checksOf i s = .err .stateInvalid := by
  have hpass := argCheck_eq_pass.2 hargs
  simp only [List.mem_cons, List.not_mem_nil, or_false] at hi
  rcases hi with rfl | rfl | rfl
  · rw [checksOf, checksKfStore, hpass, hsv]; rfl
  · rw [checksOf, checksSpAbsorb, hpass, hsv]; rfl
  · rw [checksOf, checksSpSqueeze, hpass, hsv]; rfl

theorem checksOf_widthNotSet (hi : i ∈ [Instr.spAbsorb, .spSqueeze]) (hsv : s.raw.svalid = true) (hw : s.raw.width = none) :
    checksOf i s = .err .widthNotSet := by
  have hpass := argCheck_eq_pass.2 hargs
  simp only [List.mem_cons, List.not_mem_nil, or_false] at hi
  rcases hi with rfl | rfl
  · rw [checksOf, checksSpAbsorb, hpass, hsv, hw]; rfl
  · rw [checksOf, checksSpSqueeze, hpass, hsv, hw]; rfl

end

section
variable {s : State} (hsv : s.raw.svalid = true)
include hsv

theorem checksKfStore_range (hargs : s.lacksArgs .kfStore = false) (hrange : rangeOk (s.argNat 0) 200 = false) :
    checksKfStore s = .err .range := by
  simp [checksKfStore, argCheck_eq_pass.2 hargs, hsv, hrange]

theorem checksSpAbsorb_range (hargs : s.lacksArgs .spAbsorb = false) {w : Width} (hw : s.raw.width = some w)
    (hrange : rangeOk (s.argNat 0) s.raw.rate = false) : checksSpAbsorb s = .err .range := by
  simp [checksSpAbsorb, argCheck_eq_pass.2 hargs, hsv, hw, hrange]

theorem checksSpSqueeze_range (hargs : s.lacksArgs .spSqueeze = false) {w : Width} (hw : s.raw.width = some w)
    (hrange : rangeOk (s.argNat 0) s.raw.dlen = false) : checksSpSqueeze s = .err .range := by
  simp [checksSpSqueeze, argCheck_eq_pass.2 hargs, hsv, hw, hrange]

end

/-! ### SP_PAD -/

section
variable {s : State} (hargs : s.lacksArgs .spPad = false)
include hargs

theorem checksSpPad_widthNotSet (hw : s.raw.width = none) : checksSpPad s = .err .widthNotSet := by
  simp [checksSpPad, argCheck_eq_pass.2 hargs, hw]

section
variable {w : Width} (hw : s.raw.width = some w)
include hw

theorem checksSpPad_padLength (hlen : s.raw.rate ≤ s.argNat 1) : checksSpPad s = .err .padLength := by
  simp [checksSpPad, argCheck_eq_pass.2 hargs, hw, hlen]

section
variable (hlen : s.argNat 1 < s.raw.rate)
include hlen

theorem checksSpPad_range (hrange : rangeOk (s.argNat 0) (s.argNat 1) = false ∨ rangeOk (s.argNat 2) s.raw.rate = false) :
    checksSpPad s = .err .range := by
  have hbad : (!(rangeOk (s.argNat 0) (s.argNat 1) && rangeOk (s.argNat 2) s.raw.rate)) = true := by
    rcases hrange with h | h <;> simp [h]
  simp [checksSpPad, argCheck_eq_pass.2 hargs, hw, Nat.not_le.2 hlen, hbad]

theorem checksSpPad_overlap (hsrc : rangeOk (s.argNat 0) (s.argNat 1) = true) (hblk : rangeOk (s.argNat 2) s.raw.rate = true)
    (hover : overlaps (s.argNat 0) (s.argNat 1) (s.argNat 2) s.raw.rate = true) : checksSpPad s = .refuse .operandOverlap := by
  simp [checksSpPad, argCheck_eq_pass.2 hargs, hw, Nat.not_le.2 hlen, hsrc, hblk, hover]

end
end
end

/-! ### The statement -/

/-- Settles O30: each clause is the check that fails first, those before it passing by the clause's own premises. -/
theorem rawUnitChecksInOrder : Obligations.RawUnitChecksInOrder := by
  intro s
  refine ⟨fun i hi ⟨hargs, _⟩ hsv => exec_of_err (checksOf_stateInvalid hargs hi hsv),
    fun i hi ⟨hargs, _⟩ hsv hw => exec_of_err (checksOf_widthNotSet hargs hi hsv hw),
    fun ⟨hargs, _⟩ hw => exec_of_err (checksSpPad_widthNotSet hargs hw),
    fun ⟨hargs, _⟩ hsv hpast => exec_of_err (checksKfStore_range hsv hargs (rangeOk_eq_false.2 ⟨by decide, hpast⟩)),
    fun w hw => ?_⟩
  have hrate : 0 < s.raw.rate := rate_widthBits_pos s.raw.width
  have hdlen : 0 < s.raw.dlen := RawUnit.dlen_of_width hw ▸ dlen_bits_pos w
  rw [← RawUnit.rate_of_width hw, ← RawUnit.dlen_of_width hw]
  exact ⟨fun ⟨hargs, _⟩ hsv hpast => exec_of_err (checksSpAbsorb_range hsv hargs hw (rangeOk_eq_false.2 ⟨hrate, hpast⟩)),
    fun ⟨hargs, _⟩ hsv hpast => exec_of_err (checksSpSqueeze_range hsv hargs hw (rangeOk_eq_false.2 ⟨hdlen, hpast⟩)),
    fun ⟨hargs, _⟩ hlen => exec_of_err (checksSpPad_padLength hargs hw hlen),
    fun ⟨hargs, _⟩ hlen hrange => exec_of_err (checksSpPad_range hargs hw hlen hrange),
    fun ⟨hargs, _⟩ hlen hsrc hblk hover => exec_of_refuse (checksSpPad_overlap hargs hw hlen hsrc hblk hover)⟩

end Sys2Proof.Machine
end

section
/-! SUPPORT. The draws of R276 and what a failed one leaves of the ACC engine (R202-R205, R273). -/

namespace Sys2Proof.Machine

/-! ### Which failures can be drawn -/

/-- The answer that means a failure at the draw points where R276 lists it. -/
def answerOf : ErrCode → EnvAnswer
  | .allocFailure => .allocFailure
  | .transferFailure => .transferFailure
  | .kernelFailure => .kernelFailure
  | _ => .noFailure

theorem failureAt_mem_drawTable {p : DrawPoint} {a : EnvAnswer} {c : ErrCode} (h : failureAt p a = some c) : (p, c) ∈ drawTable := by
  unfold failureAt at h
  split at h <;> cases h <;> decide

/-- R276's table has no row that cannot happen. -/
theorem failureAt_answerOf : ∀ row ∈ drawTable, failureAt row.1 (answerOf row.2) = some row.2 := by decide

theorem State.draw_answer (s : State) (p : DrawPoint) : ∃ a, (s.draw p).1 = failureAt p a := by
  unfold State.draw
  split
  · exact ⟨_, rfl⟩
  · exact ⟨_, rfl⟩

theorem State.draw_mem_drawTable {s : State} {p : DrawPoint} {c : ErrCode} (h : (s.draw p).1 = some c) : (p, c) ∈ drawTable := by
  obtain ⟨a, ha⟩ := s.draw_answer p
  exact failureAt_mem_drawTable (ha.symm.trans h)

/-- Every failure of the table is drawn in some state, and so is no failure. -/
theorem draw_possible (p : DrawPoint) (a : EnvAnswer) : ∃ s : State, (s.draw p).1 = failureAt p a :=
  ⟨{ State.reset with env := [a] }, rfl⟩

/-! ### An effect whose draw fails -/

section
variable {e : EngineSel} {s : State} {c : ErrCode}

/-- A constructing engine stays as it was (R202, R273). -/
theorem effectConstruct_drawn (hdraw : (s.drawIf (e.draws .accAlloc)).1 = some c) :
    (effectConstruct e (e.draws .accAlloc) s).FailedWith c ∧ s.StreamEnd (effectConstruct e (e.draws .accAlloc) s) e (s.engine e) ∧
      (effectConstruct e (e.draws .accAlloc) s).mem = s.mem := by
  obtain ⟨c', hc, hends⟩ := (effectConstruct_cases e s).resolve_left (by simp [hdraw])
  cases hdraw.symm.trans hc
  exact hends

theorem effectInit_drawn (hdraw : (s.drawIf (e.draws .accInit)).1 = some c) :
    s.FailsEngine (effectInit e (e.draws .accInit) s) e c (0, 0) := by
  obtain ⟨c', hc, hfails⟩ := (effectInit_cases e s).resolve_left (by simp [hdraw])
  cases hdraw.symm.trans hc
  exact hfails

/-- ADD draws only where its bytes were read (R204). -/
theorem effectAdd_drawn {data : List Byte} (hread : s.memRead 0 (s.argNat 0) (s.argNat 1) = some data)
    (hdraw : (s.drawIf (e.draws .accAdd)).1 = some c) : s.FailsEngine (effectAdd e (e.draws .accAdd) s) e c (0, 0) := by
  obtain ⟨_, -, hends⟩ := (effectAdd_cases e s).resolve_left (by simp [hread])
  obtain ⟨c', hc, hfails⟩ := hends.resolve_left (by simp [hdraw])
  cases hdraw.symm.trans hc
  exact hfails

theorem effectDigest_drawn (hdraw : (s.drawIf (e.draws .accDigest)).1 = some c) :
    s.FailsEngine (effectDigest e (e.draws .accDigest) s) e c (s.argNat 0, (s.engine e).dlen) := by
  obtain ⟨c', hc, hfails⟩ := (effectDigest_cases e s).resolve_left (by simp [hdraw])
  cases hdraw.symm.trans hc
  exact hfails

end

/-! ### The statement -/

/-- Settles O40: what a draw answers is a row of the table, and with its checks passed a command whose draw fails is its effect. -/
theorem accDrawnFailures : Obligations.AccDrawnFailures := by
  refine ⟨fun p c => ⟨fun ⟨s, h⟩ => State.draw_mem_drawTable h, fun h => ?_⟩, fun p => ?_,
    fun s c => ⟨?construct, ?init, ?add, ?digest⟩⟩
  · rw [← failureAt_answerOf (p, c) h]
    exact draw_possible p _
  · rw [← failureAt_noFailure p]
    exact draw_possible p _
  case construct =>
    rintro ⟨hargs, -⟩ hst ⟨w, hw⟩ hdraw
    have hpass : checksConstruct .acc .accConstruct s = .pass :=
      checksConstruct_eq_pass.2 ⟨hargs, hst, by simp [Width.ofWord_eq_some.2 hw]⟩
    obtain ⟨hfailed, hend, hmem⟩ := effectConstruct_drawn (e := .acc) hdraw
    exact ⟨by simpa [drawTable] using State.draw_mem_drawTable hdraw, _, exec_of_pass (i := .accConstruct) hpass, hfailed, hend.engine,
      hend.outside, (State.sameMemoryOutside_of_eq hmem _).sameMemory⟩
  case init =>
    rintro ⟨hargs, -⟩ hcons hfail hdraw
    have hpass : checksInit .acc .accInit s = .pass := checksInit_eq_pass.2 ⟨hargs, hcons, hfail⟩
    have hfails := effectInit_drawn (e := .acc) hdraw
    exact ⟨by simpa [drawTable] using State.draw_mem_drawTable hdraw, _, exec_of_pass (i := .accInit) hpass, hfails.status, hfails.st,
      hfails.width, hfails.outside, hfails.memory.sameMemory⟩
  case add =>
    rintro ⟨hargs, hrace⟩ hst ⟨hrange, hadm⟩ hdraw
    have hdraw : (s.draw .accAdd).1 = some c := hdraw s.acc
    have hfails := effectAdd_drawn (e := .acc) (State.memRead_admitted hrace 0 hadm) hdraw
    exact ⟨by simpa [drawTable] using State.draw_mem_drawTable hdraw, _, exec_of_pass (checksOf_add_pass (e := .acc) hargs hst hrange),
      hfails.status, hfails.st, hfails.width, hfails.outside, hfails.memory.sameMemory⟩
  case digest =>
    rintro ⟨hargs, -⟩ hst hrange hdraw
    have hdraw : (s.draw .accDigest).1 = some c := hdraw s.acc
    have hfails := effectDigest_drawn (e := .acc) hdraw
    exact ⟨by simpa [drawTable] using State.draw_mem_drawTable hdraw, _,
      exec_of_pass (checksOf_digest_pass (e := .acc) hargs hst hrange), hfails.status, hfails.st, hfails.width, hfails.outside,
      hfails.memory⟩

end Sys2Proof.Machine
end

section
/-! SUPPORT. The ways a command can end (R270, R272, R273, R287), whichever it is, and the statements about every command. -/

namespace Sys2Proof.Machine

/-! ### The ends of a command -/

/-- A command that began in `s` ended in `t`: in success, in a resource failure, in a contract violation, which changes STATUS only, or refused, which changes
the mark only. -/
inductive State.Ends (s t : State) : Prop where
  | success (hstatus : s.Succeeded t) (hmark : t.mark = s.mark)
  | failure {c : ErrCode} (hc : c.isResource = true) (hstatus : t.FailedWith c) (hmark : t.mark = s.mark)
  | violation {c : ErrCode} (hc : c.isContract = true) (ht : t = s.raise c)
  | refusal (m : Mark) (ht : t = s.refuse m)

/-! ### The RAW unit -/

theorem State.RawBusFailed.ends {s t : State} {region : Nat × Nat} (h : s.RawBusFailed t region) : s.Ends t := by
  obtain ⟨hstatus, -, -, ⟨-, -, -, hmark⟩, -⟩ := h
  exact .failure rfl hstatus hmark

/-- A command that completes with its bytes written. -/
theorem State.memWrite_ends {s t : State} {a : Nat} {bs : List Byte} (h : s.memWrite a bs = some t) : s.Ends t.complete := by
  obtain ⟨-, rfl⟩ := State.memWrite_some h
  exact .success ⟨rfl, rfl, rfl⟩ rfl

/-- A command that completes with the RAW unit written. -/
theorem State.setRaw_ends (s : State) (u : RawUnit) : s.Ends (State.complete { s with raw := u }) := .success ⟨rfl, rfl, rfl⟩ rfl

theorem effectKfLoad_ends (s : State) : s.Ends (effectKfLoad s) := by
  unfold effectKfLoad
  split
  · exact (s.rawBusError_failed (0, 0)).ends
  · exact s.setRaw_ends _

theorem effectKfStore_ends (s : State) : s.Ends (effectKfStore s) := by
  unfold effectKfStore
  split
  · exact (s.freeRegion_rawBusError_failed _ _).ends
  next hw => exact State.memWrite_ends hw

theorem effectSpAbsorb_ends (s : State) : s.Ends (effectSpAbsorb s) := by
  unfold effectSpAbsorb
  split
  · exact (s.rawBusError_failed (0, 0)).ends
  · exact s.setRaw_ends _

theorem effectSpPad_ends (s : State) : s.Ends (effectSpPad s) := by
  unfold effectSpPad
  split
  · exact (s.freeRegion_rawBusError_failed _ _).ends
  · split
    · exact (s.freeRegion_rawBusError_failed _ _).ends
    next hw => exact State.memWrite_ends hw

theorem effectSpSqueeze_ends (s : State) : s.Ends (effectSpSqueeze s) := by
  unfold effectSpSqueeze
  split
  · exact (s.freeRegion_rawBusError_failed _ _).ends
  next hw => exact State.memWrite_ends hw

/-! ### The streaming engines -/

theorem State.Completes.ended {s t : State} {e : EngineSel} {x : Engine} {m : Memory} (h : s.Completes t e x m) : s.Ends t := by
  obtain ⟨-, -, -, -, -, hmark⟩ := h.ends.outside
  exact .success h.status hmark

theorem State.FailsEngine.ended {s t : State} {e : EngineSel} {c : ErrCode} {region : Nat × Nat} (h : s.FailsEngine t e c region)
    (hc : c.isResource = true) : s.Ends t := by
  obtain ⟨-, -, -, -, -, hmark⟩ := h.outside
  exact .failure hc h.status hmark

theorem State.drawIf_resource {s : State} {p : Option DrawPoint} {c : ErrCode} (h : (s.drawIf p).1 = some c) :
    c.isResource = true := by
  cases p with
  | none => cases h
  | some p => exact State.draw_resource h

section
variable (e : EngineSel) (s : State)

theorem effectConstruct_ends : s.Ends (effectConstruct e (e.draws .accAlloc) s) := by
  rcases effectConstruct_cases e s with ⟨-, hdone⟩ | ⟨c, hdraw, hstatus, hend, -⟩
  · exact hdone.ended
  · obtain ⟨-, -, -, -, -, hmark⟩ := hend.outside
    exact .failure (State.drawIf_resource hdraw) hstatus hmark

theorem effectInit_ends : s.Ends (effectInit e (e.draws .accInit) s) := by
  rcases effectInit_cases e s with ⟨-, hdone⟩ | ⟨c, hdraw, hfails⟩
  · exact hdone.ended
  · exact hfails.ended (State.drawIf_resource hdraw)

theorem effectAdd_ends : s.Ends (effectAdd e (e.draws .accAdd) s) := by
  rcases effectAdd_cases e s with ⟨-, hfails⟩ | ⟨data, -, ⟨-, hdone⟩ | ⟨c, hdraw, hfails⟩⟩
  · exact hfails.ended rfl
  · exact hdone.ended
  · exact hfails.ended (State.drawIf_resource hdraw)

theorem effectDigest_ends : s.Ends (effectDigest e (e.draws .accDigest) s) := by
  rcases effectDigest_cases e s with ⟨-, ⟨-, hdone⟩ | ⟨-, hfails⟩⟩ | ⟨c, hdraw, hfails⟩
  · exact hdone.ended
  · exact hfails.ended rfl
  · exact hfails.ended (State.drawIf_resource hdraw)

end

/-! ### The BAT engine -/

/-- A BAT command that began in `s` ended in `t`, the other units as they were (R41). -/
structure State.BatEnds (s t : State) : Prop where
  ends : s.Ends t
  raw : t.raw = s.raw
  seq : t.seq = s.seq
  acc : t.acc = s.acc

section
variable {s u : State} {region : Nat × Nat}

theorem State.BatEnds.violation (s : State) {c : ErrCode} (hc : c.isContract = true) : s.BatEnds (s.raise c) :=
  ⟨.violation hc rfl, rfl, rfl, rfl⟩

theorem State.BatEnds.refusal (s : State) (m : Mark) : s.BatEnds (s.refuse m) := ⟨.refusal m rfl, rfl, rfl, rfl⟩

theorem State.BatWorking.completes (h : s.BatWorking u region) : s.BatEnds u.complete := by
  obtain ⟨-, hraw, hseq, hacc, hmark⟩ := h.outside
  exact ⟨.success ⟨rfl, rfl, h.faultSeen⟩ hmark, hraw, hseq, hacc⟩

theorem State.BatWorking.fails (h : s.BatWorking u region) {c : ErrCode} (hc : c.isResource = true) : s.BatEnds (u.raise c) := by
  obtain ⟨-, hraw, hseq, hacc, hmark⟩ := h.outside
  exact ⟨.failure hc ⟨rfl, rfl, rfl⟩ hmark, hraw, hseq, hacc⟩

theorem batRun_ok_working (h : batRun s = .ok u) : ∃ n, s.BatWorking u (s.argNat 4, n) := by
  rcases batRun_ok h with ⟨-, rfl⟩ | ⟨jobs, -, -, -, hs⟩
  · exact ⟨0, .refl _ _⟩
  · obtain ⟨n, ho⟩ := batSchedule_ok_onlyBat hs
    exact ⟨n, ho.batWorking⟩

/-- The output region that a failure leaves unspecified, beside any other the call has written. -/
theorem State.BatWorking.freeRegion_any {a n : Nat} (h : s.BatWorking u (a, n)) (k : Nat) :
    s.BatWorking (u.freeRegion a k) (a, max n k) :=
  ⟨h.outside, h.faultSeen, fun b hb => by
    dsimp only at hb
    rw [u.freeRegion_outside (by omega), h.memory b (by dsimp only; omega)]⟩

theorem batRun_error_ends (h : batRun s = .error u) : s.BatEnds u := by
  have failed {v : State} {n : Nat} (hv : s.BatWorking v (s.argNat 4, n)) {c : ErrCode} (hc : c.isResource = true) :
      s.BatEnds (v.batFails (s.argNat 4) (s.argNat 1 * s.bat.dlen) c) := ((hv.freeRegion_any _).setBat _).fails hc
  obtain ⟨-, ⟨-, rfl⟩ | ⟨jobs, -, ⟨c, hm, rfl⟩ | ⟨m, -, rfl⟩ | ⟨c, v, -, hs, rfl⟩⟩⟩ := batRun_error h
  · exact failed (n := 0) (.refl _ _) rfl
  · exact .violation s (checksMessages_onlyContract s jobs c hm)
  · exact .refusal s m
  · obtain ⟨n, ho⟩ := batSchedule_error_onlyBat hs
    exact failed ho.batWorking (batSchedule_error_isResource hs)

/-- A call that ended without the race ended so with it (R311). -/
theorem State.BatEnds.restoreRace {r : List (Word × Byte)} (h : ({ s with race := r } : State).BatEnds u) :
    s.BatEnds { u with race := s.race } := by
  refine ⟨?_, h.raw, h.seq, h.acc⟩
  cases h.ends with
  | success hstatus hmark => exact .success hstatus hmark
  | failure hc hstatus hmark => exact .failure hc hstatus hmark
  | violation hc ht => subst ht; exact .violation hc rfl
  | refusal m ht => subst ht; exact .refusal m rfl

end

theorem effectBatConstruct_ends (s : State) : s.BatEnds (effectBatConstruct s) := by
  have hdraw : s.BatWorking (s.draw .batAlloc).2 (0, 0) := (OnlyBat.ofOutput (OnlyOutput.draw s _ _ _)).batWorking
  unfold effectBatConstruct
  split
  next hd =>
    rw [hd] at hdraw
    exact hdraw.fails (State.draw_resource (congrArg Prod.fst hd))
  next hd =>
    rw [hd] at hdraw
    exact (hdraw.setBat _).completes

theorem effectBatCalculate_ends (s : State) : s.BatEnds (effectBatCalculate s) := by
  by_cases hr : s.race = []
  · rw [effectBatCalculate_quiet hr]
    split
    next ht =>
      obtain ⟨n, hw⟩ := batRun_ok_working ht
      exact hw.completes
    next ht => exact batRun_error_ends ht
  · rcases effectBatCalculate_raced hr with ⟨u, t, -, ht, e⟩ | ⟨u, hu, e⟩ | ⟨u, hu, e⟩ <;> rw [e]
    · obtain ⟨n, hw⟩ := batRun_ok_working ht
      exact hw.completes
    · obtain ⟨n, hw⟩ := batRun_ok_working hu
      exact (hw.freeRegion_any (s.argNat 1 * s.bat.dlen)).completes.restoreRace
    · exact (batRun_error_ends hu).restoreRace

theorem effectOf_batEnds {i : Instr} (hi : i ∈ [Instr.batConstruct, .batCalculate, .batSize, .batDestroy]) (s : State) :
    s.BatEnds (effectOf i s) := by
  simp only [List.mem_cons, List.not_mem_nil, or_false] at hi
  rcases hi with rfl | rfl | rfl | rfl
  · exact effectBatConstruct_ends s
  · exact effectBatCalculate_ends s
  · exact ⟨.success ⟨rfl, rfl, rfl⟩ rfl, rfl, rfl, rfl⟩
  · exact ((State.BatWorking.refl s (0, 0)).setBat _).completes

/-! ### Every command -/

theorem effectOf_ends (i : Instr) (s : State) : s.Ends (effectOf i s) := by
  cases i with
  | kfPermute => exact s.setRaw_ends _
  | kfLoad => exact effectKfLoad_ends s
  | kfStore => exact effectKfStore_ends s
  | spInit => exact s.setRaw_ends _
  | spAbsorb => exact effectSpAbsorb_ends s
  | spPad => exact effectSpPad_ends s
  | spSqueeze => exact effectSpSqueeze_ends s
  | seqConstruct => exact effectConstruct_ends .seq s
  | seqInit => exact effectInit_ends .seq s
  | seqAdd => exact effectAdd_ends .seq s
  | seqDigest => exact effectDigest_ends .seq s
  | seqDestroy => exact (effectDestroy_completes .seq s).ended
  | accConstruct => exact effectConstruct_ends .acc s
  | accInit => exact effectInit_ends .acc s
  | accAdd => exact effectAdd_ends .acc s
  | accDigest => exact effectDigest_ends .acc s
  | accDestroy => exact (effectDestroy_completes .acc s).ended
  | batConstruct | batCalculate | batSize | batDestroy => exact (effectOf_batEnds (by decide) s).ends

theorem exec_ends {i : Instr} {s t : State} (h : exec i s = .next t) : s.Ends t := by
  rw [exec_next h]
  cases hc : checksOf i s with
  | pass => exact effectOf_ends i s
  | err c => exact .violation (checksOf_onlyContract i s c hc) rfl
  | refuse m => exact .refusal m rfl

/-- Settles O51: a success and a resource failure leave a code of another class. -/
theorem contractViolationChangesStatusOnly : Obligations.ContractViolationChangesStatusOnly := by
  intro i s t h hcontract
  cases exec_ends h with
  | success hstatus _ =>
    obtain ⟨-, hcode, -⟩ := hstatus
    exact absurd hcode (ErrCode.ne_ok_of_isContract hcontract)
  | failure hc hstatus _ =>
    obtain ⟨-, hcode, -⟩ := hstatus
    exact absurd (hcode ▸ hc) (ErrCode.not_isResource_of_isContract hcontract)
  | violation _ ht => subst ht; exact .inl rfl
  | refusal m ht => exact .inr ⟨m, ht⟩

/-- Settles O52: a command answers a next state (`exec_eq`), and it is one of the four ends. -/
theorem everyCommandEndsOneWay : Obligations.EveryCommandEndsOneWay := by
  intro i s
  refine ⟨_, exec_eq i s, ?_⟩
  cases exec_ends (exec_eq i s) with
  | success hstatus hmark => exact .inl ⟨hstatus, hmark⟩
  | failure hc hstatus hmark => exact .inr (.inl ⟨_, .inr hc, hstatus, hmark⟩)
  | violation hc ht => exact .inr (.inl ⟨_, .inl hc, by rw [ht]; exact ⟨rfl, rfl, rfl⟩, by rw [ht]; rfl⟩)
  | refusal m ht => exact .inr (.inr ⟨m, ht⟩)

end Sys2Proof.Machine
end

section
/-! SUPPORT. A FAILED engine (R274), and that a command leaves the engines and the RAW unit of other units alone (R41). -/

namespace Sys2Proof.Machine

/-! ### A FAILED BAT engine -/

theorem checksBatSize_failed {s : State} (hargs : s.lacksArgs .batSize = false) (hst : s.bat.st = .failed) :
    checksBatSize s = .err .engineFailed := by
  rw [checksBatSize_eq hargs, hst]
  rfl

theorem checksBatConstruct_constructed {s : State} (hargs : s.lacksArgs .batConstruct = false) (hst : s.bat.st ≠ .unconstructed) :
    checksBatConstruct s = .err .alreadyConstructed := by
  rw [checksBatConstruct, argCheck_eq_pass.2 hargs, bne_iff_ne.2 hst]
  rfl

/-! ### The unit a command addresses -/

/-- The commands of R83, unit by unit. -/
theorem unit_cases (i : Instr) :
    (i.unit = 0 ∨ i.unit = 1) ∧ (i ∈ [Instr.kfPermute, .kfLoad, .spInit, .spAbsorb] ∨ i ∈ [Instr.kfStore, .spPad, .spSqueeze]) ∨
    i.unit = 2 ∧ i ∈ [EngineSel.seq.construct, EngineSel.seq.init, EngineSel.seq.add, EngineSel.seq.digest, EngineSel.seq.destroy] ∨
    i.unit = 3 ∧ i ∈ [EngineSel.acc.construct, EngineSel.acc.init, EngineSel.acc.add, EngineSel.acc.digest, EngineSel.acc.destroy] ∨
    i.unit = 4 ∧ i ∈ [Instr.batConstruct, .batCalculate, .batSize, .batDestroy] := by
  cases i <;> decide

/-- However a BAT command ends, the other units are as they were: no invariant is needed for it. -/
theorem exec_batEnds {i : Instr} (hi : i ∈ [Instr.batConstruct, .batCalculate, .batSize, .batDestroy]) {s t : State}
    (h : exec i s = .next t) : s.BatEnds t := by
  rw [exec_next h]
  cases hc : checksOf i s with
  | pass => exact effectOf_batEnds hi s
  | err c => exact .violation s (checksOf_onlyContract i s c hc)
  | refuse m => exact .refusal s m

/-- The units share no state (R41, R274). -/
theorem exec_other_units {i : Instr} {s t : State} (h : exec i s = .next t) :
    (i.unit ≠ 0 → i.unit ≠ 1 → t.raw = s.raw) ∧ (i.unit ≠ 2 → t.seq = s.seq) ∧ (i.unit ≠ 3 → t.acc = s.acc) ∧
      (i.unit ≠ 4 → t.bat = s.bat) := by
  rcases unit_cases i with ⟨hunit, hi⟩ | ⟨hunit, hi⟩ | ⟨hunit, hi⟩ | ⟨hunit, hi⟩
  · obtain ⟨hseq, hacc, hbat⟩ : s.SameEngines t :=
      hi.elim (fun hi => (exec_rawRegisterFrame hi h).engines) (fun hi => (exec_rawStoreFrame hi h).engines)
    exact ⟨fun h0 h1 => (hunit.elim h0 h1).elim, fun _ => hseq, fun _ => hacc, fun _ => hbat⟩
  · obtain ⟨-, hraw, hbat, hothers, -⟩ := streamCommandsFrame .seq i s t hi h
    exact ⟨fun _ _ => hraw, fun hne => absurd hunit hne, fun _ => hothers .acc nofun, fun _ => hbat⟩
  · obtain ⟨-, hraw, hbat, hothers, -⟩ := streamCommandsFrame .acc i s t hi h
    exact ⟨fun _ _ => hraw, fun _ => hothers .seq nofun, fun hne => absurd hunit hne, fun _ => hbat⟩
  · have hend := exec_batEnds hi h
    exact ⟨fun _ _ => hend.raw, fun _ => hend.seq, fun _ => hend.acc, fun hne => absurd hunit hne⟩

/-! ### The statement -/

/-- Settles O41: the checks on the lifecycle end every command to a FAILED engine but DESTROY, and no command reaches another unit (`exec_other_units`). -/
theorem failedEngineOnlyDestroys : Obligations.FailedEngineOnlyDestroys := by
  refine ⟨fun e s hst => ?_, fun s hst => ?_, fun i s t h => exec_other_units h⟩
  · have hcons : (s.engine e).st ≠ .unconstructed := by simp [hst]
    refine ⟨fun i hi ⟨hargs, _⟩ => exec_of_err (checksOf_engineFailed hargs hi hst), fun ⟨hargs, _⟩ => exec_of_err ?_,
      fun hready => ?_, by cases e <;> rfl⟩
    · rw [checksOf_construct, checksConstruct_constructed hargs hcons]
    · obtain ⟨t, ht, ⟨herr, -⟩, hst', -⟩ := destroyReleasesEngine e s hready hcons
      exact ⟨t, ht, herr, hst'⟩
  · have hcons : s.bat.st ≠ .unconstructed := by simp [hst]
    refine ⟨fun i hi ⟨hargs, _⟩ => exec_of_err ?_, fun ⟨hargs, _⟩ => exec_of_err (checksBatConstruct_constructed hargs hcons),
      fun hready => ?_, rfl⟩
    · simp only [List.mem_cons, List.not_mem_nil, or_false] at hi
      rcases hi with rfl | rfl
      · exact checksBatCalculate_failed hargs hst
      · exact checksBatSize_failed hargs hst
    · obtain ⟨t, ht, ⟨herr, -⟩, hst', -⟩ := (batDestroyReleases s hready).1 hcons
      exact ⟨t, ht, herr, hst'⟩

end Sys2Proof.Machine
end

section
/-! SUPPORT. What a host load shows (R283): the bytes of a load in two states that agree at every observation point. -/

namespace Sys2Proof.Machine

theorem accessedReg_eq_some {offset n : Nat} {r : Reg} (h : accessedReg offset n = some r) : offset = r.offset ∧ n = 8 := by
  unfold accessedReg at h
  split at h
  next hn => exact ⟨offset_of_ofOffset h, hn⟩
  · cases h

/-- A load of an unwritten ARG shows a free value (R23). -/
theorem loadWindow_unwritten {s : State} {k : Fin 5} (h : s.argWritten.get k = false) : loadWindow (Reg.arg k).offset 8 s =
    { s with loads := bytes64 (Config.freeArg s.free k.val) :: s.loads, free := s.free + 1 } := by
  simp [loadWindow, State.regLoad, h]

/-- A load in `s` and one in `t` ended in `s'` and `t'`: the host got the same bytes, or none, and the load of `s` changed bookkeeping only. -/
def SameLoad (s t s' t' : State) : Prop :=
  ∃ got, s'.loads = got ++ s.loads ∧ t'.loads = got ++ t.loads ∧ { s' with loads := s.loads, mark := s.mark, free := s.free } = s

/-- A register other than an unwritten ARG shows its value, an unwritten ARG the free value of the counter, and any other access nothing. -/
theorem loadWindow_sameLoad {s t : State} (h : s.SameObserved t) (offset n : Nat) :
    SameLoad s t (loadWindow offset n s) (loadWindow offset n t) := by
  obtain ⟨hregs, hwritten, -, -, hfree⟩ := h
  cases hr : accessedReg offset n with
  | none => exact ⟨[], by simp [loadWindow, hr], by simp [loadWindow, hr], by simp only [loadWindow, hr]; rfl⟩
  | some r =>
    obtain ⟨rfl, rfl⟩ := accessedReg_eq_some hr
    by_cases hread : ∀ k, r = .arg k → s.argWritten.get k = true
    · rw [loadWindow_offset hread, loadWindow_offset (hwritten ▸ hread), ← hregs r hread]
      exact ⟨[bytes64 (s.regValue r)], rfl, rfl, rfl⟩
    · obtain ⟨k, rfl, hk⟩ : ∃ k, r = .arg k ∧ s.argWritten.get k = false := by simpa using hread
      rw [loadWindow_unwritten hk, loadWindow_unwritten (hwritten ▸ hk), ← hfree]
      exact ⟨[bytes64 (Config.freeArg s.free k.val)], rfl, rfl, rfl⟩

/-- A physical load is a load of the window, one of host memory, or past the last address, in both states alike. -/
theorem loadPhysical_sameLoad {s t : State} (h : s.SameObserved t) (a n : Nat) :
    (∃ s' t', loadPhysical a n s = .next s' ∧ loadPhysical a n t = .next t' ∧ SameLoad s t s' t') ∨
      loadPhysical a n s = .fault .hostAccessPastMemory ∧ loadPhysical a n t = .fault .hostAccessPastMemory := by
  have hwindow := loadWindow_sameLoad h
  obtain ⟨-, -, hmem, hplatform, -⟩ := h
  unfold loadPhysical
  rw [← hplatform, ← hmem]
  split
  · exact .inr ⟨rfl, rfl⟩
  · split
    · exact .inl ⟨_, _, rfl, rfl, hwindow _ n⟩
    · exact .inl ⟨_, _, rfl, rfl, [s.mem.readBytes a n], rfl, rfl, rfl⟩

/-- Settles O60: both kinds of load show the same in states that agree where `State.SameObserved` says. -/
theorem onlyRegistersAndMemoryAreObserved : Obligations.OnlyRegistersAndMemoryAreObserved := by
  rintro s t h op (⟨offset, n, rfl⟩ | ⟨a, n, rfl⟩)
  · obtain ⟨got, hs, ht, hkept⟩ := loadWindow_sameLoad h offset n
    exact .inl ⟨_, _, got, rfl, rfl, hs, ht, hkept⟩
  · rcases loadPhysical_sameLoad h a.toNat n with ⟨s', t', hs', ht', got, hs, ht, hkept⟩ | hpast
    · exact .inl ⟨s', t', got, hs', ht', hs, ht, hkept⟩
    · exact .inr hpast

end Sys2Proof.Machine
end

section
/-! SUPPORT. Reset at power-on, between commands and during one (R300, R301), and what a race with another agent can change of a command (R311). -/

namespace Sys2Proof.Machine

/-! ### Reset -/

/-- Power-on leaves the reset state, whatever the platform (R300). -/
theorem powerOn_atReset (p : Platform) : (State.powerOn p).AtReset := by
  refine ⟨rfl, fun k => ?_, rfl, rfl, rfl, rfl, rfl, rfl, rfl, rfl, rfl, rfl, rfl, rfl, rfl, rfl, fun l hl => ?_⟩
  · fin_cases k <;> rfl
  · rw [List.eq_of_mem_replicate hl]
    rfl

theorem applyReset_atReset (s : State) : s.applyReset.AtReset := powerOn_atReset s.platform

/-- Settles O11: a reset between commands is power-on with host memory kept. -/
theorem resetState : Obligations.ResetState := by
  refine ⟨powerOn_atReset _, fun s rest hpending =>
    ⟨State.applyReset { s with pending := rest }, ?_, applyReset_atReset _, rfl, rfl, rfl⟩⟩
  rw [step, hpending]
  rfl

/-- A reset during a command is a reset with the bytes that the command may write unspecified; at most the mark differs (R301, R285). -/
theorem issueReset_eq (w : Word) (s : State) :
    ∃ m, issueReset w s = State.applyReset { s.freeRegion (writtenRegion w s).1 (writtenRegion w s).2 with mark := m } := by
  unfold issueReset
  dsimp only
  split
  · exact ⟨s.mark, rfl⟩
  · split
    next m _ => exact ⟨some m, rfl⟩
    · exact ⟨s.mark, rfl⟩
    · exact ⟨s.mark, rfl⟩

theorem issueReset_outside (w : Word) (s : State) : s.SameMemoryOutside (issueReset w s) (writtenRegion w s) := by
  obtain ⟨m, h⟩ := issueReset_eq w s
  rw [h]
  exact fun a ha => s.freeRegion_outside (by omega)

/-- A command writes its output region or, where one of its checks fails, nothing (R89, R272, R287). -/
theorem writtenRegion_legal {w : Word} {i : Instr} (h : decode w = .ok i) (s : State) :
    writtenRegion w s = outputRegion i s ∨ writtenRegion w s = (0, 0) := by
  simp only [writtenRegion, h]
  split
  · exact .inl rfl
  · exact .inr rfl
  · exact .inr rfl

theorem writtenRegion_illegal {w : Word} (h : ∀ i, decode w ≠ .ok i) (s : State) : writtenRegion w s = (0, 0) := by
  unfold writtenRegion
  split
  · rfl
  next hd => exact absurd hd (h _)

/-- Settles O12: the bytes left unspecified are those of `writtenRegion`, and reset clears the rest. -/
theorem resetAbandonsCommand : Obligations.ResetAbandonsCommand := by
  intro s w
  have houtside := issueReset_outside w s
  obtain ⟨m, hreset⟩ := issueReset_eq w s
  refine ⟨issueReset w s, rfl, ?_, ?_, fun i hi => ?_, fun hillegal => ?_⟩
  · rw [hreset]
    exact applyReset_atReset _
  · rw [hreset]
    rfl
  · rcases writtenRegion_legal hi s with hregion | hregion <;> rw [hregion] at houtside
    · exact houtside
    · exact fun a _ => houtside.sameMemory a
  · rw [writtenRegion_illegal hillegal] at houtside
    exact houtside.sameMemory

/-! ### What a racing read sees -/

/-- A byte that no agent writes during the command reads as memory (R311). -/
theorem State.busByte_unraced {s : State} {a : Nat} (h : ∀ c ∈ s.race, c.1.toNat ≠ a) (reader : Nat) :
    s.busByte reader a = s.mem.read a := by
  have hnone : s.race.filter (fun c => c.1.toNat == a) = [] := by simpa [List.filter_eq_nil_iff] using h
  rw [State.busByte, hnone]

/-- The values a read can see: the byte in memory and those the agents write to its address. -/
theorem State.busByte_mem (s : State) (reader a : Nat) :
    s.busByte reader a ∈ s.mem.read a :: (s.race.filter fun c => c.1.toNat == a).map Prod.snd := by
  unfold State.busByte
  split
  · exact List.mem_cons_self
  next c cs hraced =>
    rw [hraced]
    dsimp only
    rw [List.getD_eq_getElem _ _ (Nat.mod_lt _ (List.length_pos_of_ne_nil (List.cons_ne_nil _ _)))]
    exact List.getElem_mem _

/-- A read sees the byte's old value or one of those written (R311). -/
theorem State.busByte_old_or_new (s : State) (reader a : Nat) :
    s.busByte reader a = s.mem.read a ∨ ∃ c ∈ s.race, c.1.toNat = a ∧ s.busByte reader a = c.2 := by
  rcases List.mem_cons.1 (s.busByte_mem reader a) with hold | hnew
  · exact .inl hold
  · obtain ⟨c, hc, hvalue⟩ := List.mem_map.1 hnew
    obtain ⟨hrace, haddr⟩ := List.mem_filter.1 hc
    exact .inr ⟨c, hrace, by simpa using haddr, hvalue.symm⟩

/-! ### What a command reports -/

/-- What a command that began in `s` and ended in `t` reports: success, an error code, or a refusal (R25-R27, R285). -/
def State.Reports (s t : State) : Verdict → Prop
  | .pass => s.Succeeded t ∧ t.mark = s.mark
  | .err c => t.FailedWith c ∧ t.mark = s.mark
  | .refuse m => t.err = s.err ∧ t.errCode = s.errCode ∧ t.faultSeen = s.faultSeen ∧ t.mark = some m

/-- The report decides STATUS's result and the mark. -/
theorem State.Reports.same_result {s t u : State} {v : Verdict} (ht : s.Reports t v) (hu : s.Reports u v) :
    t.err = u.err ∧ t.errCode = u.errCode ∧ t.faultSeen = u.faultSeen ∧ t.mark = u.mark := by
  cases v with
  | pass | err c =>
    obtain ⟨⟨herr, hcode, hseen⟩, hmark⟩ := ht
    obtain ⟨⟨herr', hcode', hseen'⟩, hmark'⟩ := hu
    exact ⟨herr.trans herr'.symm, hcode.trans hcode'.symm, hseen.trans hseen'.symm, hmark.trans hmark'.symm⟩
  | refuse m =>
    obtain ⟨herr, hcode, hseen, hmark⟩ := ht
    obtain ⟨herr', hcode', hseen', hmark'⟩ := hu
    exact ⟨herr.trans herr'.symm, hcode.trans hcode'.symm, hseen.trans hseen'.symm, hmark.trans hmark'.symm⟩

theorem State.complete_reports {s t : State} (hseen : t.faultSeen = s.faultSeen) (hmark : t.mark = s.mark) :
    s.Reports t.complete .pass := ⟨⟨rfl, rfl, hseen⟩, hmark⟩

theorem State.raise_reports {s t : State} (hmark : t.mark = s.mark) (c : ErrCode) : s.Reports (t.raise c) (.err c) :=
  ⟨⟨rfl, rfl, rfl⟩, hmark⟩

theorem State.Ends.reports {s t : State} (h : s.Ends t) : ∃ v, s.Reports t v := by
  cases h with
  | success hstatus hmark => exact ⟨.pass, hstatus, hmark⟩
  | failure _ hstatus hmark => exact ⟨.err _, hstatus, hmark⟩
  | violation _ ht => exact ⟨.err _, by rw [ht]; exact State.raise_reports rfl _⟩
  | refusal m ht => exact ⟨.refuse m, by rw [ht]; exact ⟨rfl, rfl, rfl, rfl⟩⟩

theorem State.Completes.reports {s t : State} {e : EngineSel} {x : Engine} {m : Memory} (h : s.Completes t e x m) :
    s.Reports t .pass := by
  obtain ⟨-, -, -, -, -, hmark⟩ := h.ends.outside
  exact ⟨h.status, hmark⟩

theorem State.FailsEngine.reports {s t : State} {e : EngineSel} {c : ErrCode} {region : Nat × Nat}
    (h : s.FailsEngine t e c region) : s.Reports t (.err c) := by
  obtain ⟨-, -, -, -, -, hmark⟩ := h.outside
  exact ⟨h.status, hmark⟩

theorem State.BatWorking.reports {s u : State} {region : Nat × Nat} (h : s.BatWorking u region) : s.Reports u.complete .pass := by
  obtain ⟨-, -, -, -, hmark⟩ := h.outside
  exact State.complete_reports h.faultSeen hmark

@[simp] theorem Verdict.first_single (v : Verdict) : Verdict.first [v] = v := by cases v <;> rfl

/-! ### The parts of a report that a race cannot reach -/

/-- A bus error where some byte of a region is not admitted (R69). -/
def State.access (s : State) (a n : Nat) : Verdict := .when (!s.platform.admitsAll a n) (.err .busError)

/-- The failure drawn, if there is one (R276). -/
def State.drawn (s : State) (p : Option DrawPoint) : Verdict :=
  match (s.drawIf p).1 with
  | none => .pass
  | some c => .err c

section
variable {s : State} {reader a n : Nat}

theorem State.access_pass (h : s.platform.admitsAll a n = true) : s.access a n = .pass := by simp [State.access, h]

theorem State.access_busError (h : s.platform.admitsAll a n = false) : s.access a n = .err .busError := by simp [State.access, h]

theorem State.access_of_memRead_none (h : s.memRead reader a n = none) : s.access a n = .err .busError :=
  State.access_busError (by simpa [State.memRead] using h)

theorem State.access_of_memRead_some {bs : List Byte} (h : s.memRead reader a n = some bs) : s.access a n = .pass :=
  State.access_pass (State.memRead_some h)

theorem State.drawn_pass {p : Option DrawPoint} (h : (s.drawIf p).1 = none) : s.drawn p = .pass := by rw [State.drawn, h]

theorem State.drawn_err {p : Option DrawPoint} {c : ErrCode} (h : (s.drawIf p).1 = some c) : s.drawn p = .err c := by
  rw [State.drawn, h]

end

/-- What the oracle answers does not depend on a race. -/
theorem State.drawn_race (s : State) (r : List (Word × Byte)) (p : Option DrawPoint) :
    State.drawn { s with race := r } p = s.drawn p := by
  cases p with
  | none => rfl
  | some p =>
    simp only [State.drawn, State.drawIf, State.draw]
    cases s.env <;> rfl

/-! ### The RAW unit -/

section
variable (s : State)

theorem State.freeRegion_rawBusError_reports (a n : Nat) : s.Reports (s.freeRegion a n).rawBusError (.err .busError) :=
  State.raise_reports rfl _

theorem State.memRead_none_reports {reader a n : Nat} (h : s.memRead reader a n = none) :
    s.Reports s.rawBusError (s.access a n) := by
  rw [State.access_of_memRead_none h]
  exact State.raise_reports rfl _

theorem State.memRead_some_reports {reader a n : Nat} {bs : List Byte} (h : s.memRead reader a n = some bs) (u : RawUnit) :
    s.Reports (State.complete { s with raw := u }) (s.access a n) := by
  rw [State.access_of_memRead_some h]
  exact State.complete_reports rfl rfl

theorem State.memWrite_none_reports {b : Nat} {bs : List Byte} (h : s.memWrite b bs = none) (a n : Nat) :
    s.Reports (s.freeRegion a n).rawBusError (s.access b bs.length) := by
  rw [State.access_busError (State.memWrite_none h)]
  exact s.freeRegion_rawBusError_reports a n

theorem State.memWrite_some_reports {t : State} {b : Nat} {bs : List Byte} (h : s.memWrite b bs = some t) :
    s.Reports t.complete (s.access b bs.length) := by
  obtain ⟨hadm, rfl⟩ := State.memWrite_some h
  rw [State.access_pass hadm]
  exact State.complete_reports rfl rfl

theorem effectKfLoad_reports : s.Reports (effectKfLoad s) (s.access (s.argNat 0) 200) := by
  unfold effectKfLoad
  split
  next hread => exact s.memRead_none_reports hread
  next hread => exact s.memRead_some_reports hread _

theorem effectSpAbsorb_reports : s.Reports (effectSpAbsorb s) (s.access (s.argNat 0) s.raw.rate) := by
  unfold effectSpAbsorb
  split
  next hread => exact s.memRead_none_reports hread
  next hread => exact s.memRead_some_reports hread _

theorem effectKfStore_reports : s.Reports (effectKfStore s) (s.access (s.argNat 0) 200) := by
  rw [← length_stateToBytes s.raw.lanes]
  unfold effectKfStore
  split
  next hwrite => exact s.memWrite_none_reports hwrite _ _
  next hwrite => exact s.memWrite_some_reports hwrite

theorem effectSpSqueeze_reports : s.Reports (effectSpSqueeze s) (s.access (s.argNat 0) s.raw.dlen) := by
  rw [show s.raw.dlen = _ from (length_squeeze s.raw.lanes s.raw.width).symm]
  unfold effectSpSqueeze
  split
  next hwrite => exact s.memWrite_none_reports hwrite _ _
  next hwrite => exact s.memWrite_some_reports hwrite

/-- The block's length is that of the message's, whatever its bytes. -/
theorem length_pad_eq (r : Nat) (m : List Byte) : (pad r m).length = m.length + (r - m.length) := by simp [pad]

/-- The source is read before the block is written (R152). -/
theorem effectSpPad_reports : s.Reports (effectSpPad s) (.first [s.access (s.argNat 0) (s.argNat 1),
    s.access (s.argNat 2) (s.argNat 1 + (s.raw.rate - s.argNat 1))]) := by
  unfold effectSpPad
  split
  next hread =>
    rw [State.access_of_memRead_none hread]
    exact s.freeRegion_rawBusError_reports _ _
  next m hread =>
    rw [State.access_of_memRead_some hread, ← State.memRead_length hread, ← length_pad_eq,
      Verdict.first_pass, Verdict.first_single]
    split
    next hwrite => exact s.memWrite_none_reports hwrite _ _
    next hwrite => exact s.memWrite_some_reports hwrite

end

/-! ### The streaming engines -/

section
variable (e : EngineSel) (s : State)

theorem effectConstruct_reports : s.Reports (effectConstruct e (e.draws .accAlloc) s) (s.drawn (e.draws .accAlloc)) := by
  rcases effectConstruct_cases e s with ⟨hdraw, hdone⟩ | ⟨c, hdraw, hstatus, hend, -⟩
  · rw [State.drawn_pass hdraw]
    exact hdone.reports
  · rw [State.drawn_err hdraw]
    obtain ⟨-, -, -, -, -, hmark⟩ := hend.outside
    exact ⟨hstatus, hmark⟩

theorem effectInit_reports : s.Reports (effectInit e (e.draws .accInit) s) (s.drawn (e.draws .accInit)) := by
  rcases effectInit_cases e s with ⟨hdraw, hdone⟩ | ⟨c, hdraw, hfails⟩
  · rw [State.drawn_pass hdraw]
    exact hdone.reports
  · rw [State.drawn_err hdraw]
    exact hfails.reports

/-- ADD reads its bytes before it draws (R204). -/
theorem effectAdd_reports : s.Reports (effectAdd e (e.draws .accAdd) s)
    (.first [s.access (s.argNat 0) (s.argNat 1), s.drawn (e.draws .accAdd)]) := by
  rcases effectAdd_cases e s with ⟨hread, hfails⟩ | ⟨data, hread, ⟨hdraw, hdone⟩ | ⟨c, hdraw, hfails⟩⟩
  · rw [State.access_of_memRead_none hread]
    exact hfails.reports
  · rw [State.access_of_memRead_some hread, State.drawn_pass hdraw]
    exact hdone.reports
  · rw [State.access_of_memRead_some hread, State.drawn_err hdraw]
    exact hfails.reports

/-- DIGEST draws before it writes (R205). -/
theorem effectDigest_reports : s.Reports (effectDigest e (e.draws .accDigest) s)
    (.first [s.drawn (e.draws .accDigest), s.access (s.argNat 0) (s.engine e).dlen]) := by
  rcases effectDigest_cases e s with ⟨hdraw, ⟨hadm, hdone⟩ | ⟨hadm, hfails⟩⟩ | ⟨c, hdraw, hfails⟩
  · rw [State.drawn_pass hdraw, State.access_pass hadm]
    exact hdone.reports
  · rw [State.drawn_pass hdraw, State.access_busError hadm]
    exact hfails.reports
  · rw [State.drawn_err hdraw]
    exact hfails.reports

theorem effectConstruct_reports_raced : ∃ v, ∀ r, s.Reports (effectConstruct e (e.draws .accAlloc) { s with race := r }) v :=
  ⟨s.drawn (e.draws .accAlloc), fun r => s.drawn_race r _ ▸ effectConstruct_reports e { s with race := r }⟩

theorem effectInit_reports_raced : ∃ v, ∀ r, s.Reports (effectInit e (e.draws .accInit) { s with race := r }) v :=
  ⟨s.drawn (e.draws .accInit), fun r => s.drawn_race r _ ▸ effectInit_reports e { s with race := r }⟩

theorem effectAdd_reports_raced : ∃ v, ∀ r, s.Reports (effectAdd e (e.draws .accAdd) { s with race := r }) v :=
  ⟨.first [s.access (s.argNat 0) (s.argNat 1), s.drawn (e.draws .accAdd)],
    fun r => s.drawn_race r _ ▸ effectAdd_reports e { s with race := r }⟩

theorem effectDigest_reports_raced : ∃ v, ∀ r, s.Reports (effectDigest e (e.draws .accDigest) { s with race := r }) v :=
  ⟨.first [s.drawn (e.draws .accDigest), s.access (s.argNat 0) (s.engine e).dlen],
    fun r => s.drawn_race r _ ▸ (by cases e <;> exact effectDigest_reports _ { s with race := r })⟩

end

/-! ### The BAT engine -/

theorem effectBatConstruct_reports (s : State) : s.Reports (effectBatConstruct s) (s.drawn (some .batAlloc)) := by
  obtain ⟨env, free, hstate⟩ := s.draw_state .batAlloc
  unfold effectBatConstruct
  split
  next c t hdraw =>
    cases (congrArg Prod.snd hdraw).symm.trans hstate
    rw [State.drawn_err (p := some .batAlloc) (congrArg Prod.fst hdraw)]
    exact State.raise_reports rfl c
  next t hdraw =>
    cases (congrArg Prod.snd hdraw).symm.trans hstate
    rw [State.drawn_pass (p := some .batAlloc) (congrArg Prod.fst hdraw)]
    exact State.complete_reports rfl rfl

section
variable {s u : State}

/-- A call that succeeds without a race succeeds with one. -/
theorem effectBatCalculate_reports_pass (hquiet : batRun { s with race := [] } = .ok u) (r : List (Word × Byte)) :
    s.Reports (effectBatCalculate { s with race := r }) .pass := by
  obtain ⟨n, hu⟩ := batRun_ok_working hquiet
  cases r with
  | nil =>
    rw [effectBatCalculate_quiet rfl, hquiet]
    exact hu.reports
  | cons c cs =>
    rcases effectBatCalculate_raced (s := { s with race := c :: cs }) (List.cons_ne_nil c cs) with
      ⟨-, t, -, ht, heffect⟩ | ⟨u', hu', heffect⟩ | ⟨u', hu', -⟩
    · obtain ⟨k, hrun⟩ := batRun_ok_working ht
      rw [heffect]
      exact hrun.reports
    · cases hquiet.symm.trans hu'
      rw [heffect]
      exact (hu.freeRegion_any (s.argNat 1 * s.bat.dlen)).reports
    · cases hquiet.symm.trans hu'

/-- A call that ends otherwise without a race reports the same with one. -/
theorem effectBatCalculate_reports_error (hquiet : batRun { s with race := [] } = .error u) {v : Verdict} (hv : s.Reports u v)
    (r : List (Word × Byte)) : s.Reports (effectBatCalculate { s with race := r }) v := by
  cases r with
  | nil =>
    rw [effectBatCalculate_quiet rfl, hquiet]
    exact hv
  | cons c cs =>
    rcases effectBatCalculate_raced (s := { s with race := c :: cs }) (List.cons_ne_nil c cs) with
      ⟨u', -, hu', -⟩ | ⟨u', hu', -⟩ | ⟨u', hu', heffect⟩ <;> cases hquiet.symm.trans hu'
    rw [heffect]
    cases v <;> exact hv

end

theorem effectBatCalculate_reports_raced (s : State) : ∃ v, ∀ r, s.Reports (effectBatCalculate { s with race := r }) v := by
  cases hquiet : batRun { s with race := [] } with
  | ok u => exact ⟨.pass, effectBatCalculate_reports_pass hquiet⟩
  | error u =>
    obtain ⟨v, hv⟩ := (batRun_error_ends hquiet).ends.reports
    exact ⟨v, effectBatCalculate_reports_error hquiet hv⟩

/-! ### Every command -/

theorem effectOf_reports_raced (i : Instr) (s : State) : ∃ v, ∀ r, s.Reports (effectOf i { s with race := r }) v := by
  cases i with
  | kfLoad => exact ⟨s.access (s.argNat 0) 200, fun r => effectKfLoad_reports { s with race := r }⟩
  | kfStore => exact ⟨s.access (s.argNat 0) 200, fun r => effectKfStore_reports { s with race := r }⟩
  | spAbsorb => exact ⟨s.access (s.argNat 0) s.raw.rate, fun r => effectSpAbsorb_reports { s with race := r }⟩
  | spPad =>
    exact ⟨.first [s.access (s.argNat 0) (s.argNat 1), s.access (s.argNat 2) (s.argNat 1 + (s.raw.rate - s.argNat 1))],
      fun r => effectSpPad_reports { s with race := r }⟩
  | spSqueeze => exact ⟨s.access (s.argNat 0) s.raw.dlen, fun r => effectSpSqueeze_reports { s with race := r }⟩
  | seqConstruct => exact effectConstruct_reports_raced .seq s
  | seqInit => exact effectInit_reports_raced .seq s
  | seqAdd => exact effectAdd_reports_raced .seq s
  | seqDigest => exact effectDigest_reports_raced .seq s
  | accConstruct => exact effectConstruct_reports_raced .acc s
  | accInit => exact effectInit_reports_raced .acc s
  | accAdd => exact effectAdd_reports_raced .acc s
  | accDigest => exact effectDigest_reports_raced .acc s
  | seqDestroy => exact ⟨.pass, fun r => (effectDestroy_completes .seq { s with race := r }).reports⟩
  | accDestroy => exact ⟨.pass, fun r => (effectDestroy_completes .acc { s with race := r }).reports⟩
  | batConstruct =>
    exact ⟨s.drawn (some .batAlloc), fun r => s.drawn_race r _ ▸ effectBatConstruct_reports { s with race := r }⟩
  | batCalculate => exact effectBatCalculate_reports_raced s
  | kfPermute | spInit | batSize | batDestroy => exact ⟨.pass, fun r => State.complete_reports rfl rfl⟩

/-- The checks before the first access do not read host memory. -/
theorem checksOf_race (i : Instr) (s : State) (r : List (Word × Byte)) : checksOf i { s with race := r } = checksOf i s := by
  cases i <;> rfl

/-- However other agents write while a command runs, it reports the same (R311). -/
theorem exec_reports_raced (i : Instr) (s : State) : ∃ v, ∀ r t, exec i { s with race := r } = .next t → s.Reports t v := by
  cases hchecks : checksOf i s with
  | pass =>
    obtain ⟨v, hv⟩ := effectOf_reports_raced i s
    refine ⟨v, fun r t h => ?_⟩
    rw [exec_next h, checksOf_race, hchecks]
    exact hv r
  | err c =>
    refine ⟨.err c, fun r t h => ?_⟩
    rw [exec_next h, checksOf_race, hchecks]
    exact State.raise_reports rfl c
  | refuse m =>
    refine ⟨.refuse m, fun r t h => ?_⟩
    rw [exec_next h, checksOf_race, hchecks]
    exact ⟨rfl, rfl, rfl, rfl⟩

/-- Settles O13: a read sees one of the values in `State.busByte_mem`, and the raced command and the unraced one have one report. -/
theorem racedReadsSeeOldOrNew : Obligations.RacedReadsSeeOldOrNew := by
  refine ⟨fun s reader a => ⟨s.busByte_old_or_new reader a, fun h => State.busByte_unraced h reader⟩,
    fun i s t u writes ht hu => ?_⟩
  obtain ⟨v, hv⟩ := exec_reports_raced i s
  exact (hv writes t ht).same_result (hv [] u hu)

end Sys2Proof.Machine
end
